-- ==== Sys2Proof/Word.lean ====
section
/-! DEFINITION. The word types of LARK-BFPLL: 32-bit addresses and data (`ADDR_W`, `DATA_W`), 8-bit byte
registers (`BYTE_REG_W`), and binary64 bit patterns (00_scope.md R6, R11). -/

namespace Sys2Proof

/-- A 32-bit address, operand, register value or response word (00_scope.md R6: `ADDR_W`, `DATA_W`, `WORD_REG_W`). -/
abbrev Word := BitVec 32

/-- The content of a byte register (00_scope.md R6: `BYTE_REG_W`). -/
abbrev Byte := BitVec 8

/-- An IEEE 754 binary64 value as its 64 bits (00_scope.md R11). -/
abbrev Binary64 := BitVec 64

end Sys2Proof
end

