-- ==== Sys2Proof/Syntax.lean ====
section
/-! DEFINITION. The instructions: the three commands of 30_encoding.md R82 and the six pseudo-instructions of R95,
one constructor per row of spec/opcode_table.json; and the request registers a command arrives in (10_state.md R22). -/

namespace Sys2Proof

/-- An instruction, with its operands at the widths of 30_encoding.md R81, R85 and R86. -/
inductive Instr where
  /-- `BF_READ addr, bs, bc` (R83, R113) -/
  | bfRead (addr : Word) (bs : BitVec 5) (bc : BitVec 6)
  /-- `BF_WRITE addr, bs, bc, value` (R84, R117) -/
  | bfWrite (addr : Word) (bs : BitVec 5) (bc : BitVec 6) (value : Word)
  /-- `PLL_START xtal_mode, pll_source, sync_source, fin, fout` (R85, R200) -/
  | pllStart (xtalMode pllSrc syncSrc : Byte) (fin fout : Word)
  /-- `RD8 addr` = `BF_READ addr, 0, 8` (R95) -/
  | rd8 (addr : Word)
  /-- `RD32 addr` = `BF_READ addr, 0, 32` (R95) -/
  | rd32 (addr : Word)
  /-- `WR8 addr, v` = `BF_WRITE addr, 0, 8, v` (R95) -/
  | wr8 (addr value : Word)
  /-- `WR32 addr, v` = `BF_WRITE addr, 0, 32, v` (R95) -/
  | wr32 (addr value : Word)
  /-- `BSET addr, bs` = `BF_WRITE addr, bs, 1, 1` (R95) -/
  | bset (addr : Word) (bs : BitVec 5)
  /-- `BCLR addr, bs` = `BF_WRITE addr, bs, 1, 0` (R95) -/
  | bclr (addr : Word) (bs : BitVec 5)
deriving DecidableEq, Repr

/-- The request registers `REQ0` to `REQ3` (10_state.md R22). -/
structure Request where
  /-- `REQ0`, the command word -/
  req0 : Word
  /-- `REQ1` -/
  req1 : Word
  /-- `REQ2` -/
  req2 : Word
  /-- `REQ3` -/
  req3 : Word
deriving DecidableEq, Repr

/-- What decoding a request gives: an instruction, or the name of why it is none (30_encoding.md R87, R88). -/
inductive Decoded where
  | instr (i : Instr)
  /-- `OP` is 0x0 or 0x4..0xF (R88) -/
  | illegalOp
  /-- a reserved bit of a defined operation is 1 (R87) -/
  | reservedBits
deriving DecidableEq, Repr

end Sys2Proof
end

