-- ==== Sys2Proof/WellFormed.lean ====
section
/-! DEFINITION. Which instruction terms are well-formed. Every operand value of a term can be encoded (the types are
the fields of 30_encoding.md R81 and R85), so the one thing to check is that a term is the name its words decode to: a
BF_READ or BF_WRITE whose words are those of a pseudo-instruction (R95) is written as that pseudo-instruction (log 15). -/

namespace Sys2Proof

/-- A term is well-formed when no pseudo-instruction of 30_encoding.md R95 names the same words. -/
def Instr.wellFormed : Instr → Bool
  | .bfRead _ bs bc => !(bs == 0#5 && bc == 8#6) && !(bs == 0#5 && bc == 32#6)
  | .bfWrite _ bs bc value =>
      !(bs == 0#5 && bc == 8#6) && !(bs == 0#5 && bc == 32#6) &&
      !(bc == 1#6 && value == 1#32) && !(bc == 1#6 && value == 0#32)
  | .pllStart _ _ _ _ _ => true
  | .rd8 _ => true
  | .rd32 _ => true
  | .wr8 _ _ => true
  | .wr32 _ _ => true
  | .bset _ _ => true
  | .bclr _ _ => true

end Sys2Proof
end

