-- ==== Sys2Proof/Decode.lean ====
section
/-! DEFINITION. Decoding a request (30_encoding.md R80 to R89), total on any request words and rejecting by name, and
the encoder after it (R83 to R85, R95). -/

namespace Sys2Proof

/-- `OP`, bits 3:0 of the command word (30_encoding.md R81). -/
def opField (req0 : Word) : BitVec 4 := req0.extractLsb' 0 4

/-- `BS`, bits 8:4 of the command word (30_encoding.md R81). -/
def bsField (req0 : Word) : BitVec 5 := req0.extractLsb' 4 5

/-- `BC`, bits 14:9 of the command word (30_encoding.md R81). -/
def bcField (req0 : Word) : BitVec 6 := req0.extractLsb' 9 6

/-- The request length fixed by `OP` alone (30_encoding.md R80, R82). -/
def requestLength (op : BitVec 4) : Nat :=
  if op = 1#4 then 2 else if op = 2#4 then 3 else if op = 3#4 then 4 else 1

/-- The name of a BF_READ's words: `RD8` and `RD32` where 30_encoding.md R95 gives them one (log 15). -/
def nameRead (addr : Word) (bs : BitVec 5) (bc : BitVec 6) : Instr :=
  if bs = 0#5 ∧ bc = 8#6 then .rd8 addr
  else if bs = 0#5 ∧ bc = 32#6 then .rd32 addr
  else .bfRead addr bs bc

/-- The name of a BF_WRITE's words: `WR8`, `WR32`, `BSET` and `BCLR` where 30_encoding.md R95 gives them one
(log 15). -/
def nameWrite (addr : Word) (bs : BitVec 5) (bc : BitVec 6) (value : Word) : Instr :=
  if bs = 0#5 ∧ bc = 8#6 then .wr8 addr value
  else if bs = 0#5 ∧ bc = 32#6 then .wr32 addr value
  else if bc = 1#6 ∧ value = 1#32 then .bset addr bs
  else if bc = 1#6 ∧ value = 0#32 then .bclr addr bs
  else .bfWrite addr bs bc value

/-- Decoding: `OP` first, then the reserved bits, then the operands (30_encoding.md R81 to R88; the order is that of
60_exceptions.md R236 and R237). -/
def decode (r : Request) : Decoded :=
  if opField r.req0 = 1#4 then
    if r.req0.extractLsb' 15 17 = 0#17 then
      .instr (nameRead r.req1 (bsField r.req0) (bcField r.req0))
    else .reservedBits
  else if opField r.req0 = 2#4 then
    if r.req0.extractLsb' 15 17 = 0#17 then
      .instr (nameWrite r.req1 (bsField r.req0) (bcField r.req0) r.req2)
    else .reservedBits
  else if opField r.req0 = 3#4 then
    if r.req0.extractLsb' 4 28 = 0#28 ∧ r.req1.extractLsb' 24 8 = 0#8 then
      .instr (.pllStart (r.req1.extractLsb' 0 8) (r.req1.extractLsb' 8 8) (r.req1.extractLsb' 16 8) r.req2 r.req3)
    else .reservedBits
  else .illegalOp

/-- The command word of a bit-field command: `{17'b0, BC, BS, OP}` (30_encoding.md R83, R84). -/
def bfCommandWord (op : BitVec 4) (bs : BitVec 5) (bc : BitVec 6) : Word := 0#17 ++ bc ++ bs ++ op

/-- The encoder: the words of an instruction, `REQ0` first, as many as the request is long (30_encoding.md R80, R83 to
R85; R95 for the pseudo-instructions). -/
def encode : Instr → List Word
  | .bfRead addr bs bc => [bfCommandWord 1#4 bs bc, addr]
  | .bfWrite addr bs bc value => [bfCommandWord 2#4 bs bc, addr, value]
  | .pllStart xm src sync fin fout => [0#28 ++ 3#4, 0#8 ++ sync ++ src ++ xm, fin, fout]
  | .rd8 addr => [bfCommandWord 1#4 0#5 8#6, addr]
  | .rd32 addr => [bfCommandWord 1#4 0#5 32#6, addr]
  | .wr8 addr value => [bfCommandWord 2#4 0#5 8#6, addr, value]
  | .wr32 addr value => [bfCommandWord 2#4 0#5 32#6, addr, value]
  | .bset addr bs => [bfCommandWord 2#4 bs 1#6, addr, 1#32]
  | .bclr addr bs => [bfCommandWord 2#4 bs 1#6, addr, 0#32]

/-- The request registers after the host writes the words of a request into `REQ0..REQ(len-1)`; the others keep what
they held (10_state.md R22). -/
def Request.load (r : Request) : List Word → Request
  | [] => r
  | [a] => { r with req0 := a }
  | [a, b] => { r with req0 := a, req1 := b }
  | [a, b, c] => { r with req0 := a, req1 := b, req2 := c }
  | a :: b :: c :: d :: _ => ⟨a, b, c, d⟩

/-- The request whose bits are `w`, bit 0 the least significant bit of `REQ0`, later words counting on; every bit from
`nbits` up is 0. -/
def tableRequest (nbits w : Nat) : Request :=
  let v := w % 2 ^ nbits
  ⟨BitVec.ofNat 32 v, BitVec.ofNat 32 (v / 2 ^ 32), BitVec.ofNat 32 (v / 2 ^ 64), BitVec.ofNat 32 (v / 2 ^ 96)⟩

/-- The instruction the decoder reads from the bits of an opcode-table word. -/
def decodeTableWord (nbits w : Nat) : Option Instr :=
  match decode (tableRequest nbits w) with
  | .instr i => some i
  | .illegalOp => none
  | .reservedBits => none

end Sys2Proof
end

