-- ==== Sys2Proof/Config.lean ====
section
/-! DEFINITION. The configuration record `CFG` (00_scope.md R6, R7; 10_state.md R28): every OPEN parameter is a
field, fixed before the first command and changed by nothing. A statement about every state is a statement about
every record. -/

namespace Sys2Proof

/-- `PROFILE`, the hardware variant (00_scope.md R6, D33). -/
inductive Profile where
  | full
  | reduced
deriving DecidableEq, Repr

/-- `FRACT_MODE`, the arithmetic of the phase-2 search (00_scope.md R6, D17). -/
inductive FractMode where
  | binary64
  | exact
deriving DecidableEq, Repr

/-- `SPAN_COMBINE`, how a spanning word read joins its two parts (00_scope.md R6, D14; 90_conflicts.md C1). -/
inductive SpanCombine where
  | le
  | docLiteral
deriving DecidableEq, Repr

/-- A bit-field descriptor `(a, bs, bc)` (00_scope.md R14). The record may hold any numbers; R7 says which are
well-formed. -/
structure Descriptor where
  /-- register address `a` -/
  addr : Word
  /-- start bit `bs` -/
  bs : Nat
  /-- bit count `bc` -/
  bc : Nat
deriving DecidableEq, Repr

/-- The configuration record, one field per parameter of 00_scope.md R6 that has no fixed value. -/
structure Cfg where
  /-- `BYTE_WIN_LO` -/
  byteWinLo : Word
  /-- `BYTE_WIN_HI`, inclusive -/
  byteWinHi : Word
  /-- `PROFILE` -/
  profile : Profile
  /-- `MIN_PLL_INPUT(PROFILE)`, Hz -/
  minPllInput : Nat
  /-- `MAX_PLL_INPUT(PROFILE)`, Hz -/
  maxPllInput : Nat
  /-- `FRACT_MODE` -/
  fractMode : FractMode
  /-- `SPAN_COMBINE` -/
  spanCombine : SpanCombine
  /-- `F_MCLK_BYPASS`: for an `fout`, its list of (descriptor, value) writes (an `fout` not listed has none) -/
  mclkBypass : List (Word × List (Descriptor × Word))
  /-- `F_PLL_PWR` -/
  pllPwr : Descriptor
  /-- `F_XTAL_PWR` -/
  xtalPwr : Descriptor
  /-- `F_XTAL_MODE` -/
  xtalMode : Descriptor
  /-- `F_PLL_SRC` -/
  pllSrc : Descriptor
  /-- `F_PLL_TYPE` -/
  pllType : Descriptor
  /-- `F_SYNC_SRC` -/
  syncSrc : Descriptor
  /-- `F_PRESCALER` -/
  prescaler : Descriptor
  /-- `F_MULT` -/
  mult : Descriptor
  /-- `F_NUM` -/
  num : Descriptor
  /-- `F_DEN` -/
  den : Descriptor
  /-- `F_UPDATE` -/
  update : Descriptor
  /-- `PLL_PWR_OFF` -/
  pllPwrOff : Word
  /-- `PLL_PWR_ON` -/
  pllPwrOn : Word
  /-- `XTAL_PWR_ON` -/
  xtalPwrOn : Word
  /-- `TYPE_CODE_INT` -/
  typeCodeInt : Word
  /-- `TYPE_CODE_FRAC` -/
  typeCodeFrac : Word
  /-- `VOLATILE_ADDRS` -/
  volatileAddrs : List Word
  /-- `EXCLUSIVE` -/
  exclusive : Bool
deriving DecidableEq, Repr

/-- The record that `Sys2Proof.Machine.State.reset` holds. DESIGN CHOICE, unsafe (log 2): the spec gives the OPEN
parameters no value and says that a model must not adopt the test profile's. It has the defaults R6 and I22 do name
(`BINARY64`, `LE`, nothing volatile, not exclusive); the byte window is the lower half of the address space, the input
bounds are the widest 32-bit ones, and each `F_*` descriptor is a whole word register of its own. -/
def Cfg.placeholder : Cfg where
  byteWinLo := 0x00000000#32
  byteWinHi := 0x7FFFFFFF#32
  profile := .full
  minPllInput := 1
  maxPllInput := 4294967295
  fractMode := .binary64
  spanCombine := .le
  mclkBypass := []
  pllPwr := ⟨0x80000000#32, 0, 32⟩
  xtalPwr := ⟨0x80000004#32, 0, 32⟩
  xtalMode := ⟨0x80000008#32, 0, 32⟩
  pllSrc := ⟨0x8000000C#32, 0, 32⟩
  pllType := ⟨0x80000010#32, 0, 32⟩
  syncSrc := ⟨0x80000014#32, 0, 32⟩
  prescaler := ⟨0x80000018#32, 0, 32⟩
  mult := ⟨0x8000001C#32, 0, 32⟩
  num := ⟨0x80000020#32, 0, 32⟩
  den := ⟨0x80000024#32, 0, 32⟩
  update := ⟨0x80000028#32, 0, 32⟩
  pllPwrOff := 0#32
  pllPwrOn := 1#32
  xtalPwrOn := 1#32
  typeCodeInt := 0#32
  typeCodeFrac := 1#32
  volatileAddrs := []
  exclusive := false

end Sys2Proof
end

