-- ==== Sys2Proof/Machine/State.lean ====
section
/-! DEFINITION. The state of LARK-BFPLL (10_state.md R20: request, response, busy bit, transport-bound input,
configuration, register space, PLL state, working state), the reasons a step can stop, and the state after reset. -/

namespace Sys2Proof.Machine

/-- The two register regimes (20_memory.md R52); also the width of a transaction, 1 byte or 4 (R51). -/
inductive Regime where
  | byte
  | word
deriving DecidableEq, Repr

/-- `pll_type` (41_pll_solver.md R151). -/
inductive PllType where
  | int
  | frac
deriving DecidableEq, Repr

/-- A PLL configuration `(type, p, mul, num, den)` (41_pll_solver.md R151). -/
structure PllConfig where
  type : PllType
  p : Nat
  mul : Nat
  num : Nat
  den : Nat
deriving DecidableEq, Repr

/-- `PLL_STATE` (10_state.md R36). -/
inductive PllState where
  | unconfigured
  | configuring
  | updated
  | locked
deriving DecidableEq, Repr

/-- The register space `REGS` (10_state.md R30, R31): the byte registers and the word registers, each a sparse list of
(address, content) in canonical form (`Memory.wf`). Two lists, since a byte register and a word register are never the
same register, whatever the window's bounds are (log 6). -/
structure Memory where
  /-- `Reg8` -/
  reg8 : List Host.Cell
  /-- `Reg32` -/
  reg32 : List (Nat × Word)
deriving DecidableEq, Repr

/-- One event on the register space (20_memory.md R62: "a model records each as an event"). A byte register's value
stands zero-extended. -/
inductive Txn where
  /-- a read transaction of the engine that returned `value` -/
  | read (r : Regime) (addr value : Word)
  /-- a read transaction of the engine that failed with `code` -/
  | readFailed (r : Regime) (addr code : Word)
  /-- a write transaction of the engine that stored `value` -/
  | write (r : Regime) (addr value : Word)
  /-- a write transaction of the engine that failed with `code` and stored nothing -/
  | writeFailed (r : Regime) (addr value code : Word)
  /-- a write by another agent (R68) -/
  | otherWrite (r : Regime) (addr value : Word)
deriving DecidableEq, Repr

/-- What agents other than the engine do on their own. -/
inductive EnvAct where
  /-- another agent writes a register (20_memory.md R61, R68) -/
  | write (addr value : Word)
  /-- the device takes `Updated -> Locked` (42_pll_start.md R214) -/
  | lock
deriving DecidableEq, Repr

/-- The free values of one transaction (20_memory.md R63, R64, R68; log 7): nothing constrains any of them. -/
structure Draw where
  /-- what other agents do just before the transaction, in order -/
  acts : List EnvAct
  /-- a reset that arrives then, after those acts, with what the request registers hold after it (10_state.md R38, R260) -/
  reset : Option Request
  /-- 0: the transaction succeeds; otherwise it fails with this nonzero code (R64) -/
  code : Word
  /-- what a read of a volatile register returns (R63) -/
  fresh : Word
deriving DecidableEq, Repr

/-- What the host or its environment does while the engine is idle (70_reset_and_hazards.md R263). -/
inductive HostAct where
  /-- write one request register -/
  | setReq (n : Fin 4) (value : Word)
  /-- start the command that stands in the request registers -/
  | start
  /-- attach or detach the transport (10_state.md R25) -/
  | bind (bound : Bool)
  /-- another agent or the device acts between commands -/
  | env (act : EnvAct)
  /-- reset, with what the request registers hold after it (10_state.md R38) -/
  | reset (req : Request)
deriving DecidableEq, Repr

/-- The working state `W` (10_state.md R26, R34, R35). -/
structure Work where
  /-- the step of a PLL_START sequence, 0 when none is running (R26) -/
  step : Fin 15
  regime : Regime
  /-- the byte-regime register count -/
  n : Nat
  /-- the byte-regime accumulator (40_bitfield.md R112) -/
  acc : BitVec 64
  /-- the words read so far -/
  w0 : Word
  w1 : Word
  /-- the solver's loop index -/
  p : Nat
  /-- the candidate of the prescaler visited last -/
  cand : Option PllConfig
  /-- the best candidate so far -/
  best : Option PllConfig
  leastDiff : Nat
  ratio : Binary64
  /-- MODEL's own (log 9): the registers the running command may read or write, which `EXCLUSIVE` is about -/
  touched : List Word
deriving DecidableEq, Repr

/-- `W` when no command runs: it holds nothing (10_state.md R20, R41; the values are a DESIGN CHOICE, log 11). -/
def Work.idle : Work :=
  { step := 0, regime := .byte, n := 0, acc := 0#64, w0 := 0#32, w1 := 0#32, p := 0, cand := none, best := none,
    leastDiff := 0, ratio := 0#64, touched := [] }

/-- The state of the machine (10_state.md R20), and five fields of the model's own. -/
structure State where
  /-- `REQ` -/
  req : Request
  /-- `RSP0` -/
  rsp0 : Word
  /-- `RSP1` -/
  rsp1 : Word
  /-- `BUSY` -/
  busy : Bool
  /-- `TRANSPORT_BOUND` -/
  transportBound : Bool
  /-- `CFG` -/
  cfg : Cfg
  /-- `REGS` -/
  mem : Memory
  /-- `PLL_STATE` -/
  pllState : PllState
  /-- `W` -/
  w : Work
  /-- MODEL's own (log 13): every event on the register space, oldest first -/
  trace : List Txn
  /-- MODEL's own (log 7): the free values of the coming transactions, one draw each, in order -/
  draws : List Draw
  /-- MODEL's own (log 7): the draw of every transaction after those of `draws` -/
  tail : Draw
  /-- MODEL's own (log 10): for each of the coming responses, in order, the reset that arrives after the command's last
  transaction and just before that response, with what the request registers hold after it; past the end of the list no
  reset comes there -/
  lateResets : List (Option Request)
  /-- MODEL's own (log 14): what the host and its environment do next -/
  host : List HostAct
deriving DecidableEq, Repr

/-- The model faults (60_exceptions.md R233). A fault has no response and no further step; it carries the state at the
point the transaction would have been issued, since the transactions before it keep their effect. -/
inductive Fault where
  /-- Raised by the issue of a transaction whose address lies in the other regime (20_memory.md R53). Safe: the spec
  gives such a command no outcome. -/
  | crossRegime (addr : Word) (stopped : State)
  /-- Raised by the issue of a word transaction at an address that is no multiple of 4 (20_memory.md R54). Safe: the
  spec gives such a command no outcome. -/
  | misaligned (addr : Word) (stopped : State)
deriving DecidableEq, Repr

/-- The reasons the model gives a command no meaning. -/
inductive Refusal where
  /-- An instruction whose arm has no meaning yet. Safe. (No arm of this model answers it.) -/
  | notModelled (mnemonic : String)
  /-- Raised by every command under a configuration record that is not well-formed (00_scope.md R7: "A model refuses a
  configuration that is not well-formed"). Safe. -/
  | illFormedConfig
deriving DecidableEq, Repr

/-- The reasons of `INVALID_PARAM` (60_exceptions.md R232). -/
inductive Reason where
  | bitCount
  | outFreq
  | inFreqZero
  | noConfig
  | illegalOp
  | reservedBits
deriving DecidableEq, Repr

/-- The error kinds with their information (60_exceptions.md R231). -/
inductive Err where
  | nullParam
  | invalidParam (why : Reason)
  | transportError (code : Word)
deriving DecidableEq, Repr

/-- How a part of a command's run ends. -/
inductive Res (α : Type) where
  /-- with a value -/
  | ok (a : α) (s : State)
  /-- with `raise e` (00_scope.md R13) -/
  | raise (e : Err) (s : State)
  /-- abandoned by a reset (70_reset_and_hazards.md R260) -/
  | abandoned (s : State)
  /-- in a model fault (60_exceptions.md R233) -/
  | fault (f : Fault)
deriving DecidableEq, Repr

/-- The draw the tail holds at reset (log 7). -/
def Draw.quiet : Draw := { acts := [], reset := none, code := 0#32, fresh := 0#32 }

/-- The machine right after reset (10_state.md R38 to R41). `RSP0`, `RSP1`, `BUSY`, `step` and `PLL_STATE` are the
spec's values; `REQ` (log 4), `TRANSPORT_BOUND` (log 3), `CFG` (log 2), `REGS` (log 5), the rest of `W` (log 11) and the
model's own fields (logs 7, 10, 13, 14) are DESIGN CHOICES. -/
def State.reset : State where
  req := ⟨0#32, 0#32, 0#32, 0#32⟩
  rsp0 := 0#32
  rsp1 := 0#32
  busy := false
  transportBound := true
  cfg := Cfg.placeholder
  mem := ⟨[], []⟩
  pllState := .unconfigured
  w := Work.idle
  trace := []
  draws := []
  tail := Draw.quiet
  lateResets := []
  host := []

end Sys2Proof.Machine
end

