-- ==== Sys2Proof/Machine/Flags.lean ====
section
/-! DEFINITION. The status a command reports: LARK-BFPLL has no flags (10_state.md R27); the outcome stands in `RSP0`
and `RSP1` (30_encoding.md R90 to R92, 60_exceptions.md R231, R232). -/

namespace Sys2Proof.Machine

/-- `KIND` (30_encoding.md R90; `OK` is 0). -/
def kindCode : Err → BitVec 2
  | .nullParam => 1#2
  | .invalidParam _ => 2#2
  | .transportError _ => 3#2

/-- The code of a reason (60_exceptions.md R232). -/
def reasonNumber : Reason → BitVec 4
  | .bitCount => 1#4
  | .outFreq => 2#4
  | .inFreqZero => 3#4
  | .noConfig => 4#4
  | .illegalOp => 5#4
  | .reservedBits => 6#4

/-- `REASON`: 0 for every kind but `INVALID_PARAM` (30_encoding.md R90). -/
def reasonCode : Err → BitVec 4
  | .nullParam => 0#4
  | .invalidParam why => reasonNumber why
  | .transportError _ => 0#4

/-- `STEP`: the failing step of a PLL_START sequence for `TRANSPORT_ERR`, 0 otherwise (30_encoding.md R90). -/
def stepCode (e : Err) (step : Fin 15) : BitVec 8 :=
  match e with
  | .nullParam => 0#8
  | .invalidParam _ => 0#8
  | .transportError _ => BitVec.ofNat 8 step.val

/-- `RSP0 = {16'b0, STEP, REASON, 2'b0, KIND}` of an error (30_encoding.md R92). -/
def statusWord (e : Err) (step : Fin 15) : Word := 0#16 ++ stepCode e step ++ reasonCode e ++ 0#2 ++ kindCode e

/-- `RSP1` of an error: the transport's code, unchanged, or 0 (30_encoding.md R91). -/
def errorData : Err → Word
  | .nullParam => 0#32
  | .invalidParam _ => 0#32
  | .transportError code => code

end Sys2Proof.Machine
end

