-- ==== Sys2Proof/Machine/Operands.lean ====
section
/-! DEFINITION. Operands and bit-field arithmetic: masks, the regime of an address, register counts, the registers of a
field, and every split and join of a field the spec gives (00_scope.md R7, R9; 20_memory.md R52 to R57; 40_bitfield.md
R111 to R132). -/

namespace Sys2Proof.Machine

/-- `mask(n)`: bits `n-1..0` set; `mask(32)` is special-cased, so no shift by 32 is performed (00_scope.md R9). -/
def mask (n : Nat) : Word := if n = 32 then 0xFFFFFFFF#32 else (1#32 <<< n) - 1#32

/-- A descriptor as 00_scope.md R7 wants it: `0 ≤ bs ≤ 31` and `1 ≤ bc ≤ 32`. -/
def descriptorOk (d : Descriptor) : Bool := decide (d.bs ≤ 31) && decide (1 ≤ d.bc) && decide (d.bc ≤ 32)

/-- The eleven `F_*` descriptors of a record (00_scope.md R6). -/
def fieldDescriptors (c : Cfg) : List Descriptor :=
  [c.pllPwr, c.xtalPwr, c.xtalMode, c.pllSrc, c.pllType, c.syncSrc, c.prescaler, c.mult, c.num, c.den, c.update]

/-- A well-formed configuration record (00_scope.md R7). -/
def cfgWellFormed (c : Cfg) : Bool :=
  decide (c.byteWinLo.toNat ≤ c.byteWinHi.toNat) &&
  decide (1 ≤ c.minPllInput) && decide (c.minPllInput ≤ c.maxPllInput) &&
  (fieldDescriptors c).all descriptorOk &&
  c.mclkBypass.all (fun entry => entry.2.all (fun write => descriptorOk write.1))

/-- The address lies in the byte window, whose bounds are inclusive (20_memory.md R52). -/
def inByteWindow (c : Cfg) (a : Word) : Bool :=
  decide (c.byteWinLo.toNat ≤ a.toNat) && decide (a.toNat ≤ c.byteWinHi.toNat)

/-- `regime(a)` (20_memory.md R52). -/
def regimeOf (c : Cfg) (a : Word) : Regime := if inByteWindow c a then .byte else .word

/-- The register of regime `r` at `a` exists (10_state.md R30 to R32). -/
def registerExists (c : Cfg) (r : Regime) (a : Word) : Bool :=
  match r with
  | .byte => inByteWindow c a
  | .word => !inByteWindow c a && decide (a.toNat % 4 = 0)

/-- Byte-regime register count `floor((bs + bc + 7) / 8)` (40_bitfield.md R111). -/
def regCount (bs bc : Nat) : Nat := (bs + bc + 7) / 8

/-- The `i`-th register address after `a`, modulo 2^32 (20_memory.md R55). -/
def addrAt (a : Word) (i : Nat) : Word := a + BitVec.ofNat 32 i

/-- The registers a field's command reads or writes, in order (40_bitfield.md R114 to R122). -/
def touchedBy (c : Cfg) (a : Word) (bs bc : Nat) : List Word :=
  match regimeOf c a with
  | .byte => (List.range (regCount bs bc)).map (addrAt a)
  | .word => if bs + bc ≤ 32 then [a] else [a, addrAt a 4]

/-- `acc | (zext_64(b) << (8*i))` (40_bitfield.md R114). -/
def accumulate (acc : BitVec 64) (i : Nat) (b : Word) : BitVec 64 := acc ||| (b.setWidth 64 <<< (8 * i))

/-- `acc[8*i+7 : 8*i]`, zero-extended (40_bitfield.md R119). -/
def accByte (acc : BitVec 64) (i : Nat) : Word := (acc.extractLsb' (8 * i) 8).setWidth 32

/-- `trunc_32(acc >> bs) & mask(bc)` (40_bitfield.md R114). -/
def fieldOfAcc (acc : BitVec 64) (bs bc : Nat) : Word := (acc >>> bs).setWidth 32 &&& mask bc

/-- `(acc & ~m) | (zext_64(vm) << bs)` with `m = zext_64(mask(bc)) << bs` (40_bitfield.md R119). -/
def accWithField (acc : BitVec 64) (bs bc : Nat) (vm : Word) : BitVec 64 :=
  (acc &&& ~~~((mask bc).setWidth 64 <<< bs)) ||| (vm.setWidth 64 <<< bs)

/-- `(w >> bs) & mask(bc)` (40_bitfield.md R115). -/
def fieldOfWord (w : Word) (bs bc : Nat) : Word := (w >>> bs) &&& mask bc

/-- `(w & ~(mask(bc) << bs)) | (vm << bs)` (40_bitfield.md R121). -/
def wordWithField (w : Word) (bs bc : Nat) (vm : Word) : Word := (w &&& ~~~(mask bc <<< bs)) ||| (vm <<< bs)

/-- The spanning read's join: `hp | (lp << h)` under `LE` (40_bitfield.md R116), `trunc_32(lp + trunc_32(hp << h))`
under `DOC_LITERAL` (R132). -/
def fieldOfSpan (mode : SpanCombine) (w0 w1 : Word) (bs bc : Nat) : Word :=
  let h := 32 - bs
  let hp := w0 >>> bs
  let lp := w1 &&& mask (bc - h)
  match mode with
  | .le => hp ||| (lp <<< h)
  | .docLiteral => lp + (hp <<< h)

/-- `(w0 & mask(bs)) | ((vm & mask(h)) << bs)`, the first word of a spanning write (40_bitfield.md R122). -/
def spanFirst (w0 : Word) (bs : Nat) (vm : Word) : Word := (w0 &&& mask bs) ||| ((vm &&& mask (32 - bs)) <<< bs)

/-- `(w1 & ~mask(k)) | ((vm >> h) & mask(k))`, the second word of a spanning write (40_bitfield.md R122). -/
def spanSecond (w1 : Word) (bs bc : Nat) (vm : Word) : Word :=
  (w1 &&& ~~~mask (bc - (32 - bs))) ||| ((vm >>> (32 - bs)) &&& mask (bc - (32 - bs)))

end Sys2Proof.Machine
end

