-- ==== Sys2Proof/Machine/Ops.lean ====
section
/-! DEFINITION. The shared operations: the register space, one transport transaction, how a command begins and ends
(with a value, with an error, by a reset, in a fault), and what the other agents and the host do. -/

namespace Sys2Proof.Machine

/-! ## The register space -/

/-- What a register that nothing has written reads as (10_state.md R39 leaves it unspecified; DESIGN CHOICE, unsafe,
log 5). The ONE place that says so. -/
def unlisted (n : Nat) : BitVec n := 0#n

/-- The content listed for key `a`. -/
def getCell {n : Nat} : List (Nat × BitVec n) → Nat → BitVec n
  | [], _ => unlisted n
  | (b, x) :: rest, a => if a = b then x else getCell rest a

/-- The list with key `a` holding `v`, in the canonical form again. -/
def setCell {n : Nat} : List (Nat × BitVec n) → Nat → BitVec n → List (Nat × BitVec n)
  | [], a, v => if v = unlisted n then [] else [(a, v)]
  | (b, x) :: rest, a, v =>
    if a < b then (if v = unlisted n then (b, x) :: rest else (a, v) :: (b, x) :: rest)
    else if a = b then (if v = unlisted n then rest else (a, v) :: rest)
    else (b, x) :: setCell rest a v

/-- The canonical form of one list: keys strictly rising, no entry equal to what an unlisted key reads as. -/
abbrev cellsWf {n : Nat} (l : List (Nat × BitVec n)) : Prop :=
  l.Pairwise (fun c d => c.1 < d.1) ∧ ∀ c ∈ l, c.2 ≠ unlisted n

/-- The canonical form of the register space. -/
abbrev Memory.wf (m : Memory) : Prop := cellsWf m.reg8 ∧ cellsWf m.reg32

/-- Every listed register exists in the address map of the record (10_state.md R30 to R32). -/
abbrev Memory.onMap (c : Cfg) (m : Memory) : Prop :=
  (∀ x ∈ m.reg8, x.1 < 2 ^ 32 ∧ registerExists c .byte (BitVec.ofNat 32 x.1) = true) ∧
  (∀ x ∈ m.reg32, x.1 < 2 ^ 32 ∧ registerExists c .word (BitVec.ofNat 32 x.1) = true)

/-- The content of the register of regime `r` at `a`, a byte register's zero-extended (10_state.md R30, R31). -/
def regGet (m : Memory) (r : Regime) (a : Word) : Word :=
  match r with
  | .byte => (getCell m.reg8 a.toNat).setWidth 32
  | .word => getCell m.reg32 a.toNat

/-- A successful write: `Reg8[a] <- v[7:0]`, `Reg32[a] <- v` (20_memory.md R63). -/
def regSet (m : Memory) (r : Regime) (a : Word) (v : Word) : Memory :=
  match r with
  | .byte => { m with reg8 := setCell m.reg8 a.toNat (v.setWidth 8) }
  | .word => { m with reg32 := setCell m.reg32 a.toNat v }

/-- The value a transaction of regime `r` can carry (20_memory.md R51). -/
def clip (r : Regime) (v : Word) : Word :=
  match r with
  | .byte => (v.setWidth 8).setWidth 32
  | .word => v

/-- What one event leaves in the register space: a successful write of the engine or of another agent. -/
def applyTxn (m : Memory) : Txn → Memory
  | .read _ _ _ => m
  | .readFailed _ _ _ => m
  | .write r a v => regSet m r a v
  | .writeFailed _ _ _ _ => m
  | .otherWrite r a v => regSet m r a v

/-! ## Other agents and reset -/

/-- Record an event. -/
def logTxn (t : Txn) (s : State) : State := { s with trace := s.trace ++ [t] }

/-- Record an event and let it act on the register space. -/
def doTxn (t : Txn) (s : State) : State := { s with trace := s.trace ++ [t], mem := applyTxn s.mem t }

/-- Another agent writes the register at `a` (20_memory.md R68), whichever regime `a` is in; where no register is
(10_state.md R32), nothing happens. -/
def otherWrite (a v : Word) (s : State) : State :=
  if registerExists s.cfg (regimeOf s.cfg a) a then
    doTxn (.otherWrite (regimeOf s.cfg a) a (clip (regimeOf s.cfg a) v)) s
  else s

/-- One act of the other agents. Under `EXCLUSIVE` no other agent writes a register of the running command
(20_memory.md R68; log 9). The lock is taken only from `Updated` (42_pll_start.md R214). -/
def envAct (s : State) : EnvAct → State
  | .write a v => if s.cfg.exclusive && s.w.touched.contains a then s else otherWrite a v s
  | .lock => if s.pllState = .updated then { s with pllState := .locked } else s

/-- Reset of the engine (10_state.md R38 to R41, 70_reset_and_hazards.md R260): a command it interrupts is abandoned
with no response; what its transactions did stays (log 10). -/
def resetEngine (req : Request) (s : State) : State :=
  { s with req := req, rsp0 := 0#32, rsp1 := 0#32, busy := false, pllState := .unconfigured, w := Work.idle }

/-! ## Parts of a command -/

/-- Run one part after another; an error, an abandonment or a fault ends both. -/
def Res.bind {α β : Type} (x : Res α) (f : α → State → Res β) : Res β :=
  match x with
  | .ok a s => f a s
  | .raise e s => .raise e s
  | .abandoned s => .abandoned s
  | .fault g => .fault g

/-- The draw of the next transaction. -/
def nextDraw (s : State) : Draw := s.draws.headD s.tail

/-- The state without the draw of the next transaction. -/
def dropDraw (s : State) : State := { s with draws := s.draws.tail }

/-- The state just before the next transaction: the other agents have acted. -/
def beforeTxn (s : State) : State := (nextDraw s).acts.foldl envAct (dropDraw s)

/-- The fault of issuing a transaction of regime `r` at `a` (20_memory.md R53, R54), if it is one. -/
def issueFault (r : Regime) (a : Word) (s : State) : Option Fault :=
  match r with
  | .byte => if inByteWindow s.cfg a then none else some (.crossRegime a s)
  | .word =>
    if inByteWindow s.cfg a then some (.crossRegime a s)
    else if a.toNat % 4 = 0 then none else some (.misaligned a s)

/-- Issue a transaction of regime `r` at `a`: the other agents act; a reset that arrives then abandons the command, whether
or not there is such a register (70_reset_and_hazards.md R260); else it is a fault where there is no such register
(60_exceptions.md R236 (5)); else the draw goes on to the transaction itself. -/
def issue (r : Regime) (a : Word) (s : State) : Res Draw :=
  match (nextDraw s).reset with
  | some req => .abandoned (resetEngine req (beforeTxn s))
  | none =>
    match issueFault r a (beforeTxn s) with
    | some f => .fault f
    | none => .ok (nextDraw s) (beforeTxn s)

/-- What a read of the register returns: a drawn value where the register is volatile, else its content
(20_memory.md R63). -/
def readValue (r : Regime) (a : Word) (d : Draw) (s : State) : Word :=
  if s.cfg.volatileAddrs.contains a then clip r d.fresh else regGet s.mem r a

/-- `MemRead(a, n)` (00_scope.md R12, 20_memory.md R63, R64), `n` the width of regime `r`. -/
def memRead (r : Regime) (a : Word) (s : State) : Res Word :=
  (issue r a s).bind fun d s =>
    if d.code = 0#32 then .ok (readValue r a d s) (logTxn (.read r a (readValue r a d s)) s)
    else .raise (.transportError d.code) (logTxn (.readFailed r a d.code) s)

/-- `MemWrite(a, n, v)` (00_scope.md R12, 20_memory.md R63, R64), `n` the width of regime `r`. -/
def memWrite (r : Regime) (a v : Word) (s : State) : Res Unit :=
  (issue r a s).bind fun d s =>
    if d.code = 0#32 then .ok () (doTxn (.write r a (clip r v)) s)
    else .raise (.transportError d.code) (logTxn (.writeFailed r a (clip r v) d.code) s)

/-! ## How a command begins and ends -/

/-- A command begins: `W` holds nothing yet (10_state.md R20) but the registers the command may touch (log 9). -/
def beginCommand (touched : List Word) (s : State) : State := { s with w := { Work.idle with touched := touched } }

/-- The engine writes the response, once, and is idle again (10_state.md R23, R24; 30_encoding.md R92;
70_reset_and_hazards.md R264). -/
def respond (rsp0 rsp1 : Word) (s : State) : State :=
  { s with rsp0 := rsp0, rsp1 := rsp1, busy := false, w := Work.idle }

/-- The reset that arrives just before the next response, if any (log 10). -/
def nextLate (s : State) : Option Request := s.lateResets.headD none

/-- The state without the next response's reset. -/
def dropLate (s : State) : State := { s with lateResets := s.lateResets.tail }

/-- A command that has nothing left to do ends: with its response, or, where a reset arrives just before the response,
abandoned, with none (70_reset_and_hazards.md R260). -/
def conclude (rsp0 rsp1 : Word) (s : State) : State :=
  match nextLate s with
  | some req => resetEngine req (dropLate s)
  | none => respond rsp0 rsp1 (dropLate s)

/-- TAKING AN ERROR, the one shared operation (60_exceptions.md R230, R231, R238): the command ends with the error's
status word and data word; nothing is saved, rolled back or vectored. There is no return from it (R239). -/
def raiseError (e : Err) (s : State) : State := conclude (statusWord e s.w.step) (errorData e) s

/-- The end of a command (00_scope.md R13). -/
def endCommand : Res Word → Host.Outcome State Fault Refusal
  | .ok v s => .next (conclude 0#32 v s)
  | .raise e s => .next (raiseError e s)
  | .abandoned s => .next s
  | .fault f => .fault f

/-- One command: under a configuration that is not well-formed it has no meaning (00_scope.md R7, log 18); else it
begins, runs and ends. -/
def command (touched : List Word) (body : State → Res Word) (s : State) : Host.Outcome State Fault Refusal :=
  if cfgWellFormed s.cfg then endCommand (body (beginCommand touched s)) else .refused .illFormedConfig

/-- A request that decodes to no instruction ends `INVALID_PARAM` with no transaction (30_encoding.md R87, R88). -/
def rejectRequest (why : Reason) (s : State) : Host.Outcome State Fault Refusal :=
  command [] (fun s => .raise (.invalidParam why) s) s

/-! ## The host -/

/-- The request registers with one of them written. -/
def setReq (r : Request) (n : Fin 4) (v : Word) : Request :=
  match n with
  | 0 => { r with req0 := v }
  | 1 => { r with req1 := v }
  | 2 => { r with req2 := v }
  | 3 => { r with req3 := v }

/-- One action of the host or its environment while the engine is idle (70_reset_and_hazards.md R263; 10_state.md R22,
R24, R25). -/
def hostAct (s : State) : HostAct → State
  | .setReq n v => { s with req := setReq s.req n v }
  | .start => { s with busy := true }
  | .bind b => { s with transportBound := b }
  | .env e => envAct s e
  | .reset req => resetEngine req s

/-- What happens while the engine is idle: the next pending action, or nothing (70_reset_and_hazards.md R261). -/
def idleStep (s : State) : State :=
  match s.host with
  | [] => s
  | act :: rest => hostAct { s with host := rest } act

end Sys2Proof.Machine
end

