-- ==== Sys2Proof/Machine/BitField.lean ====
section
/-! DEFINITION. The bit-field access engine and its two commands, BF_READ and BF_WRITE (40_bitfield.md R110 to R124,
R132). -/

namespace Sys2Proof.Machine

/-! ## The checks -/

/-- `NULL_PARAM` when no transport is attached (10_state.md R25; 60_exceptions.md R236 (3), R237 (3)). -/
def withTransport (body : State → Res Word) (s : State) : Res Word :=
  if s.transportBound then body s else .raise .nullParam s

/-- `BIT_COUNT` unless `1 ≤ bc ≤ 32` (40_bitfield.md R110; 60_exceptions.md R236 (4)). -/
def withBitCount (bc : Nat) (body : State → Res Word) (s : State) : Res Word :=
  if bc = 0 ∨ bc > 32 then .raise (.invalidParam .bitCount) s else body s

/-! ## Working-state updates -/

/-- `W.regime`. -/
def setRegime (r : Regime) (s : State) : State := { s with w := { s.w with regime := r } }

/-- `W.n` and `W.acc`, as a byte-regime access starts (40_bitfield.md R114, R119). -/
def startBytes (n : Nat) (s : State) : State := { s with w := { s.w with n := n, acc := 0#64 } }

/-- `W.acc`. -/
def setAcc (acc : BitVec 64) (s : State) : State := { s with w := { s.w with acc := acc } }

/-- `W.w0`. -/
def setW0 (v : Word) (s : State) : State := { s with w := { s.w with w0 := v } }

/-- `W.w1`. -/
def setW1 (v : Word) (s : State) : State := { s with w := { s.w with w1 := v } }

/-! ## Reading and writing a field -/

/-- `for i in i0 .. i0+k-1: acc <- acc | (zext_64(MemRead(a + i, 1)) << (8*i))`, ascending (40_bitfield.md R114,
R119). -/
def readBytes (a : Word) : (i k : Nat) → State → Res Unit
  | _, 0, s => .ok () s
  | i, k + 1, s =>
    (memRead .byte (addrAt a i) s).bind fun b s => readBytes a (i + 1) k (setAcc (accumulate s.w.acc i b) s)

/-- `for i in i0 .. i0+k-1: MemWrite(a + i, 1, acc[8*i+7 : 8*i])`, ascending (40_bitfield.md R119). -/
def writeBytes (a : Word) : (i k : Nat) → State → Res Unit
  | _, 0, s => .ok () s
  | i, k + 1, s => (memWrite .byte (addrAt a i) (accByte s.w.acc i) s).bind fun _ s => writeBytes a (i + 1) k s

/-- The byte-regime read (40_bitfield.md R114). -/
def readByteField (a : Word) (bs bc : Nat) (s : State) : Res Word :=
  (readBytes a 0 (regCount bs bc) (startBytes (regCount bs bc) s)).bind fun _ s => .ok (fieldOfAcc s.w.acc bs bc) s

/-- The non-spanning word read (40_bitfield.md R115). -/
def readWordField (a : Word) (bs bc : Nat) (s : State) : Res Word :=
  (memRead .word a s).bind fun w s => .ok (fieldOfWord w bs bc) (setW0 w s)

/-- The spanning word read (40_bitfield.md R116, R132). -/
def readSpanField (a : Word) (bs bc : Nat) (s : State) : Res Word :=
  (memRead .word a s).bind fun w0 s =>
    (memRead .word (addrAt a 4) (setW0 w0 s)).bind fun w1 s =>
      .ok (fieldOfSpan s.cfg.spanCombine w0 w1 bs bc) (setW1 w1 s)

/-- The read of a field by its regime (40_bitfield.md R113). -/
def readField (a : Word) (bs bc : Nat) (s : State) : Res Word :=
  match regimeOf s.cfg a with
  | .byte => readByteField a bs bc (setRegime .byte s)
  | .word =>
    if bs + bc ≤ 32 then readWordField a bs bc (setRegime .word s) else readSpanField a bs bc (setRegime .word s)

/-- The byte-regime read-modify-write: all reads, then all writes (40_bitfield.md R119). -/
def writeByteField (a : Word) (bs bc : Nat) (vm : Word) (s : State) : Res Unit :=
  (readBytes a 0 (regCount bs bc) (startBytes (regCount bs bc) s)).bind fun _ s =>
    writeBytes a 0 (regCount bs bc) (setAcc (accWithField s.w.acc bs bc vm) s)

/-- The non-spanning word read-modify-write (40_bitfield.md R121). -/
def writeWordField (a : Word) (bs bc : Nat) (vm : Word) (s : State) : Res Unit :=
  (memRead .word a s).bind fun w s => memWrite .word a (wordWithField w bs bc vm) (setW0 w s)

/-- The spanning word read-modify-write: read `a`, read `a + 4`, write `a`, write `a + 4` (40_bitfield.md R122). -/
def writeSpanField (a : Word) (bs bc : Nat) (vm : Word) (s : State) : Res Unit :=
  (memRead .word a s).bind fun w0 s =>
    (memRead .word (addrAt a 4) (setW0 w0 s)).bind fun w1 s =>
      (memWrite .word a (spanFirst w0 bs vm) (setW1 w1 s)).bind fun _ s =>
        memWrite .word (addrAt a 4) (spanSecond w1 bs bc vm) s

/-- The write of a field after the checks: mask the value (40_bitfield.md R123), then the fast path (R118, R120) or the
read-modify-write of the regime (R117). -/
def writeField (a : Word) (bs bc : Nat) (value : Word) (s : State) : Res Unit :=
  match regimeOf s.cfg a with
  | .byte =>
    if bs = 0 ∧ bc = 8 then memWrite .byte a (value &&& mask bc) (setRegime .byte s)
    else writeByteField a bs bc (value &&& mask bc) (setRegime .byte s)
  | .word =>
    if bs + bc ≤ 32 then
      if bs = 0 ∧ bc = 32 then memWrite .word a (value &&& mask bc) (setRegime .word s)
      else writeWordField a bs bc (value &&& mask bc) (setRegime .word s)
    else writeSpanField a bs bc (value &&& mask bc) (setRegime .word s)

/-! ## The commands -/

/-- A bit-field read as a whole command (40_bitfield.md R113, checks of 60_exceptions.md R236). -/
def readCommand (a : Word) (bs bc : Nat) (s : State) : Host.Outcome State Fault Refusal :=
  command (touchedBy s.cfg a bs bc) (withTransport (withBitCount bc (readField a bs bc))) s

/-- A bit-field write as a whole command (40_bitfield.md R117, checks of 60_exceptions.md R236). -/
def writeCommand (a : Word) (bs bc : Nat) (value : Word) (s : State) : Host.Outcome State Fault Refusal :=
  command (touchedBy s.cfg a bs bc)
    (withTransport (withBitCount bc fun s => (writeField a bs bc value s).bind fun _ s => .ok 0#32 s)) s

/-- BF_READ (40_bitfield.md R113). -/
def execBfRead (addr : Word) (bs : BitVec 5) (bc : BitVec 6) (s : State) : Host.Outcome State Fault Refusal :=
  readCommand addr bs.toNat bc.toNat s

/-- BF_WRITE (40_bitfield.md R117). -/
def execBfWrite (addr : Word) (bs : BitVec 5) (bc : BitVec 6) (value : Word) (s : State) :
    Host.Outcome State Fault Refusal :=
  writeCommand addr bs.toNat bc.toNat value s

end Sys2Proof.Machine
end

