-- ==== Sys2Proof/Machine/Binary64.lean ====
section
/-! DEFINITION. The binary64 operations of phase 2 (00_scope.md R11) on bit patterns, for the non-negative finite values
the solver has: round to nearest, ties to even (log 19). A value is `mant * 2^expo`. -/

namespace Sys2Proof.Machine

/-- The significand of a non-negative finite binary64, as an integer. -/
def f64Mant (x : Binary64) : Nat :=
  if x.toNat / 2 ^ 52 = 0 then x.toNat % 2 ^ 52 else 2 ^ 52 + x.toNat % 2 ^ 52

/-- Its exponent: the value is `f64Mant x * 2 ^ f64Expo x`. -/
def f64Expo (x : Binary64) : Int :=
  if x.toNat / 2 ^ 52 = 0 then -1074 else (x.toNat / 2 ^ 52 : Nat) - 1075

/-- `floor(log2(n / d))` for positive `n`, `d`. -/
def log2Ratio (n d : Nat) : Int :=
  let l : Int := (Nat.log2 n : Int) - (Nat.log2 d : Int)
  if d <<< l.toNat ≤ n <<< (-l).toNat then l else l - 1

/-- `n / d` rounded to the nearest integer, ties to even. -/
def divNearestEven (n d : Nat) : Nat :=
  if d < 2 * (n % d) ∨ (d = 2 * (n % d) ∧ (n / d) % 2 = 1) then n / d + 1 else n / d

/-- The exponent of the last significand bit of the binary64 nearest `(n / d) * 2^x`. -/
def f64Ulp (n d : Nat) (x : Int) : Int := max (log2Ratio n d + x - 52) (-1074)

/-- The binary64 nearest the exact value `(n / d) * 2^x`, ties to even; a value past the format's range is infinity
(never reached, 41_pll_solver.md R170). -/
def f64Round (n d : Nat) (x : Int) : Binary64 :=
  if n = 0 then 0#64
  else
    let q := f64Ulp n d x
    let m := divNearestEven (n <<< (x - q).toNat) (d <<< (q - x).toNat)
    BitVec.ofNat 64 (min ((q + 1074).toNat * 2 ^ 52 + m) (2047 * 2 ^ 52))

/-- `double(n)` (00_scope.md R11). -/
def f64OfNat (n : Nat) : Binary64 := f64Round n 1 0

/-- `a ⊘ b` for `b > 0`. -/
def f64Div (a b : Binary64) : Binary64 := f64Round (f64Mant a) (f64Mant b) (f64Expo a - f64Expo b)

/-- `a ⊗ b`. -/
def f64Mul (a b : Binary64) : Binary64 := f64Round (f64Mant a * f64Mant b) 1 (f64Expo a + f64Expo b)

/-- `a ⊖ b` for `a ≥ b` (the only case the solver has, 41_pll_solver.md R157). -/
def f64Sub (a b : Binary64) : Binary64 :=
  let e := min (f64Expo a) (f64Expo b)
  f64Round (f64Mant a <<< (f64Expo a - e).toNat - f64Mant b <<< (f64Expo b - e).toNat) 1 e

/-- `ffloor(x)` and, the same for `x ≥ 0`, `ftrunc(x)`. -/
def f64Floor (x : Binary64) : Nat := (f64Mant x <<< (f64Expo x).toNat) >>> (-f64Expo x).toNat

/-- `fround(x)`: the nearest integer, halves away from zero, on the exact value. -/
def f64RoundHalfUp (x : Binary64) : Nat :=
  (2 * f64Mant x <<< (f64Expo x).toNat + 1 <<< (-f64Expo x).toNat) >>> ((-f64Expo x).toNat + 1)

/-- `a < b`: the bit patterns of non-negative values stand in the order of the values. -/
def f64Lt (a b : Binary64) : Bool := decide (a.toNat < b.toNat)

/-- The binary64 nearest 0.1 (00_scope.md R11). -/
def f64Tenth : Binary64 := 0x3FB999999999999A#64

/-- The binary64 nearest 0.9 (00_scope.md R11). -/
def f64NineTenths : Binary64 := 0x3FECCCCCCCCCCCCD#64

end Sys2Proof.Machine
end

