-- ==== Sys2Proof/Machine/Solver.lean ====
section
/-! DEFINITION. The PLL configuration search `pll_solve` (41_pll_solver.md R150 to R168), in both arithmetic modes. -/

namespace Sys2Proof.Machine

/-! ## Bounds -/

/-- `MAX_PLL_DIV` (00_scope.md R6). -/
def maxPllDiv : Nat := 3072

/-- `ND_MAX` (00_scope.md R6). -/
def ndMax : Nat := 65535

/-- The prescalers `P_MIN .. P_MAX`, ascending (00_scope.md R6). -/
def prescalers : List Nat := [1, 2, 3, 4, 5, 6, 7]

/-- `OUT_SET(PROFILE)`, Hz (00_scope.md R6). -/
def outSet : Profile → List Nat
  | .full => [24576000, 49152000, 73728000, 98304000]
  | .reduced => [24576000]

/-- `in_ok(p)` (41_pll_solver.md R152). -/
def inOk (c : Cfg) (fin p : Nat) : Bool := decide (fin ≤ p * c.maxPllInput) && decide (p * c.minPllInput ≤ fin)

/-- `div_ok(m)` (41_pll_solver.md R152). -/
def divOk (m : Nat) : Bool := decide (1 < m) && decide (m ≤ maxPllDiv)

/-! ## Phase 1 -/

/-- The three conditions of a phase-1 acceptance at prescaler `p` (41_pll_solver.md R153, R154). -/
def phase1Accepts (c : Cfg) (fin fout p : Nat) : Bool :=
  decide (p * fout = fin * (fout * p / fin)) && inOk c fin p && divOk (fout * p / fin)

/-- Phase 1: the first prescaler that is accepted (41_pll_solver.md R153). -/
def phase1 (c : Cfg) (fin fout : Nat) : Option PllConfig :=
  (prescalers.find? (phase1Accepts c fin fout)).map fun p => ⟨.int, p, fout * p / fin, 0, 0⟩

/-! ## Phase 2: candidates -/

/-- What the classification of a prescaler gives (41_pll_solver.md R159 to R161): below the low threshold, above the
high one, or fractional with the unreduced numerator. -/
inductive FractClass where
  | low
  | high
  | frac (num : Nat)
deriving DecidableEq, Repr

/-- `mul` of a prescaler (41_pll_solver.md R157; R168 for `EXACT`). -/
def candMul (mode : FractMode) (fin fout : Nat) (ratio : Binary64) (p : Nat) : Nat :=
  match mode with
  | .binary64 => f64Floor (f64Mul ratio (f64OfNat p))
  | .exact => fout * p / fin

/-- `fract = rate ⊖ double(mul)` (41_pll_solver.md R157). -/
def candFract (ratio : Binary64) (p mul : Nat) : Binary64 := f64Sub (f64Mul ratio (f64OfNat p)) (f64OfNat mul)

/-- The class of a prescaler with multiplier `mul` (41_pll_solver.md R159 to R161; R168 for `EXACT`). -/
def classify (mode : FractMode) (fin fout : Nat) (ratio : Binary64) (p mul : Nat) : FractClass :=
  match mode with
  | .binary64 =>
    if f64Lt (candFract ratio p mul) f64Tenth then .low
    else if f64Lt f64NineTenths (candFract ratio p mul) then .high
    else .frac (f64Floor (f64Mul (f64OfNat (p * fin)) (candFract ratio p mul)))
  | .exact =>
    if 10 * (fout * p - mul * fin) < fin then .low
    else if 9 * fin < 10 * (fout * p - mul * fin) then .high
    else .frac (p * (fout * p - mul * fin))

/-- The numerator rescaled to the denominator 65535 (41_pll_solver.md R163; R168 for `EXACT`). -/
def rescaledNum (mode : FractMode) (num den : Nat) : Nat :=
  match mode with
  | .binary64 => f64RoundHalfUp (f64Mul (f64Div (f64OfNat ndMax) (f64OfNat den)) (f64OfNat num))
  | .exact => (2 * ndMax * num + den) / (2 * den)

/-- `num/den` reduced by their gcd and, if the denominator does not fit 16 bits, rescaled (41_pll_solver.md R162,
R163). -/
def reduceFraction (mode : FractMode) (num den : Nat) : Nat × Nat :=
  let g := Nat.gcd num den
  if ndMax < den / g then (rescaledNum mode (num / g) (den / g), ndMax) else (num / g, den / g)

/-- The candidate of a prescaler, if it has one (41_pll_solver.md R157 to R163). -/
def candidate (c : Cfg) (fin fout : Nat) (ratio : Binary64) (p : Nat) : Option PllConfig :=
  let mul := candMul c.fractMode fin fout ratio p
  if inOk c fin p && divOk mul then
    match classify c.fractMode fin fout ratio p mul with
    | .low => some ⟨.int, p, mul, 0, 0⟩
    | .high => if maxPllDiv < mul + 1 then none else some ⟨.int, p, mul + 1, 0, 0⟩
    | .frac num =>
      some ⟨.frac, p, mul, (reduceFraction c.fractMode num (p * fin)).1, (reduceFraction c.fractMode num (p * fin)).2⟩
  else none

/-! ## Phase 2: the best fit -/

/-- `term1` (41_pll_solver.md R164). -/
def term1 (fin : Nat) (k : PllConfig) : Nat := k.mul * fin / k.p

/-- `term2` (41_pll_solver.md R164; R168 for `EXACT`). -/
def term2 (mode : FractMode) (fin : Nat) (k : PllConfig) : Nat :=
  match k.type with
  | .int => 0
  | .frac =>
    match mode with
    | .binary64 =>
      f64Floor (f64Div (f64Mul (f64Div (f64OfNat k.num) (f64OfNat k.den)) (f64OfNat fin)) (f64OfNat k.p))
    | .exact => k.num * fin / (k.den * k.p)

/-- `|product - fout|` (41_pll_solver.md R164). -/
def freqError (mode : FractMode) (fin fout : Nat) (k : PllConfig) : Nat :=
  ((term1 fin k + term2 mode fin k : Nat) - fout : Int).natAbs

/-- Visit one prescaler: form its candidate and keep it if it is strictly better (41_pll_solver.md R155, R165). -/
def phase2Visit (c : Cfg) (fin fout : Nat) (w : Work) (p : Nat) : Work :=
  match candidate c fin fout w.ratio p with
  | none => { w with p := p, cand := none }
  | some k =>
    if freqError c.fractMode fin fout k < w.leastDiff then
      { w with p := p, cand := some k, best := some k, leastDiff := freqError c.fractMode fin fout k }
    else { w with p := p, cand := some k }

/-- Phase 2 starts: `least_diff <- fout`, `best <- none`, and, in `BINARY64`, `ratio` (41_pll_solver.md R155, R156). -/
def phase2Start (c : Cfg) (fin fout : Nat) (w : Work) : Work :=
  { w with
    best := none, leastDiff := fout,
    ratio := match c.fractMode with
      | .binary64 => f64Div (f64OfNat fout) (f64OfNat fin)
      | .exact => w.ratio }

/-- Phase 2: every prescaler is visited, ascending (41_pll_solver.md R155). -/
def phase2 (c : Cfg) (fin fout : Nat) (w : Work) : Work :=
  prescalers.foldl (phase2Visit c fin fout) (phase2Start c fin fout w)

/-! ## The search -/

/-- The search on the working state: phase 1, else phase 2 (41_pll_solver.md R167); the result stands in `W.best` and
`W.leastDiff` (R166). -/
def solveWork (c : Cfg) (fin fout : Nat) (w : Work) : Work :=
  match phase1 c fin fout with
  | some k => { w with p := k.p, cand := some k, best := some k, leastDiff := 0 }
  | none => phase2 c fin fout w

/-- `pll_solve(fin, fout)`: `none` is `NoConfig`, `some (cfg, least_diff)` is `Found` (41_pll_solver.md R150, R166). -/
def pllSolve (c : Cfg) (fin fout : Nat) : Option (PllConfig × Nat) :=
  let w := solveWork c fin fout Work.idle
  w.best.map fun k => (k, w.leastDiff)

end Sys2Proof.Machine
end

