-- ==== Sys2Proof/Machine/Pll.lean ====
section
/-! DEFINITION. PLL_START: the checks, the search, and the fourteen steps through the bit-field engine (42_pll_start.md
R200 to R215, 60_exceptions.md R237). -/

namespace Sys2Proof.Machine

/-- `F_MCLK_BYPASS(fout)` (42_pll_start.md R207; an `fout` the record does not list has no writes, log 12). -/
def bypassWrites (c : Cfg) (fout : Word) : List (Descriptor × Word) :=
  match c.mclkBypass.find? (fun entry => entry.1 == fout) with
  | some entry => entry.2
  | none => []

/-- The code written to `F_PLL_TYPE` (42_pll_start.md R200). -/
def typeCode (c : Cfg) (t : PllType) : Word :=
  match t with
  | .int => c.typeCodeInt
  | .frac => c.typeCodeFrac

/-- Step 1: the writes of `F_MCLK_BYPASS(fout)`, in list order (42_pll_start.md R206, R207). -/
def bypassSteps (c : Cfg) (fout : Word) : List (Fin 15 × Descriptor × Word) :=
  (bypassWrites c fout).map fun write => (1, write.1, write.2)

/-- Steps 2 to 14, one write each (42_pll_start.md R205, R208 to R211). -/
def fieldSteps (c : Cfg) (xm src sync : Byte) (k : PllConfig) : List (Fin 15 × Descriptor × Word) :=
  [(2, c.pllPwr, c.pllPwrOff),
   (3, c.xtalPwr, c.xtalPwrOn),
   (4, c.xtalMode, xm.setWidth 32),
   (5, c.pllSrc, src.setWidth 32),
   (6, c.pllType, typeCode c k.type),
   (7, c.syncSrc, sync.setWidth 32),
   (8, c.prescaler, BitVec.ofNat 32 k.p),
   (9, c.mult, BitVec.ofNat 32 k.mul),
   (10, c.num, BitVec.ofNat 32 k.num),
   (11, c.den, BitVec.ofNat 32 k.den),
   (12, c.pllPwr, c.pllPwrOn),
   (13, c.update, 1#32),
   (14, c.update, 0#32)]

/-- The whole sequence (42_pll_start.md R205). -/
def startupSteps (c : Cfg) (xm src sync : Byte) (fout : Word) (k : PllConfig) : List (Fin 15 × Descriptor × Word) :=
  bypassSteps c fout ++ fieldSteps c xm src sync k

/-- The registers a PLL_START may read or write (20_memory.md R68; log 9). -/
def pllTouched (c : Cfg) (fout : Word) : List Word :=
  (((bypassWrites c fout).map Prod.fst) ++ fieldDescriptors c).flatMap fun d => touchedBy c d.addr d.bs d.bc

/-- `step <- n` (10_state.md R26). -/
def setStep (n : Fin 15) (s : State) : State := { s with w := { s.w with step := n } }

/-- `PLL_STATE <- x` (42_pll_start.md R213). -/
def setPllState (x : PllState) (s : State) : State := { s with pllState := x }

/-- The working state after the search. -/
def setWork (w : Work) (s : State) : State := { s with w := w }

/-- `bfw(d, v)` (42_pll_start.md R201). -/
def bfw (d : Descriptor) (v : Word) (s : State) : Res Unit := writeField d.addr d.bs d.bc v s

/-- The sequencer: each step is set as it begins, then its write; the first failing transaction ends it
(42_pll_start.md R205, R206, R212). -/
def runSteps : List (Fin 15 × Descriptor × Word) → State → Res Unit
  | [], s => .ok () s
  | (n, d, v) :: rest, s => (bfw d v (setStep n s)).bind fun _ s => runSteps rest s

/-- The parameter checks before the search (42_pll_start.md R202, R203; 60_exceptions.md R237 (4), (5)). -/
def withFrequencies (fin fout : Word) (body : State → Res Word) (s : State) : Res Word :=
  if (outSet s.cfg.profile).contains fout.toNat then
    if fin = 0#32 then .raise (.invalidParam .inFreqZero) s else body s
  else .raise (.invalidParam .outFreq) s

/-- The search and the sequence (42_pll_start.md R200, R204, R213, R215). -/
def solveAndStart (xm src sync : Byte) (fin fout : Word) (s : State) : Res Word :=
  let w := solveWork s.cfg fin.toNat fout.toNat s.w
  match w.best with
  | none => .raise (.invalidParam .noConfig) (setWork w s)
  | some k =>
    (runSteps (startupSteps s.cfg xm src sync fout k) (setPllState .configuring (setWork w s))).bind fun _ s =>
      .ok 0#32 (setStep 0 (setPllState .updated s))

/-- PLL_START (42_pll_start.md R200). -/
def execPllStart (xm src sync : Byte) (fin fout : Word) (s : State) : Host.Outcome State Fault Refusal :=
  command (pllTouched s.cfg fout) (withTransport (withFrequencies fin fout (solveAndStart xm src sync fin fout))) s

end Sys2Proof.Machine
end

