-- ==== Sys2Proof/Machine/Pseudo.lean ====
section
/-! DEFINITION. The pseudo-instructions of 30_encoding.md R95: each acts as the command it expands to. -/

namespace Sys2Proof.Machine

/-- RD8 = `BF_READ addr, 0, 8` (30_encoding.md R95). -/
def execRd8 (addr : Word) (s : State) : Host.Outcome State Fault Refusal := readCommand addr 0 8 s

/-- RD32 = `BF_READ addr, 0, 32` (30_encoding.md R95). -/
def execRd32 (addr : Word) (s : State) : Host.Outcome State Fault Refusal := readCommand addr 0 32 s

/-- WR8 = `BF_WRITE addr, 0, 8, v` (30_encoding.md R95). -/
def execWr8 (addr value : Word) (s : State) : Host.Outcome State Fault Refusal := writeCommand addr 0 8 value s

/-- WR32 = `BF_WRITE addr, 0, 32, v` (30_encoding.md R95). -/
def execWr32 (addr value : Word) (s : State) : Host.Outcome State Fault Refusal := writeCommand addr 0 32 value s

/-- BSET = `BF_WRITE addr, bs, 1, 1` (30_encoding.md R95). -/
def execBset (addr : Word) (bs : BitVec 5) (s : State) : Host.Outcome State Fault Refusal :=
  writeCommand addr bs.toNat 1 1#32 s

/-- BCLR = `BF_WRITE addr, bs, 1, 0` (30_encoding.md R95). -/
def execBclr (addr : Word) (bs : BitVec 5) (s : State) : Host.Outcome State Fault Refusal :=
  writeCommand addr bs.toNat 1 0#32 s

end Sys2Proof.Machine
end

