-- ==== Sys2Proof/Machine/Dispatch.lean ====
section
/-! DEFINITION. The dispatch: one arm per constructor of Instr, each one call of that instruction's meaning. -/

namespace Sys2Proof.Machine

def exec (i : Instr) (s : State) : Host.Outcome State Fault Refusal :=
  match i with
  | .bfRead addr bs bc => Sys2Proof.Machine.execBfRead addr bs bc s
  | .bfWrite addr bs bc value => Sys2Proof.Machine.execBfWrite addr bs bc value s
  | .pllStart xm src sync fin fout => Sys2Proof.Machine.execPllStart xm src sync fin fout s
  | .rd8 addr => Sys2Proof.Machine.execRd8 addr s
  | .rd32 addr => Sys2Proof.Machine.execRd32 addr s
  | .wr8 addr value => Sys2Proof.Machine.execWr8 addr value s
  | .wr32 addr value => Sys2Proof.Machine.execWr32 addr value s
  | .bset addr bs => Sys2Proof.Machine.execBset addr bs s
  | .bclr addr bs => Sys2Proof.Machine.execBclr addr bs s

end Sys2Proof.Machine
end

