-- ==== Sys2Proof/Machine/Step.lean ====
section
/-! DEFINITION. One step of the machine (log 1): while `BUSY` the engine runs the command in the request registers to
its end; while idle the host's next pending action happens, or nothing. -/

namespace Sys2Proof.Machine

/-- The engine's run of the command in the request registers (30_encoding.md R87, R88; 60_exceptions.md R236, R237). -/
def runRequest (s : State) : Host.Outcome State Fault Refusal :=
  match decode s.req with
  | .instr i => exec i s
  | .illegalOp => rejectRequest .illegalOp s
  | .reservedBits => rejectRequest .reservedBits s

/-- One step (10_state.md R24; 70_reset_and_hazards.md R261, R263, R264). -/
def step (s : State) : Host.Outcome State Fault Refusal := if s.busy then runRequest s else .next (idleStep s)

/-- The state with the request whose bits are `w` in the request registers and started, so that the very next step runs
it (log 17): the engine takes its instruction from `REQ0..REQ3` when `BUSY` is 1. -/
def State.withFetchWord (s : State) (nbits w : Nat) : State := { s with req := tableRequest nbits w, busy := true }

end Sys2Proof.Machine
end

