-- ==== Sys2Proof/Safety.lean ====
section
/-! DEFINITION. The terms the statements use: what the free values are assumed to be, where a field's bits lie, which
registers exist, how many transactions a field access has, and what a safe state is. -/

namespace Sys2Proof.Machine

/-! ## Premises on the free values (log 7) -/

/-- The draw of the `k`-th coming transaction. -/
def drawAt (s : State) (k : Nat) : Draw := s.draws.getD k s.tail

/-- Nothing happens just before the transaction, and the transport performs it. -/
abbrev Draw.clean (d : Draw) : Prop := d.acts = [] ∧ d.reset = none ∧ d.code = 0#32

/-- Nothing happens just before the transaction (which may fail). -/
abbrev Draw.undisturbed (d : Draw) : Prop := d.acts = [] ∧ d.reset = none

/-- The next `n` transactions succeed, with nothing between them. -/
abbrev cleanFor (n : Nat) (s : State) : Prop := ∀ k, k < n → (drawAt s k).clean

/-- The next `n` transactions succeed and no reset arrives; other agents may act (`EXCLUSIVE` bounds what they do). -/
abbrev grantedFor (n : Nat) (s : State) : Prop := ∀ k, k < n → (drawAt s k).reset = none ∧ (drawAt s k).code = 0#32

/-- No reset arrives between the command's last transaction, if it has one, and its response (log 10). -/
abbrev answered (s : State) : Prop := nextLate s = none

/-- No other agent acts and no reset arrives at any coming transaction or response; any transaction may fail. -/
abbrev undisturbed (s : State) : Prop :=
  s.tail.undisturbed ∧ (∀ d ∈ s.draws, d.undisturbed) ∧ ∀ r ∈ s.lateResets, r = none

/-- No reset arrives at any coming transaction or response. -/
abbrev noResetComing (s : State) : Prop :=
  s.tail.reset = none ∧ (∀ d ∈ s.draws, d.reset = none) ∧ ∀ r ∈ s.lateResets, r = none

/-- `s`, but for the `k`-th coming transaction: no reset comes before it and the transport fails it (with code 1), where the
access can be issued at all. No draw is listed after it, so a run that leaves no draw has come to that transaction. -/
def failedAt (s : State) (k : Nat) : State :=
  { s with draws := (List.range k).map (drawAt s) ++ [{ drawAt s k with reset := none, code := 1#32 }] }

/-! ## The registers and bits of a field -/

/-- Every register a field's command touches exists in the regime of its start address (20_memory.md R53, R54). -/
abbrev fieldExists (c : Cfg) (a : Word) (bs bc : Nat) : Prop :=
  ∀ x ∈ touchedBy c a bs bc, registerExists c (regimeOf c a) x = true

/-- No register a field's command touches is volatile. -/
abbrev fieldStable (c : Cfg) (a : Word) (bs bc : Nat) : Prop := ∀ x ∈ touchedBy c a bs bc, x ∉ c.volatileAddrs

/-- The register and the bit in it where bit `j` of a field lies (20_memory.md R56, R57). -/
def bitPlace (c : Cfg) (a : Word) (bs j : Nat) : Word × Nat :=
  match regimeOf c a with
  | .byte => (addrAt a ((bs + j) / 8), (bs + j) % 8)
  | .word => if bs + j < 32 then (a, bs + j) else (addrAt a 4, bs + j - 32)

/-- Bit `j` of a field as the register space holds it (20_memory.md R56, R57). -/
def fieldBit (c : Cfg) (m : Memory) (a : Word) (bs j : Nat) : Bool :=
  (regGet m (regimeOf c a) (bitPlace c a bs j).1).getLsbD (bitPlace c a bs j).2

/-- Two fields have no bit in common. -/
abbrev fieldsDisjoint (c : Cfg) (d e : Descriptor) : Prop :=
  ∀ i, i < d.bc → ∀ j, j < e.bc →
    (regimeOf c d.addr, bitPlace c d.addr d.bs i) ≠ (regimeOf c e.addr, bitPlace c e.addr e.bs j)

/-- What the read of a register returns at the `j`-th coming transaction where nothing changes the register before it: the
drawn value of a volatile register, at the register's width, else its content (20_memory.md R63). -/
def returnedAt (s : State) (j : Nat) (r : Regime) (x : Word) : Word :=
  if x ∈ s.cfg.volatileAddrs then clip r (drawAt s j).fresh else regGet s.mem r x

/-! ## Transaction counts (40_bitfield.md R130) -/

/-- The transactions of a field read. -/
def readCount (c : Cfg) (a : Word) (bs bc : Nat) : Nat :=
  match regimeOf c a with
  | .byte => regCount bs bc
  | .word => if bs + bc ≤ 32 then 1 else 2

/-- The transactions of a field write. -/
def writeCount (c : Cfg) (a : Word) (bs bc : Nat) : Nat :=
  match regimeOf c a with
  | .byte => if bs = 0 ∧ bc = 8 then 1 else 2 * regCount bs bc
  | .word => if bs + bc ≤ 32 then (if bs = 0 ∧ bc = 32 then 1 else 2) else 4

/-- The transactions of a PLL_START sequence (42_pll_start.md R218). -/
def stepsCount (c : Cfg) (steps : List (Fin 15 × Descriptor × Word)) : Nat :=
  (steps.map fun x => writeCount c x.2.1.addr x.2.1.bs x.2.1.bc).sum

/-! ## The instructions by shape -/

/-- The field that an instruction of the reading shape reads: `(addr, bs, bc)`. -/
def readOperands : Instr → Option (Word × Nat × Nat)
  | .bfRead addr bs bc => some (addr, bs.toNat, bc.toNat)
  | .rd8 addr => some (addr, 0, 8)
  | .rd32 addr => some (addr, 0, 32)
  | .bfWrite _ _ _ _ => none
  | .pllStart _ _ _ _ _ => none
  | .wr8 _ _ => none
  | .wr32 _ _ => none
  | .bset _ _ => none
  | .bclr _ _ => none

/-- The field that an instruction of the writing shape writes, and the value: `(addr, bs, bc, value)`. -/
def writeOperands : Instr → Option (Word × Nat × Nat × Word)
  | .bfWrite addr bs bc value => some (addr, bs.toNat, bc.toNat, value)
  | .wr8 addr value => some (addr, 0, 8, value)
  | .wr32 addr value => some (addr, 0, 32, value)
  | .bset addr bs => some (addr, bs.toNat, 1, 1#32)
  | .bclr addr bs => some (addr, bs.toNat, 1, 0#32)
  | .bfRead _ _ _ => none
  | .pllStart _ _ _ _ _ => none
  | .rd8 _ => none
  | .rd32 _ => none

/-- The registers an instruction may read or write. -/
def instrTouches (c : Cfg) : Instr → List (Regime × Word)
  | .bfRead addr bs bc => (touchedBy c addr bs.toNat bc.toNat).map (regimeOf c addr, ·)
  | .bfWrite addr bs bc _ => (touchedBy c addr bs.toNat bc.toNat).map (regimeOf c addr, ·)
  | .pllStart _ _ _ _ fout =>
      (((bypassWrites c fout).map Prod.fst) ++ fieldDescriptors c).flatMap fun d =>
        (touchedBy c d.addr d.bs d.bc).map (regimeOf c d.addr, ·)
  | .rd8 addr => (touchedBy c addr 0 8).map (regimeOf c addr, ·)
  | .rd32 addr => (touchedBy c addr 0 32).map (regimeOf c addr, ·)
  | .wr8 addr _ => (touchedBy c addr 0 8).map (regimeOf c addr, ·)
  | .wr32 addr _ => (touchedBy c addr 0 32).map (regimeOf c addr, ·)
  | .bset addr bs => (touchedBy c addr bs.toNat 1).map (regimeOf c addr, ·)
  | .bclr addr bs => (touchedBy c addr bs.toNat 1).map (regimeOf c addr, ·)

/-! ## Events -/

/-- The event is a write of the engine. -/
def Txn.isEngineWrite : Txn → Bool
  | .read _ _ _ => false
  | .readFailed _ _ _ => false
  | .write _ _ _ => true
  | .writeFailed _ _ _ _ => true
  | .otherWrite _ _ _ => false

/-- The register an event is about. -/
def Txn.place : Txn → Regime × Word
  | .read r a _ => (r, a)
  | .readFailed r a _ => (r, a)
  | .write r a _ => (r, a)
  | .writeFailed r a _ _ => (r, a)
  | .otherWrite r a _ => (r, a)

/-- The event is a transaction of the engine. -/
def Txn.isEngine : Txn → Bool
  | .read _ _ _ => true
  | .readFailed _ _ _ => true
  | .write _ _ _ => true
  | .writeFailed _ _ _ _ => true
  | .otherWrite _ _ _ => false

/-! ## The transactions a command should issue -/

/-- The number that `n` byte registers from `a` hold, little-endian (20_memory.md R56). -/
def littleEndian (m : Memory) (a : Word) : Nat → Nat
  | 0 => 0
  | n + 1 => littleEndian m a n + (regGet m .byte (addrAt a n)).toNat * 256 ^ n

/-- The read transaction of a register that holds what `m` says. -/
def readTxn (m : Memory) (r : Regime) (a : Word) : Txn := .read r a (regGet m r a)

/-- The byte registers' reads, ascending (40_bitfield.md R114). -/
def byteReads (m : Memory) (a : Word) (n : Nat) : List Txn := (List.range n).map fun i => readTxn m .byte (addrAt a i)

/-- The transactions of a field read, in order (40_bitfield.md R114 to R116). -/
def readTxns (c : Cfg) (m : Memory) (a : Word) (bs bc : Nat) : List Txn :=
  match regimeOf c a with
  | .byte => byteReads m a (regCount bs bc)
  | .word =>
    if bs + bc ≤ 32 then [readTxn m .word a] else [readTxn m .word a, readTxn m .word (addrAt a 4)]

/-- Byte `i` of the number that the byte registers hold, with the field's bits replaced (40_bitfield.md R119). -/
def newByte (m : Memory) (a : Word) (bs bc : Nat) (value : Word) (i : Nat) : Word :=
  accByte (accWithField (BitVec.ofNat 64 (littleEndian m a (regCount bs bc))) bs bc (value &&& mask bc)) i

/-- The transactions of a field write, in order, each write with its value (40_bitfield.md R117 to R123). -/
def writeTxns (c : Cfg) (m : Memory) (a : Word) (bs bc : Nat) (value : Word) : List Txn :=
  match regimeOf c a with
  | .byte =>
    if bs = 0 ∧ bc = 8 then [.write .byte a (value &&& 0xFF#32)]
    else
      byteReads m a (regCount bs bc) ++
        (List.range (regCount bs bc)).map fun i => .write .byte (addrAt a i) (newByte m a bs bc value i)
  | .word =>
    if bs + bc ≤ 32 then
      if bs = 0 ∧ bc = 32 then [.write .word a value]
      else [readTxn m .word a, .write .word a (wordWithField (regGet m .word a) bs bc (value &&& mask bc))]
    else
      [readTxn m .word a, readTxn m .word (addrAt a 4),
       .write .word a (spanFirst (regGet m .word a) bs (value &&& mask bc)),
       .write .word (addrAt a 4) (spanSecond (regGet m .word (addrAt a 4)) bs bc (value &&& mask bc))]

/-- A transaction as it stands in the trace when it fails with `code` (20_memory.md R64). -/
def Txn.failed (code : Word) : Txn → Txn
  | .read r a _ => .readFailed r a code
  | .readFailed r a _ => .readFailed r a code
  | .write r a v => .writeFailed r a v code
  | .writeFailed r a v _ => .writeFailed r a v code
  | .otherWrite r a v => .otherWrite r a v

/-- What a list of events leaves in the register space. -/
def replay (evs : List Txn) (m : Memory) : Memory := evs.foldl applyTxn m

/-- The transactions of a sequence, in order, each with its step; every step sees what the steps before it left
(42_pll_start.md R205, R206, R218). -/
def stepsTxns (c : Cfg) (m : Memory) : List (Fin 15 × Descriptor × Word) → List (Fin 15 × Txn)
  | [] => []
  | (n, d, v) :: rest =>
    (writeTxns c m d.addr d.bs d.bc v).map (fun t => (n, t)) ++
      stepsTxns c (replay (writeTxns c m d.addr d.bs d.bc v) m) rest

/-! ## When a command executes normally -/

/-- The configuration is well-formed and a transport is attached (00_scope.md R7, 10_state.md R25). -/
abbrev engineReady (s : State) : Prop := cfgWellFormed s.cfg = true ∧ s.transportBound = true

/-- A field read passes its checks, every register it reads exists and is not volatile (60_exceptions.md R236). -/
abbrev readReady (s : State) (a : Word) (bs bc : Nat) : Prop :=
  engineReady s ∧ 1 ≤ bc ∧ bc ≤ 32 ∧ fieldExists s.cfg a bs bc ∧ fieldStable s.cfg a bs bc

/-- A field access passes its checks and every register it touches exists (60_exceptions.md R236). -/
abbrev accessReady (s : State) (a : Word) (bs bc : Nat) : Prop :=
  engineReady s ∧ 1 ≤ bc ∧ bc ≤ 32 ∧ fieldExists s.cfg a bs bc

/-- Every register an instruction touches exists. -/
abbrev instrExists (c : Cfg) (i : Instr) : Prop := ∀ x ∈ instrTouches c i, registerExists c x.1 x.2 = true

/-- A PLL_START passes its checks and its search finds `k` (60_exceptions.md R237). -/
abbrev pllReady (s : State) (fin fout : Word) (k : PllConfig) : Prop :=
  engineReady s ∧ (outSet s.cfg.profile).contains fout.toNat = true ∧ fin ≠ 0#32 ∧
  (pllSolve s.cfg fin.toNat fout.toNat).map Prod.fst = some k

/-- Every register that these steps of a sequence touch exists and is not volatile. -/
abbrev stepsReady (c : Cfg) (steps : List (Fin 15 × Descriptor × Word)) : Prop :=
  ∀ x ∈ steps, fieldExists c x.2.1.addr x.2.1.bs x.2.1.bc ∧ fieldStable c x.2.1.addr x.2.1.bs x.2.1.bc

/-- No register of a PLL_START's sequence is volatile. -/
abbrev pllStable (c : Cfg) (fout : Word) : Prop := ∀ x ∈ pllTouched c fout, x ∉ c.volatileAddrs

/-! ## How a command stops short -/

/-- The state a fault carries: the one at the point the transaction would have been issued. -/
def Fault.stopped : Fault → State
  | .crossRegime _ u => u
  | .misaligned _ u => u

/-- `t` is the engine as a reset with the request `req` leaves it, where it was `s` before the command (10_state.md R38, R40,
R41; 70_reset_and_hazards.md R260): idle, with no response; the configuration and the transport are kept. -/
abbrev abandonedBy (req : Request) (s t : State) : Prop :=
  t.rsp0 = 0#32 ∧ t.rsp1 = 0#32 ∧ t.busy = false ∧ t.w = Work.idle ∧ t.pllState = .unconfigured ∧ t.req = req ∧
  t.cfg = s.cfg ∧ t.transportBound = s.transportBound

/-! ## Values of binary64 patterns -/

/-- A non-negative finite binary64. -/
abbrev f64Finite (x : Binary64) : Prop := x.toNat < 2047 * 2 ^ 52

/-- The number a non-negative finite binary64 stands for. -/
def f64Value (x : Binary64) : ℚ := (f64Mant x : ℚ) * (2 : ℚ) ^ f64Expo x

/-- `y` is finite, no finite value is nearer to `q`, and where another is as near, `y` is the one whose significand is even
(00_scope.md R11). -/
def nearestEven (y : Binary64) (q : ℚ) : Prop :=
  f64Finite y ∧ ∀ z : Binary64, f64Finite z →
    |f64Value y - q| ≤ |f64Value z - q| ∧
    (z ≠ y → |f64Value y - q| = |f64Value z - q| → f64Mant y % 2 = 0)

/-! ## Safe states -/

/-- A status word the engine can have written (30_encoding.md R90): the reserved bits are 0, `REASON` is 1 to 6 for
`INVALID_PARAM` and 0 otherwise, `STEP` is at most 14 and 0 unless the kind is `TRANSPORT_ERR`. -/
abbrev statusLegal (v : Word) : Prop :=
  v.extractLsb' 16 16 = 0#16 ∧ v.extractLsb' 2 2 = 0#2 ∧
  (v.extractLsb' 0 2 = 2#2 → 1 ≤ (v.extractLsb' 4 4).toNat ∧ (v.extractLsb' 4 4).toNat ≤ 6) ∧
  (v.extractLsb' 0 2 ≠ 2#2 → v.extractLsb' 4 4 = 0#4) ∧
  (v.extractLsb' 8 8).toNat ≤ 14 ∧
  (v.extractLsb' 0 2 ≠ 3#2 → v.extractLsb' 8 8 = 0#8)

/-- A response the engine can have written (30_encoding.md R90, R91): the status word is legal, and the data word is
nonzero for `TRANSPORT_ERR` and 0 for the other errors. -/
abbrev responseLegal (s : State) : Prop :=
  statusLegal s.rsp0 ∧
  (s.rsp0.extractLsb' 0 2 = 3#2 → s.rsp1 ≠ 0#32) ∧
  (s.rsp0.extractLsb' 0 2 = 1#2 → s.rsp1 = 0#32) ∧
  (s.rsp0.extractLsb' 0 2 = 2#2 → s.rsp1 = 0#32)

/-- The invariant of the machine between its steps: the register space is canonical and lists only registers that exist
(10_state.md R30 to R32), `W` holds nothing (R20), and the response is one the engine can have written. -/
abbrev State.Inv (s : State) : Prop :=
  s.mem.wf ∧ s.mem.onMap s.cfg ∧ s.w = Work.idle ∧ responseLegal s

end Sys2Proof.Machine
end

