-- ==== Sys2Proof/Laws/State.lean ====
section
/-! SUPPORT. One lemma per field per state update, each true by unfolding, so that no later proof unfolds an update. -/

namespace Sys2Proof.Machine

section updates

@[simp] theorem logTxn_req (t : Txn) (s : State) : (logTxn t s).req = s.req := rfl
@[simp] theorem logTxn_rsp0 (t : Txn) (s : State) : (logTxn t s).rsp0 = s.rsp0 := rfl
@[simp] theorem logTxn_rsp1 (t : Txn) (s : State) : (logTxn t s).rsp1 = s.rsp1 := rfl
@[simp] theorem logTxn_busy (t : Txn) (s : State) : (logTxn t s).busy = s.busy := rfl
@[simp] theorem logTxn_transportBound (t : Txn) (s : State) : (logTxn t s).transportBound = s.transportBound := rfl
@[simp] theorem logTxn_cfg (t : Txn) (s : State) : (logTxn t s).cfg = s.cfg := rfl
@[simp] theorem logTxn_mem (t : Txn) (s : State) : (logTxn t s).mem = s.mem := rfl
@[simp] theorem logTxn_pllState (t : Txn) (s : State) : (logTxn t s).pllState = s.pllState := rfl
@[simp] theorem logTxn_w (t : Txn) (s : State) : (logTxn t s).w = s.w := rfl
@[simp] theorem logTxn_trace (t : Txn) (s : State) : (logTxn t s).trace = s.trace ++ [t] := rfl
@[simp] theorem logTxn_draws (t : Txn) (s : State) : (logTxn t s).draws = s.draws := rfl
@[simp] theorem logTxn_tail (t : Txn) (s : State) : (logTxn t s).tail = s.tail := rfl
@[simp] theorem logTxn_lateResets (t : Txn) (s : State) : (logTxn t s).lateResets = s.lateResets := rfl
@[simp] theorem logTxn_host (t : Txn) (s : State) : (logTxn t s).host = s.host := rfl

@[simp] theorem doTxn_req (t : Txn) (s : State) : (doTxn t s).req = s.req := rfl
@[simp] theorem doTxn_rsp0 (t : Txn) (s : State) : (doTxn t s).rsp0 = s.rsp0 := rfl
@[simp] theorem doTxn_rsp1 (t : Txn) (s : State) : (doTxn t s).rsp1 = s.rsp1 := rfl
@[simp] theorem doTxn_busy (t : Txn) (s : State) : (doTxn t s).busy = s.busy := rfl
@[simp] theorem doTxn_transportBound (t : Txn) (s : State) : (doTxn t s).transportBound = s.transportBound := rfl
@[simp] theorem doTxn_cfg (t : Txn) (s : State) : (doTxn t s).cfg = s.cfg := rfl
@[simp] theorem doTxn_mem (t : Txn) (s : State) : (doTxn t s).mem = applyTxn s.mem t := rfl
@[simp] theorem doTxn_pllState (t : Txn) (s : State) : (doTxn t s).pllState = s.pllState := rfl
@[simp] theorem doTxn_w (t : Txn) (s : State) : (doTxn t s).w = s.w := rfl
@[simp] theorem doTxn_trace (t : Txn) (s : State) : (doTxn t s).trace = s.trace ++ [t] := rfl
@[simp] theorem doTxn_draws (t : Txn) (s : State) : (doTxn t s).draws = s.draws := rfl
@[simp] theorem doTxn_tail (t : Txn) (s : State) : (doTxn t s).tail = s.tail := rfl
@[simp] theorem doTxn_lateResets (t : Txn) (s : State) : (doTxn t s).lateResets = s.lateResets := rfl
@[simp] theorem doTxn_host (t : Txn) (s : State) : (doTxn t s).host = s.host := rfl

@[simp] theorem dropDraw_req (s : State) : (dropDraw s).req = s.req := rfl
@[simp] theorem dropDraw_rsp0 (s : State) : (dropDraw s).rsp0 = s.rsp0 := rfl
@[simp] theorem dropDraw_rsp1 (s : State) : (dropDraw s).rsp1 = s.rsp1 := rfl
@[simp] theorem dropDraw_busy (s : State) : (dropDraw s).busy = s.busy := rfl
@[simp] theorem dropDraw_transportBound (s : State) : (dropDraw s).transportBound = s.transportBound := rfl
@[simp] theorem dropDraw_cfg (s : State) : (dropDraw s).cfg = s.cfg := rfl
@[simp] theorem dropDraw_mem (s : State) : (dropDraw s).mem = s.mem := rfl
@[simp] theorem dropDraw_pllState (s : State) : (dropDraw s).pllState = s.pllState := rfl
@[simp] theorem dropDraw_w (s : State) : (dropDraw s).w = s.w := rfl
@[simp] theorem dropDraw_trace (s : State) : (dropDraw s).trace = s.trace := rfl
@[simp] theorem dropDraw_draws (s : State) : (dropDraw s).draws = s.draws.tail := rfl
@[simp] theorem dropDraw_tail (s : State) : (dropDraw s).tail = s.tail := rfl
@[simp] theorem dropDraw_lateResets (s : State) : (dropDraw s).lateResets = s.lateResets := rfl
@[simp] theorem dropDraw_host (s : State) : (dropDraw s).host = s.host := rfl

@[simp] theorem resetEngine_req (r : Request) (s : State) : (resetEngine r s).req = r := rfl
@[simp] theorem resetEngine_rsp0 (r : Request) (s : State) : (resetEngine r s).rsp0 = 0#32 := rfl
@[simp] theorem resetEngine_rsp1 (r : Request) (s : State) : (resetEngine r s).rsp1 = 0#32 := rfl
@[simp] theorem resetEngine_busy (r : Request) (s : State) : (resetEngine r s).busy = false := rfl
@[simp] theorem resetEngine_transportBound (r : Request) (s : State) : (resetEngine r s).transportBound = s.transportBound := rfl
@[simp] theorem resetEngine_cfg (r : Request) (s : State) : (resetEngine r s).cfg = s.cfg := rfl
@[simp] theorem resetEngine_mem (r : Request) (s : State) : (resetEngine r s).mem = s.mem := rfl
@[simp] theorem resetEngine_pllState (r : Request) (s : State) : (resetEngine r s).pllState = .unconfigured := rfl
@[simp] theorem resetEngine_w (r : Request) (s : State) : (resetEngine r s).w = Work.idle := rfl
@[simp] theorem resetEngine_trace (r : Request) (s : State) : (resetEngine r s).trace = s.trace := rfl
@[simp] theorem resetEngine_draws (r : Request) (s : State) : (resetEngine r s).draws = s.draws := rfl
@[simp] theorem resetEngine_tail (r : Request) (s : State) : (resetEngine r s).tail = s.tail := rfl
@[simp] theorem resetEngine_lateResets (r : Request) (s : State) : (resetEngine r s).lateResets = s.lateResets := rfl
@[simp] theorem resetEngine_host (r : Request) (s : State) : (resetEngine r s).host = s.host := rfl

@[simp] theorem setRegime_req (r : Regime) (s : State) : (setRegime r s).req = s.req := rfl
@[simp] theorem setRegime_rsp0 (r : Regime) (s : State) : (setRegime r s).rsp0 = s.rsp0 := rfl
@[simp] theorem setRegime_rsp1 (r : Regime) (s : State) : (setRegime r s).rsp1 = s.rsp1 := rfl
@[simp] theorem setRegime_busy (r : Regime) (s : State) : (setRegime r s).busy = s.busy := rfl
@[simp] theorem setRegime_transportBound (r : Regime) (s : State) : (setRegime r s).transportBound = s.transportBound := rfl
@[simp] theorem setRegime_cfg (r : Regime) (s : State) : (setRegime r s).cfg = s.cfg := rfl
@[simp] theorem setRegime_mem (r : Regime) (s : State) : (setRegime r s).mem = s.mem := rfl
@[simp] theorem setRegime_pllState (r : Regime) (s : State) : (setRegime r s).pllState = s.pllState := rfl
@[simp] theorem setRegime_w (r : Regime) (s : State) : (setRegime r s).w = { s.w with regime := r } := rfl
@[simp] theorem setRegime_trace (r : Regime) (s : State) : (setRegime r s).trace = s.trace := rfl
@[simp] theorem setRegime_draws (r : Regime) (s : State) : (setRegime r s).draws = s.draws := rfl
@[simp] theorem setRegime_tail (r : Regime) (s : State) : (setRegime r s).tail = s.tail := rfl
@[simp] theorem setRegime_lateResets (r : Regime) (s : State) : (setRegime r s).lateResets = s.lateResets := rfl
@[simp] theorem setRegime_host (r : Regime) (s : State) : (setRegime r s).host = s.host := rfl

@[simp] theorem startBytes_req (n : Nat) (s : State) : (startBytes n s).req = s.req := rfl
@[simp] theorem startBytes_rsp0 (n : Nat) (s : State) : (startBytes n s).rsp0 = s.rsp0 := rfl
@[simp] theorem startBytes_rsp1 (n : Nat) (s : State) : (startBytes n s).rsp1 = s.rsp1 := rfl
@[simp] theorem startBytes_busy (n : Nat) (s : State) : (startBytes n s).busy = s.busy := rfl
@[simp] theorem startBytes_transportBound (n : Nat) (s : State) : (startBytes n s).transportBound = s.transportBound := rfl
@[simp] theorem startBytes_cfg (n : Nat) (s : State) : (startBytes n s).cfg = s.cfg := rfl
@[simp] theorem startBytes_mem (n : Nat) (s : State) : (startBytes n s).mem = s.mem := rfl
@[simp] theorem startBytes_pllState (n : Nat) (s : State) : (startBytes n s).pllState = s.pllState := rfl
@[simp] theorem startBytes_w (n : Nat) (s : State) : (startBytes n s).w = { s.w with n := n, acc := 0#64 } := rfl
@[simp] theorem startBytes_trace (n : Nat) (s : State) : (startBytes n s).trace = s.trace := rfl
@[simp] theorem startBytes_draws (n : Nat) (s : State) : (startBytes n s).draws = s.draws := rfl
@[simp] theorem startBytes_tail (n : Nat) (s : State) : (startBytes n s).tail = s.tail := rfl
@[simp] theorem startBytes_lateResets (n : Nat) (s : State) : (startBytes n s).lateResets = s.lateResets := rfl
@[simp] theorem startBytes_host (n : Nat) (s : State) : (startBytes n s).host = s.host := rfl

@[simp] theorem setAcc_req (v : BitVec 64) (s : State) : (setAcc v s).req = s.req := rfl
@[simp] theorem setAcc_rsp0 (v : BitVec 64) (s : State) : (setAcc v s).rsp0 = s.rsp0 := rfl
@[simp] theorem setAcc_rsp1 (v : BitVec 64) (s : State) : (setAcc v s).rsp1 = s.rsp1 := rfl
@[simp] theorem setAcc_busy (v : BitVec 64) (s : State) : (setAcc v s).busy = s.busy := rfl
@[simp] theorem setAcc_transportBound (v : BitVec 64) (s : State) : (setAcc v s).transportBound = s.transportBound := rfl
@[simp] theorem setAcc_cfg (v : BitVec 64) (s : State) : (setAcc v s).cfg = s.cfg := rfl
@[simp] theorem setAcc_mem (v : BitVec 64) (s : State) : (setAcc v s).mem = s.mem := rfl
@[simp] theorem setAcc_pllState (v : BitVec 64) (s : State) : (setAcc v s).pllState = s.pllState := rfl
@[simp] theorem setAcc_w (v : BitVec 64) (s : State) : (setAcc v s).w = { s.w with acc := v } := rfl
@[simp] theorem setAcc_trace (v : BitVec 64) (s : State) : (setAcc v s).trace = s.trace := rfl
@[simp] theorem setAcc_draws (v : BitVec 64) (s : State) : (setAcc v s).draws = s.draws := rfl
@[simp] theorem setAcc_tail (v : BitVec 64) (s : State) : (setAcc v s).tail = s.tail := rfl
@[simp] theorem setAcc_lateResets (v : BitVec 64) (s : State) : (setAcc v s).lateResets = s.lateResets := rfl
@[simp] theorem setAcc_host (v : BitVec 64) (s : State) : (setAcc v s).host = s.host := rfl

@[simp] theorem setW0_req (v : Word) (s : State) : (setW0 v s).req = s.req := rfl
@[simp] theorem setW0_rsp0 (v : Word) (s : State) : (setW0 v s).rsp0 = s.rsp0 := rfl
@[simp] theorem setW0_rsp1 (v : Word) (s : State) : (setW0 v s).rsp1 = s.rsp1 := rfl
@[simp] theorem setW0_busy (v : Word) (s : State) : (setW0 v s).busy = s.busy := rfl
@[simp] theorem setW0_transportBound (v : Word) (s : State) : (setW0 v s).transportBound = s.transportBound := rfl
@[simp] theorem setW0_cfg (v : Word) (s : State) : (setW0 v s).cfg = s.cfg := rfl
@[simp] theorem setW0_mem (v : Word) (s : State) : (setW0 v s).mem = s.mem := rfl
@[simp] theorem setW0_pllState (v : Word) (s : State) : (setW0 v s).pllState = s.pllState := rfl
@[simp] theorem setW0_w (v : Word) (s : State) : (setW0 v s).w = { s.w with w0 := v } := rfl
@[simp] theorem setW0_trace (v : Word) (s : State) : (setW0 v s).trace = s.trace := rfl
@[simp] theorem setW0_draws (v : Word) (s : State) : (setW0 v s).draws = s.draws := rfl
@[simp] theorem setW0_tail (v : Word) (s : State) : (setW0 v s).tail = s.tail := rfl
@[simp] theorem setW0_lateResets (v : Word) (s : State) : (setW0 v s).lateResets = s.lateResets := rfl
@[simp] theorem setW0_host (v : Word) (s : State) : (setW0 v s).host = s.host := rfl

@[simp] theorem setW1_req (v : Word) (s : State) : (setW1 v s).req = s.req := rfl
@[simp] theorem setW1_rsp0 (v : Word) (s : State) : (setW1 v s).rsp0 = s.rsp0 := rfl
@[simp] theorem setW1_rsp1 (v : Word) (s : State) : (setW1 v s).rsp1 = s.rsp1 := rfl
@[simp] theorem setW1_busy (v : Word) (s : State) : (setW1 v s).busy = s.busy := rfl
@[simp] theorem setW1_transportBound (v : Word) (s : State) : (setW1 v s).transportBound = s.transportBound := rfl
@[simp] theorem setW1_cfg (v : Word) (s : State) : (setW1 v s).cfg = s.cfg := rfl
@[simp] theorem setW1_mem (v : Word) (s : State) : (setW1 v s).mem = s.mem := rfl
@[simp] theorem setW1_pllState (v : Word) (s : State) : (setW1 v s).pllState = s.pllState := rfl
@[simp] theorem setW1_w (v : Word) (s : State) : (setW1 v s).w = { s.w with w1 := v } := rfl
@[simp] theorem setW1_trace (v : Word) (s : State) : (setW1 v s).trace = s.trace := rfl
@[simp] theorem setW1_draws (v : Word) (s : State) : (setW1 v s).draws = s.draws := rfl
@[simp] theorem setW1_tail (v : Word) (s : State) : (setW1 v s).tail = s.tail := rfl
@[simp] theorem setW1_lateResets (v : Word) (s : State) : (setW1 v s).lateResets = s.lateResets := rfl
@[simp] theorem setW1_host (v : Word) (s : State) : (setW1 v s).host = s.host := rfl

@[simp] theorem setStep_req (n : Fin 15) (s : State) : (setStep n s).req = s.req := rfl
@[simp] theorem setStep_rsp0 (n : Fin 15) (s : State) : (setStep n s).rsp0 = s.rsp0 := rfl
@[simp] theorem setStep_rsp1 (n : Fin 15) (s : State) : (setStep n s).rsp1 = s.rsp1 := rfl
@[simp] theorem setStep_busy (n : Fin 15) (s : State) : (setStep n s).busy = s.busy := rfl
@[simp] theorem setStep_transportBound (n : Fin 15) (s : State) : (setStep n s).transportBound = s.transportBound := rfl
@[simp] theorem setStep_cfg (n : Fin 15) (s : State) : (setStep n s).cfg = s.cfg := rfl
@[simp] theorem setStep_mem (n : Fin 15) (s : State) : (setStep n s).mem = s.mem := rfl
@[simp] theorem setStep_pllState (n : Fin 15) (s : State) : (setStep n s).pllState = s.pllState := rfl
@[simp] theorem setStep_w (n : Fin 15) (s : State) : (setStep n s).w = { s.w with step := n } := rfl
@[simp] theorem setStep_trace (n : Fin 15) (s : State) : (setStep n s).trace = s.trace := rfl
@[simp] theorem setStep_draws (n : Fin 15) (s : State) : (setStep n s).draws = s.draws := rfl
@[simp] theorem setStep_tail (n : Fin 15) (s : State) : (setStep n s).tail = s.tail := rfl
@[simp] theorem setStep_lateResets (n : Fin 15) (s : State) : (setStep n s).lateResets = s.lateResets := rfl
@[simp] theorem setStep_host (n : Fin 15) (s : State) : (setStep n s).host = s.host := rfl

@[simp] theorem setPllState_req (x : PllState) (s : State) : (setPllState x s).req = s.req := rfl
@[simp] theorem setPllState_rsp0 (x : PllState) (s : State) : (setPllState x s).rsp0 = s.rsp0 := rfl
@[simp] theorem setPllState_rsp1 (x : PllState) (s : State) : (setPllState x s).rsp1 = s.rsp1 := rfl
@[simp] theorem setPllState_busy (x : PllState) (s : State) : (setPllState x s).busy = s.busy := rfl
@[simp] theorem setPllState_transportBound (x : PllState) (s : State) : (setPllState x s).transportBound = s.transportBound := rfl
@[simp] theorem setPllState_cfg (x : PllState) (s : State) : (setPllState x s).cfg = s.cfg := rfl
@[simp] theorem setPllState_mem (x : PllState) (s : State) : (setPllState x s).mem = s.mem := rfl
@[simp] theorem setPllState_pllState (x : PllState) (s : State) : (setPllState x s).pllState = x := rfl
@[simp] theorem setPllState_w (x : PllState) (s : State) : (setPllState x s).w = s.w := rfl
@[simp] theorem setPllState_trace (x : PllState) (s : State) : (setPllState x s).trace = s.trace := rfl
@[simp] theorem setPllState_draws (x : PllState) (s : State) : (setPllState x s).draws = s.draws := rfl
@[simp] theorem setPllState_tail (x : PllState) (s : State) : (setPllState x s).tail = s.tail := rfl
@[simp] theorem setPllState_lateResets (x : PllState) (s : State) : (setPllState x s).lateResets = s.lateResets := rfl
@[simp] theorem setPllState_host (x : PllState) (s : State) : (setPllState x s).host = s.host := rfl

@[simp] theorem setWork_req (w : Work) (s : State) : (setWork w s).req = s.req := rfl
@[simp] theorem setWork_rsp0 (w : Work) (s : State) : (setWork w s).rsp0 = s.rsp0 := rfl
@[simp] theorem setWork_rsp1 (w : Work) (s : State) : (setWork w s).rsp1 = s.rsp1 := rfl
@[simp] theorem setWork_busy (w : Work) (s : State) : (setWork w s).busy = s.busy := rfl
@[simp] theorem setWork_transportBound (w : Work) (s : State) : (setWork w s).transportBound = s.transportBound := rfl
@[simp] theorem setWork_cfg (w : Work) (s : State) : (setWork w s).cfg = s.cfg := rfl
@[simp] theorem setWork_mem (w : Work) (s : State) : (setWork w s).mem = s.mem := rfl
@[simp] theorem setWork_pllState (w : Work) (s : State) : (setWork w s).pllState = s.pllState := rfl
@[simp] theorem setWork_w (w : Work) (s : State) : (setWork w s).w = w := rfl
@[simp] theorem setWork_trace (w : Work) (s : State) : (setWork w s).trace = s.trace := rfl
@[simp] theorem setWork_draws (w : Work) (s : State) : (setWork w s).draws = s.draws := rfl
@[simp] theorem setWork_tail (w : Work) (s : State) : (setWork w s).tail = s.tail := rfl
@[simp] theorem setWork_lateResets (w : Work) (s : State) : (setWork w s).lateResets = s.lateResets := rfl
@[simp] theorem setWork_host (w : Work) (s : State) : (setWork w s).host = s.host := rfl

@[simp] theorem beginCommand_req (l : List Word) (s : State) : (beginCommand l s).req = s.req := rfl
@[simp] theorem beginCommand_rsp0 (l : List Word) (s : State) : (beginCommand l s).rsp0 = s.rsp0 := rfl
@[simp] theorem beginCommand_rsp1 (l : List Word) (s : State) : (beginCommand l s).rsp1 = s.rsp1 := rfl
@[simp] theorem beginCommand_busy (l : List Word) (s : State) : (beginCommand l s).busy = s.busy := rfl
@[simp] theorem beginCommand_transportBound (l : List Word) (s : State) : (beginCommand l s).transportBound = s.transportBound := rfl
@[simp] theorem beginCommand_cfg (l : List Word) (s : State) : (beginCommand l s).cfg = s.cfg := rfl
@[simp] theorem beginCommand_mem (l : List Word) (s : State) : (beginCommand l s).mem = s.mem := rfl
@[simp] theorem beginCommand_pllState (l : List Word) (s : State) : (beginCommand l s).pllState = s.pllState := rfl
@[simp] theorem beginCommand_w (l : List Word) (s : State) : (beginCommand l s).w = { Work.idle with touched := l } := rfl
@[simp] theorem beginCommand_trace (l : List Word) (s : State) : (beginCommand l s).trace = s.trace := rfl
@[simp] theorem beginCommand_draws (l : List Word) (s : State) : (beginCommand l s).draws = s.draws := rfl
@[simp] theorem beginCommand_tail (l : List Word) (s : State) : (beginCommand l s).tail = s.tail := rfl
@[simp] theorem beginCommand_lateResets (l : List Word) (s : State) : (beginCommand l s).lateResets = s.lateResets := rfl
@[simp] theorem beginCommand_host (l : List Word) (s : State) : (beginCommand l s).host = s.host := rfl

@[simp] theorem respond_req (a b : Word) (s : State) : (respond a b s).req = s.req := rfl
@[simp] theorem respond_rsp0 (a b : Word) (s : State) : (respond a b s).rsp0 = a := rfl
@[simp] theorem respond_rsp1 (a b : Word) (s : State) : (respond a b s).rsp1 = b := rfl
@[simp] theorem respond_busy (a b : Word) (s : State) : (respond a b s).busy = false := rfl
@[simp] theorem respond_transportBound (a b : Word) (s : State) : (respond a b s).transportBound = s.transportBound := rfl
@[simp] theorem respond_cfg (a b : Word) (s : State) : (respond a b s).cfg = s.cfg := rfl
@[simp] theorem respond_mem (a b : Word) (s : State) : (respond a b s).mem = s.mem := rfl
@[simp] theorem respond_pllState (a b : Word) (s : State) : (respond a b s).pllState = s.pllState := rfl
@[simp] theorem respond_w (a b : Word) (s : State) : (respond a b s).w = Work.idle := rfl
@[simp] theorem respond_trace (a b : Word) (s : State) : (respond a b s).trace = s.trace := rfl
@[simp] theorem respond_draws (a b : Word) (s : State) : (respond a b s).draws = s.draws := rfl
@[simp] theorem respond_tail (a b : Word) (s : State) : (respond a b s).tail = s.tail := rfl
@[simp] theorem respond_lateResets (a b : Word) (s : State) : (respond a b s).lateResets = s.lateResets := rfl
@[simp] theorem respond_host (a b : Word) (s : State) : (respond a b s).host = s.host := rfl

@[simp] theorem dropLate_req (s : State) : (dropLate s).req = s.req := rfl
@[simp] theorem dropLate_rsp0 (s : State) : (dropLate s).rsp0 = s.rsp0 := rfl
@[simp] theorem dropLate_rsp1 (s : State) : (dropLate s).rsp1 = s.rsp1 := rfl
@[simp] theorem dropLate_busy (s : State) : (dropLate s).busy = s.busy := rfl
@[simp] theorem dropLate_transportBound (s : State) : (dropLate s).transportBound = s.transportBound := rfl
@[simp] theorem dropLate_cfg (s : State) : (dropLate s).cfg = s.cfg := rfl
@[simp] theorem dropLate_mem (s : State) : (dropLate s).mem = s.mem := rfl
@[simp] theorem dropLate_pllState (s : State) : (dropLate s).pllState = s.pllState := rfl
@[simp] theorem dropLate_w (s : State) : (dropLate s).w = s.w := rfl
@[simp] theorem dropLate_trace (s : State) : (dropLate s).trace = s.trace := rfl
@[simp] theorem dropLate_draws (s : State) : (dropLate s).draws = s.draws := rfl
@[simp] theorem dropLate_tail (s : State) : (dropLate s).tail = s.tail := rfl
@[simp] theorem dropLate_host (s : State) : (dropLate s).host = s.host := rfl
@[simp] theorem dropLate_lateResets (s : State) : (dropLate s).lateResets = s.lateResets.tail := rfl

/-- A command's end, where no reset comes before its response. -/
theorem conclude_answered {s : State} (h : nextLate s = none) (a b : Word) : conclude a b s = respond a b (dropLate s) := by
  simp [conclude, h]

/-- A command's end, where a reset comes before its response. -/
theorem conclude_late {s : State} {req : Request} (h : nextLate s = some req) (a b : Word) :
    conclude a b s = resetEngine req (dropLate s) := by simp [conclude, h]

/-- All that the end of a command can do. -/
theorem conclude_cases (a b : Word) (s : State) :
    (nextLate s = none ∧ conclude a b s = respond a b (dropLate s)) ∨
    ∃ req, nextLate s = some req ∧ conclude a b s = resetEngine req (dropLate s) := by
  cases h : nextLate s with
  | none => exact .inl ⟨rfl, conclude_answered h a b⟩
  | some req => exact .inr ⟨req, rfl, conclude_late h a b⟩

@[simp] theorem conclude_transportBound (a b : Word) (s : State) : (conclude a b s).transportBound = s.transportBound := by
  rcases conclude_cases a b s with ⟨_, h⟩ | ⟨_, _, h⟩ <;> simp [h]
@[simp] theorem conclude_cfg (a b : Word) (s : State) : (conclude a b s).cfg = s.cfg := by
  rcases conclude_cases a b s with ⟨_, h⟩ | ⟨_, _, h⟩ <;> simp [h]
@[simp] theorem conclude_mem (a b : Word) (s : State) : (conclude a b s).mem = s.mem := by
  rcases conclude_cases a b s with ⟨_, h⟩ | ⟨_, _, h⟩ <;> simp [h]
@[simp] theorem conclude_trace (a b : Word) (s : State) : (conclude a b s).trace = s.trace := by
  rcases conclude_cases a b s with ⟨_, h⟩ | ⟨_, _, h⟩ <;> simp [h]
@[simp] theorem conclude_draws (a b : Word) (s : State) : (conclude a b s).draws = s.draws := by
  rcases conclude_cases a b s with ⟨_, h⟩ | ⟨_, _, h⟩ <;> simp [h]
@[simp] theorem conclude_tail (a b : Word) (s : State) : (conclude a b s).tail = s.tail := by
  rcases conclude_cases a b s with ⟨_, h⟩ | ⟨_, _, h⟩ <;> simp [h]
@[simp] theorem conclude_host (a b : Word) (s : State) : (conclude a b s).host = s.host := by
  rcases conclude_cases a b s with ⟨_, h⟩ | ⟨_, _, h⟩ <;> simp [h]
@[simp] theorem conclude_busy (a b : Word) (s : State) : (conclude a b s).busy = false := by
  rcases conclude_cases a b s with ⟨_, h⟩ | ⟨_, _, h⟩ <;> simp [h]
@[simp] theorem conclude_w (a b : Word) (s : State) : (conclude a b s).w = Work.idle := by
  rcases conclude_cases a b s with ⟨_, h⟩ | ⟨_, _, h⟩ <;> simp [h]
@[simp] theorem conclude_lateResets (a b : Word) (s : State) : (conclude a b s).lateResets = s.lateResets.tail := by
  rcases conclude_cases a b s with ⟨_, h⟩ | ⟨_, _, h⟩ <;> simp [h]

end updates

end Sys2Proof.Machine
end

