-- ==== Sys2Proof/Laws/Memory.lean ====
section
/-! SUPPORT. The register space: read after write, the canonical form, and the address map. -/

namespace Sys2Proof.Machine

variable {n : Nat}

/-! ## One list -/

theorem getCell_setCell_same (l : List (Nat × BitVec n)) (a : Nat) (v : BitVec n)
    (h : l.Pairwise fun c d => c.1 < d.1) : getCell (setCell l a v) a = v := by
  induction l with
  | nil => by_cases hv : v = unlisted n <;> simp [setCell, getCell, hv]
  | cons c rest ih =>
    obtain ⟨b, x⟩ := c
    have hrest := (List.pairwise_cons.mp h).2
    have hlow := (List.pairwise_cons.mp h).1
    have absent : ∀ l' : List (Nat × BitVec n), (∀ d ∈ l', a < d.1) → getCell l' a = unlisted n := by
      intro l'
      induction l' with
      | nil => intro _; rfl
      | cons d t iht =>
        intro hd
        have h1 : a ≠ d.1 := Nat.ne_of_lt (hd d (by simp))
        simp [getCell, h1, iht fun e he => hd e (by simp [he])]
    rcases Nat.lt_trichotomy a b with hab | hab | hab
    · by_cases hv : v = unlisted n
      · simp only [setCell, if_pos hab, if_pos hv]
        rw [hv]
        apply absent
        intro d hd
        rcases List.mem_cons.mp hd with rfl | hd
        · exact hab
        · exact Nat.lt_trans hab (hlow d hd)
      · simp [setCell, getCell, hab, hv]
    · subst hab
      by_cases hv : v = unlisted n
      · simp only [setCell, if_neg (Nat.lt_irrefl a), if_pos hv, if_true]
        rw [hv]
        exact absent rest hlow
      · simp [setCell, getCell, hv]
    · have h1 : ¬ a < b := by omega
      have h2 : a ≠ b := by omega
      simp [setCell, getCell, h1, h2, ih hrest]

theorem getCell_setCell_other (l : List (Nat × BitVec n)) (a c : Nat) (v : BitVec n) (hne : c ≠ a) :
    getCell (setCell l a v) c = getCell l c := by
  induction l with
  | nil => by_cases hv : v = unlisted n <;> simp [setCell, getCell, hv, hne]
  | cons d rest ih =>
    obtain ⟨b, x⟩ := d
    unfold setCell
    split
    · split <;> simp [getCell, hne]
    · split
      · next h => subst h; split <;> simp [getCell, hne]
      · simp [getCell, ih]

theorem mem_setCell {l : List (Nat × BitVec n)} {a : Nat} {v : BitVec n} {c : Nat × BitVec n}
    (h : c ∈ setCell l a v) : c = (a, v) ∧ v ≠ unlisted n ∨ c ∈ l := by
  induction l with
  | nil =>
    unfold setCell at h
    split at h
    · simp at h
    · exact .inl ⟨by simpa using h, by assumption⟩
  | cons d rest ih =>
    obtain ⟨b, x⟩ := d
    unfold setCell at h
    split at h
    · split at h
      · exact .inr h
      · rcases List.mem_cons.mp h with h | h
        · exact .inl ⟨h, by assumption⟩
        · exact .inr h
    · split at h
      · split at h
        · exact .inr (List.mem_cons_of_mem _ h)
        · rcases List.mem_cons.mp h with h | h
          · exact .inl ⟨h, by assumption⟩
          · exact .inr (List.mem_cons_of_mem _ h)
      · rcases List.mem_cons.mp h with h | h
        · exact .inr (by simp [h])
        · rcases ih h with h | h
          · exact .inl h
          · exact .inr (List.mem_cons_of_mem _ h)

/-- A write keeps the canonical form of a list. -/
theorem setCell_wf {l : List (Nat × BitVec n)} (h : cellsWf l) (a : Nat) (v : BitVec n) : cellsWf (setCell l a v) := by
  refine ⟨?_, ?_⟩
  · have hp := h.1
    clear h
    induction l with
    | nil => unfold setCell; split <;> simp
    | cons d rest ih =>
      obtain ⟨b, x⟩ := d
      have hlow := (List.pairwise_cons.mp hp).1
      have hrest := (List.pairwise_cons.mp hp).2
      unfold setCell
      split
      · next hab =>
        split
        · exact hp
        · refine List.pairwise_cons.mpr ⟨?_, hp⟩
          intro d hd
          rcases List.mem_cons.mp hd with rfl | hd
          · exact hab
          · exact Nat.lt_trans hab (hlow d hd)
      · next hab =>
        split
        · next heq =>
          subst heq
          split
          · exact hrest
          · exact List.pairwise_cons.mpr ⟨hlow, hrest⟩
        · next hne =>
          refine List.pairwise_cons.mpr ⟨?_, ih hrest⟩
          intro d hd
          rcases mem_setCell hd with ⟨rfl, _⟩ | hd
          · simp only; omega
          · exact hlow d hd
  · intro c hc
    rcases mem_setCell hc with ⟨rfl, hv⟩ | hc
    · exact hv
    · exact h.2 c hc

/-! ## The register space -/

/-- Every memory operation keeps the canonical form. -/
theorem regSet_wf {m : Memory} (h : m.wf) (r : Regime) (a v : Word) : (regSet m r a v).wf := by
  cases r
  · exact ⟨setCell_wf h.1 _ _, h.2⟩
  · exact ⟨h.1, setCell_wf h.2 _ _⟩

theorem applyTxn_wf {m : Memory} (h : m.wf) (t : Txn) : (applyTxn m t).wf := by
  cases t with
  | read _ _ _ => exact h
  | readFailed _ _ _ => exact h
  | write r a v => exact regSet_wf h r a v
  | writeFailed _ _ _ _ => exact h
  | otherWrite r a v => exact regSet_wf h r a v

/-- Memory at reset is canonical. -/
theorem reset_mem_wf : State.reset.mem.wf := by decide

/-- A write of an existing register keeps the address map. -/
theorem regSet_onMap {c : Cfg} {m : Memory} (h : m.onMap c) {r : Regime} {a : Word} (v : Word)
    (hx : registerExists c r a = true) : (regSet m r a v).onMap c := by
  have ha : a.toNat < 2 ^ 32 := a.isLt
  have hofNat : BitVec.ofNat 32 a.toNat = a := by simp
  cases r
  · refine ⟨fun x hx' => ?_, h.2⟩
    rcases mem_setCell hx' with ⟨rfl, _⟩ | hx'
    · exact ⟨ha, by simpa [hofNat] using hx⟩
    · exact h.1 x hx'
  · refine ⟨h.1, fun x hx' => ?_⟩
    rcases mem_setCell hx' with ⟨rfl, _⟩ | hx'
    · exact ⟨ha, by simpa [hofNat] using hx⟩
    · exact h.2 x hx'

/-- Reading the register just written. -/
theorem regGet_regSet_same {m : Memory} (h : m.wf) (r : Regime) (a v : Word) :
    regGet (regSet m r a v) r a = clip r v := by
  cases r
  · simp [regGet, regSet, clip, getCell_setCell_same _ _ _ h.1.1]
  · simp [regGet, regSet, clip, getCell_setCell_same _ _ _ h.2.1]

/-- Every other register reads as before. -/
theorem regGet_regSet_other (m : Memory) (r q : Regime) (a b v : Word) (hne : (q, b) ≠ (r, a)) :
    regGet (regSet m r a v) q b = regGet m q b := by
  have hab : q = r → b.toNat ≠ a.toNat := by
    intro hq hb
    exact hne (by rw [hq, BitVec.eq_of_toNat_eq hb])
  cases r <;> cases q <;> simp_all [regGet, regSet, getCell_setCell_other]

@[simp] theorem clip_clip (r : Regime) (v : Word) : clip r (clip r v) = clip r v := by
  cases r <;> simp [clip]

@[simp] theorem clip_word (v : Word) : clip .word v = v := rfl

theorem clip_regGet (m : Memory) (r : Regime) (a : Word) : clip r (regGet m r a) = regGet m r a := by
  cases r <;> simp [clip, regGet]

end Sys2Proof.Machine
end

