-- ==== Sys2Proof/Laws/Txn.lean ====
section
/-! SUPPORT. One transaction: what the other agents can do before it, what it can do itself, and what it does when its
draw is clean. `Res.post` and `Closed` say once what every part of a command keeps. -/

namespace Sys2Proof.Machine

/-! ## Other agents -/

section env

variable (s : State) (e : EnvAct)

theorem otherWrite_cases (a v : Word) (s : State) :
    otherWrite a v s = s ∨
    (registerExists s.cfg (regimeOf s.cfg a) a = true ∧
      otherWrite a v s = doTxn (.otherWrite (regimeOf s.cfg a) a (clip (regimeOf s.cfg a) v)) s) := by
  unfold otherWrite
  split
  · exact .inr ⟨by assumption, rfl⟩
  · exact .inl rfl

/-- All that an act of another agent can do: nothing, one write of an existing register, or the lock. -/
theorem envAct_cases :
    envAct s e = s ∨
    (∃ r a v, registerExists s.cfg r a = true ∧ envAct s e = doTxn (.otherWrite r a (clip r v)) s ∧
      (s.cfg.exclusive = true → a ∉ s.w.touched)) ∨
    (s.pllState = .updated ∧ envAct s e = setPllState .locked s) := by
  cases e with
  | write a v =>
    simp only [envAct]
    split
    · exact .inl rfl
    · next h =>
      rcases otherWrite_cases a v s with h1 | ⟨h1, h2⟩
      · exact .inl h1
      · refine .inr (.inl ⟨_, a, v, h1, h2, fun hx => ?_⟩)
        simpa [hx] using h
  | lock =>
    simp only [envAct]
    split
    · exact .inr (.inr ⟨by assumption, rfl⟩)
    · exact .inl rfl

@[simp] theorem envAct_req : (envAct s e).req = s.req := by
  rcases envAct_cases s e with h | ⟨_, _, _, _, h, _⟩ | ⟨_, h⟩ <;> simp [h]
@[simp] theorem envAct_rsp0 : (envAct s e).rsp0 = s.rsp0 := by
  rcases envAct_cases s e with h | ⟨_, _, _, _, h, _⟩ | ⟨_, h⟩ <;> simp [h]
@[simp] theorem envAct_rsp1 : (envAct s e).rsp1 = s.rsp1 := by
  rcases envAct_cases s e with h | ⟨_, _, _, _, h, _⟩ | ⟨_, h⟩ <;> simp [h]
@[simp] theorem envAct_busy : (envAct s e).busy = s.busy := by
  rcases envAct_cases s e with h | ⟨_, _, _, _, h, _⟩ | ⟨_, h⟩ <;> simp [h]
@[simp] theorem envAct_transportBound : (envAct s e).transportBound = s.transportBound := by
  rcases envAct_cases s e with h | ⟨_, _, _, _, h, _⟩ | ⟨_, h⟩ <;> simp [h]
@[simp] theorem envAct_cfg : (envAct s e).cfg = s.cfg := by
  rcases envAct_cases s e with h | ⟨_, _, _, _, h, _⟩ | ⟨_, h⟩ <;> simp [h]
@[simp] theorem envAct_w : (envAct s e).w = s.w := by
  rcases envAct_cases s e with h | ⟨_, _, _, _, h, _⟩ | ⟨_, h⟩ <;> simp [h]
@[simp] theorem envAct_draws : (envAct s e).draws = s.draws := by
  rcases envAct_cases s e with h | ⟨_, _, _, _, h, _⟩ | ⟨_, h⟩ <;> simp [h]
@[simp] theorem envAct_tail : (envAct s e).tail = s.tail := by
  rcases envAct_cases s e with h | ⟨_, _, _, _, h, _⟩ | ⟨_, h⟩ <;> simp [h]
@[simp] theorem envAct_lateResets : (envAct s e).lateResets = s.lateResets := by
  rcases envAct_cases s e with h | ⟨_, _, _, _, h, _⟩ | ⟨_, h⟩ <;> simp [h]
@[simp] theorem envAct_host : (envAct s e).host = s.host := by
  rcases envAct_cases s e with h | ⟨_, _, _, _, h, _⟩ | ⟨_, h⟩ <;> simp [h]

end env

/-- What every act of the other agents keeps, all of them together keep. -/
theorem foldl_envAct {P : State → Prop} (hP : ∀ s e, P s → P (envAct s e)) (acts : List EnvAct) (s : State) (h : P s) :
    P (acts.foldl envAct s) := by
  induction acts generalizing s with
  | nil => exact h
  | cons e rest ih => exact ih _ (hP s e h)

section before

variable (s : State)

@[simp] theorem beforeTxn_req : (beforeTxn s).req = s.req :=
  foldl_envAct (P := fun t => t.req = s.req) (fun t e h => by simpa using h) _ _ rfl
@[simp] theorem beforeTxn_rsp0 : (beforeTxn s).rsp0 = s.rsp0 :=
  foldl_envAct (P := fun t => t.rsp0 = s.rsp0) (fun t e h => by simpa using h) _ _ rfl
@[simp] theorem beforeTxn_rsp1 : (beforeTxn s).rsp1 = s.rsp1 :=
  foldl_envAct (P := fun t => t.rsp1 = s.rsp1) (fun t e h => by simpa using h) _ _ rfl
@[simp] theorem beforeTxn_busy : (beforeTxn s).busy = s.busy :=
  foldl_envAct (P := fun t => t.busy = s.busy) (fun t e h => by simpa using h) _ _ rfl
@[simp] theorem beforeTxn_transportBound : (beforeTxn s).transportBound = s.transportBound :=
  foldl_envAct (P := fun t => t.transportBound = s.transportBound) (fun t e h => by simpa using h) _ _ rfl
@[simp] theorem beforeTxn_cfg : (beforeTxn s).cfg = s.cfg :=
  foldl_envAct (P := fun t => t.cfg = s.cfg) (fun t e h => by simpa using h) _ _ rfl
@[simp] theorem beforeTxn_w : (beforeTxn s).w = s.w :=
  foldl_envAct (P := fun t => t.w = s.w) (fun t e h => by simpa using h) _ _ rfl
@[simp] theorem beforeTxn_draws : (beforeTxn s).draws = s.draws.tail :=
  foldl_envAct (P := fun t => t.draws = s.draws.tail) (fun t e h => by simpa using h) _ _ rfl
@[simp] theorem beforeTxn_tail : (beforeTxn s).tail = s.tail :=
  foldl_envAct (P := fun t => t.tail = s.tail) (fun t e h => by simpa using h) _ _ rfl
@[simp] theorem beforeTxn_lateResets : (beforeTxn s).lateResets = s.lateResets :=
  foldl_envAct (P := fun t => t.lateResets = s.lateResets) (fun t e h => by simpa using h) _ _ rfl
@[simp] theorem beforeTxn_host : (beforeTxn s).host = s.host :=
  foldl_envAct (P := fun t => t.host = s.host) (fun t e h => by simpa using h) _ _ rfl

/-- Where no other agent acts, only the draw is used up. -/
theorem beforeTxn_of_no_acts (h : (nextDraw s).acts = []) : beforeTxn s = dropDraw s := by
  simp [beforeTxn, h]

end before

/-! ## Draws -/

theorem drawAt_zero (s : State) : drawAt s 0 = nextDraw s := by
  cases h : s.draws <;> simp [drawAt, nextDraw, h]

/-- Where the draws of `t` are those of `s` less the first, so is each draw. -/
theorem drawAt_of_tail {s t : State} (h : t.draws = s.draws.tail) (ht : t.tail = s.tail) (k : Nat) :
    drawAt t k = drawAt s (k + 1) := by
  cases hs : s.draws <;> simp [drawAt, h, ht, hs]

theorem drawAt_congr {s t : State} (h : t.draws = s.draws) (ht : t.tail = s.tail) (k : Nat) :
    drawAt t k = drawAt s k := by simp [drawAt, h, ht]

theorem cleanFor_mono {m n : Nat} {s : State} (h : cleanFor n s) (hmn : m ≤ n) : cleanFor m s :=
  fun k hk => h k (by omega)

theorem cleanFor_next {n : Nat} {s : State} (h : cleanFor (n + 1) s) : (nextDraw s).clean := by
  have := h 0 (by omega)
  rwa [drawAt_zero] at this

theorem cleanFor_of_tail {n : Nat} {s t : State} (h : cleanFor (n + 1) s) (hd : t.draws = s.draws.tail)
    (ht : t.tail = s.tail) : cleanFor n t := by
  intro k hk
  rw [drawAt_of_tail hd ht]
  exact h (k + 1) (by omega)

theorem cleanFor_congr {n : Nat} {s t : State} (h : cleanFor n s) (hd : t.draws = s.draws) (ht : t.tail = s.tail) :
    cleanFor n t := by
  intro k hk
  rw [drawAt_congr hd ht]
  exact h k hk

theorem undisturbed_next {s : State} (h : undisturbed s) : (nextDraw s).undisturbed := by
  cases hs : s.draws with
  | nil => simpa [nextDraw, hs] using h.1
  | cons d rest => simpa [nextDraw, hs] using h.2.1 d (by simp [hs])

theorem undisturbed_of_tail {s t : State} (h : undisturbed s) (hd : t.draws = s.draws.tail) (ht : t.tail = s.tail)
    (hl : t.lateResets = s.lateResets) : undisturbed t :=
  ⟨by rw [ht]; exact h.1, fun d hm => h.2.1 d (List.mem_of_mem_tail (by rwa [← hd])), by rw [hl]; exact h.2.2⟩

/-! ## Issue -/

theorem issueFault_none {r : Regime} {a : Word} {s : State} :
    issueFault r a s = none ↔ registerExists s.cfg r a = true := by
  cases r
  · simp only [issueFault, registerExists]
    split <;> simp_all
  · simp only [issueFault, registerExists]
    split
    · simp_all
    · split <;> simp_all

/-- All that issuing a transaction can do. -/
theorem issue_cases (r : Regime) (a : Word) (s : State) :
    (∃ f, (nextDraw s).reset = none ∧ issueFault r a (beforeTxn s) = some f ∧ issue r a s = .fault f) ∨
    (∃ req, (nextDraw s).reset = some req ∧ issue r a s = .abandoned (resetEngine req (beforeTxn s))) ∨
    (registerExists s.cfg r a = true ∧ (nextDraw s).reset = none ∧ issue r a s = .ok (nextDraw s) (beforeTxn s)) := by
  unfold issue
  cases hr : (nextDraw s).reset with
  | some req => exact .inr (.inl ⟨req, rfl, rfl⟩)
  | none =>
    cases hf : issueFault r a (beforeTxn s) with
    | some f => exact .inl ⟨f, rfl, rfl, rfl⟩
    | none => exact .inr (.inr ⟨by simpa using issueFault_none.mp hf, rfl, rfl⟩)

/-- A transaction that no reset precedes is issued where the register exists. -/
theorem issue_exists {r : Regime} {a : Word} {s : State} (hx : registerExists s.cfg r a = true)
    (hr : (nextDraw s).reset = none) : issue r a s = .ok (nextDraw s) (beforeTxn s) := by
  have hf : issueFault r a (beforeTxn s) = none := issueFault_none.mpr (by simpa using hx)
  simp [issue, hr, hf]

/-! ## What every part of a command keeps -/

/-- An error the engine can raise: a transport's code is nonzero (20_memory.md R64). -/
def Err.legal : Err → Prop
  | .nullParam => True
  | .invalidParam _ => True
  | .transportError code => code ≠ 0#32

/-- Wherever this part of a command ends, it ends in a state with `P` (a reset comes at a transaction issued in such a
state). -/
def Res.post {α : Type} (x : Res α) (P : State → Prop) : Prop :=
  match x with
  | .ok _ s => P s
  | .raise e s => P s ∧ e.legal
  | .abandoned s => ∃ req s0, P s0 ∧ (nextDraw s0).reset = some req ∧ s = resetEngine req (beforeTxn s0)
  | .fault _ => True

theorem Res.post_bind {α β : Type} {x : Res α} {f : α → State → Res β} {P : State → Prop} (hx : x.post P)
    (hf : ∀ a s, P s → (f a s).post P) : (x.bind f).post P := by
  cases x with
  | ok a s => exact hf a s hx
  | raise e s => exact hx
  | abandoned s => exact hx
  | fault g => trivial

/-- `P` is kept by everything a transaction can do, the engine reading only registers that `B` allows and writing only
registers that `A` allows, and by every change of the working state. -/
structure Closed (B A : Regime → Word → Prop) (P : State → Prop) : Prop where
  before : ∀ s, P s → P (beforeTxn s)
  read : ∀ s r a v, B r a → registerExists s.cfg r a = true → P s → P (logTxn (.read r a v) s)
  readFailed : ∀ s r a code, B r a → registerExists s.cfg r a = true → P s → P (logTxn (.readFailed r a code) s)
  write : ∀ s r a v, A r a → registerExists s.cfg r a = true → P s → P (doTxn (.write r a (clip r v)) s)
  writeFailed : ∀ s r a v code, A r a → registerExists s.cfg r a = true → P s →
    P (logTxn (.writeFailed r a (clip r v) code) s)
  work : ∀ s w, P s → P (setWork w s)

section post

variable {B A : Regime → Word → Prop} {P : State → Prop}

theorem memRead_post (hC : Closed B A P) {r : Regime} {a : Word} (hB : B r a) {s : State} (h : P s) :
    (memRead r a s).post P := by
  unfold memRead
  rcases issue_cases r a s with ⟨f, _, _, hi⟩ | ⟨req, hr, hi⟩ | ⟨hx, _, hi⟩
  · simp [hi, Res.bind, Res.post]
  · rw [hi]
    exact ⟨req, s, h, hr, rfl⟩
  · rw [hi]
    simp only [Res.bind]
    split
    · exact hC.read _ _ _ _ hB (by simpa using hx) (hC.before s h)
    · exact ⟨hC.readFailed _ _ _ _ hB (by simpa using hx) (hC.before s h), by assumption⟩

theorem memWrite_post (hC : Closed B A P) {r : Regime} {a : Word} (v : Word) (hA : A r a) {s : State} (h : P s) :
    (memWrite r a v s).post P := by
  unfold memWrite
  rcases issue_cases r a s with ⟨f, _, _, hi⟩ | ⟨req, hr, hi⟩ | ⟨hx, _, hi⟩
  · simp [hi, Res.bind, Res.post]
  · rw [hi]
    exact ⟨req, s, h, hr, rfl⟩
  · rw [hi]
    simp only [Res.bind]
    split
    · exact hC.write _ _ _ _ hA (by simpa using hx) (hC.before s h)
    · exact ⟨hC.writeFailed _ _ _ _ _ hA (by simpa using hx) (hC.before s h), by assumption⟩

theorem readBytes_post (hC : Closed B A P) (a : Word) (i k : Nat)
    (hB : ∀ j, i ≤ j → j < i + k → B .byte (addrAt a j)) {s : State} (h : P s) : (readBytes a i k s).post P := by
  induction k generalizing i s with
  | zero => exact h
  | succ k ih =>
    refine Res.post_bind (memRead_post hC (hB i (by omega) (by omega)) h) fun b t ht => ih _ ?_ ?_
    · intro j h1 h2
      exact hB j (by omega) (by omega)
    · exact hC.work t { t.w with acc := accumulate t.w.acc i b } ht

theorem writeBytes_post (hC : Closed B A P) (a : Word) (i k : Nat)
    (hA : ∀ j, i ≤ j → j < i + k → A .byte (addrAt a j)) {s : State} (h : P s) : (writeBytes a i k s).post P := by
  induction k generalizing i s with
  | zero => exact h
  | succ k ih =>
    refine Res.post_bind (memWrite_post hC _ (hA i (by omega) (by omega)) h) fun _ t ht => ih _ ?_ ht
    intro j h1 h2
    exact hA j (by omega) (by omega)

/-- All that reading a field can do: it reads only registers the field touches. -/
theorem readField_post (hC : Closed B A P) (a : Word) (bs bc : Nat) {s : State}
    (hB : ∀ x ∈ touchedBy s.cfg a bs bc, B (regimeOf s.cfg a) x) (h : P s) : (readField a bs bc s).post P := by
  have hreg : ∀ r, P (setRegime r s) := fun r => hC.work s { s.w with regime := r } h
  unfold readField
  unfold touchedBy at hB
  split
  · next hr =>
    rw [hr] at hB
    refine Res.post_bind (readBytes_post hC _ _ _ ?_ ?_) fun _ t ht => ht
    · exact fun j _ hj => hB _ (List.mem_map.mpr ⟨j, by simpa using hj, rfl⟩)
    · exact hC.work _ { (setRegime .byte s).w with n := regCount bs bc, acc := 0#64 } (hreg .byte)
  · next hr =>
    rw [hr] at hB
    split
    · next hsp =>
      refine Res.post_bind (memRead_post hC (hB a (by simp [hsp])) (hreg .word)) fun w t ht => ?_
      exact hC.work t { t.w with w0 := w } ht
    · next hsp =>
      refine Res.post_bind (memRead_post hC (hB a (by simp [hsp])) (hreg .word)) fun w0 t ht => ?_
      refine Res.post_bind (memRead_post hC (hB (addrAt a 4) (by simp [hsp]))
        (hC.work t { t.w with w0 := w0 } ht)) fun w1 u hu => ?_
      exact hC.work u { u.w with w1 := w1 } hu

/-- All that writing a field can do: it reads and writes only registers the field touches. -/
theorem writeField_post (hC : Closed B A P) (a : Word) (bs bc : Nat) (v : Word) {s : State}
    (hB : ∀ x ∈ touchedBy s.cfg a bs bc, B (regimeOf s.cfg a) x)
    (hA : ∀ x ∈ touchedBy s.cfg a bs bc, A (regimeOf s.cfg a) x) (h : P s) : (writeField a bs bc v s).post P := by
  have hreg : ∀ r, P (setRegime r s) := fun r => hC.work s { s.w with regime := r } h
  unfold writeField
  unfold touchedBy at hA hB
  split
  · next hr =>
    rw [hr] at hA hB
    have memb : ∀ j, 0 ≤ j → j < 0 + regCount bs bc → addrAt a j ∈ (List.range (regCount bs bc)).map (addrAt a) :=
      fun j _ hj => List.mem_map.mpr ⟨j, by simpa using hj, rfl⟩
    split
    · next hf =>
      refine memWrite_post hC _ ?_ (hreg .byte)
      have := hA _ (memb 0 (by omega) (by simp [regCount, hf]))
      simpa [addrAt] using this
    · refine Res.post_bind (readBytes_post hC _ _ _ (fun j h1 h2 => hB _ (memb j h1 h2)) ?_) fun _ t ht => ?_
      · exact hC.work _ { (setRegime .byte s).w with n := regCount bs bc, acc := 0#64 } (hreg .byte)
      · refine writeBytes_post hC _ _ _ (fun j h1 h2 => hA _ (memb j h1 h2)) ?_
        exact hC.work t { t.w with acc := accWithField t.w.acc bs bc (v &&& mask bc) } ht
  · next hr =>
    rw [hr] at hA hB
    split
    · next hsp =>
      split
      · exact memWrite_post hC _ (hA a (by simp [hsp])) (hreg .word)
      · refine Res.post_bind (memRead_post hC (hB a (by simp [hsp])) (hreg .word)) fun w t ht => ?_
        exact memWrite_post hC _ (hA a (by simp [hsp])) (hC.work t { t.w with w0 := w } ht)
    · next hsp =>
      refine Res.post_bind (memRead_post hC (hB a (by simp [hsp])) (hreg .word)) fun w0 t ht => ?_
      refine Res.post_bind (memRead_post hC (hB (addrAt a 4) (by simp [hsp]))
        (hC.work t { t.w with w0 := w0 } ht)) fun w1 u hu => ?_
      refine Res.post_bind (memWrite_post hC _ (hA a (by simp [hsp]))
        (hC.work u { u.w with w1 := w1 } hu)) fun _ x hx => ?_
      exact memWrite_post hC _ (hA (addrAt a 4) (by simp [hsp])) hx

/-- All that the sequencer can do: it reads and writes only registers its steps touch. -/
theorem runSteps_post (hC : Closed B A P) {c : Cfg} (hcfg : ∀ s, P s → s.cfg = c)
    (steps : List (Fin 15 × Descriptor × Word))
    (hB : ∀ x ∈ steps, ∀ y ∈ touchedBy c x.2.1.addr x.2.1.bs x.2.1.bc, B (regimeOf c x.2.1.addr) y)
    (hA : ∀ x ∈ steps, ∀ y ∈ touchedBy c x.2.1.addr x.2.1.bs x.2.1.bc, A (regimeOf c x.2.1.addr) y)
    {s : State} (h : P s) : (runSteps steps s).post P := by
  induction steps generalizing s with
  | nil => exact h
  | cons x rest ih =>
    obtain ⟨n, d, v⟩ := x
    have hstep : P (setStep n s) := hC.work s { s.w with step := n } h
    refine Res.post_bind (writeField_post hC _ _ _ _ ?_ ?_ hstep) fun _ t ht => ?_
    · rw [hcfg _ hstep]
      exact hB (n, d, v) (by simp)
    · rw [hcfg _ hstep]
      exact hA (n, d, v) (by simp)
    · exact ih (fun y hy => hB y (by simp [hy])) (fun y hy => hA y (by simp [hy])) ht

end post

/-! ## Transactions with a clean draw -/

theorem issue_clean {r : Regime} {a : Word} {s : State} (hx : registerExists s.cfg r a = true)
    (hd : (nextDraw s).clean) : issue r a s = .ok (nextDraw s) (dropDraw s) := by
  rw [issue_exists hx hd.2.1, beforeTxn_of_no_acts s hd.1]

/-- A read with a clean draw returns what the register holds. -/
theorem memRead_clean {r : Regime} {a : Word} {s : State} (hx : registerExists s.cfg r a = true)
    (hd : (nextDraw s).clean) (hv : a ∉ s.cfg.volatileAddrs) :
    memRead r a s = .ok (regGet s.mem r a) (logTxn (.read r a (regGet s.mem r a)) (dropDraw s)) := by
  simp [memRead, issue_clean hx hd, Res.bind, hd.2.2, readValue, hv]

/-- A write with a clean draw stores its value. -/
theorem memWrite_clean {r : Regime} {a : Word} (v : Word) {s : State} (hx : registerExists s.cfg r a = true)
    (hd : (nextDraw s).clean) : memWrite r a v s = .ok () (doTxn (.write r a (clip r v)) (dropDraw s)) := by
  simp [memWrite, issue_clean hx hd, Res.bind, hd.2.2]

end Sys2Proof.Machine
end

