-- ==== Sys2Proof/Laws/Command.lean ====
section
/-! SUPPORT. Whole commands: how one ends, and what every instruction keeps (`exec_post`), said once for every invariant
and frame. -/

namespace Sys2Proof.Machine

/-- How a command can end, after a part that keeps `P`. -/
inductive Ended (P : State → Prop) (t : State) : Prop where
  /-- with a value (or a reset just before the response) -/
  | value (v : Word) (u : State) (hu : P u) (ht : t = conclude 0#32 v u)
  /-- with an error (or a reset just before the response) -/
  | error (e : Err) (u : State) (he : e.legal) (hu : P u) (ht : t = raiseError e u)
  /-- abandoned by a reset that its next transaction drew -/
  | abandoned (req : Request) (u : State) (hu : P u) (hr : (nextDraw u).reset = some req)
      (ht : t = resetEngine req (beforeTxn u))

theorem endCommand_next {x : Res Word} {P : State → Prop} (hx : x.post P) {t : State} (h : endCommand x = .next t) :
    Ended P t := by
  cases x with
  | ok v u => exact .value v u hx (by simpa [endCommand] using h.symm)
  | raise e u => exact .error e u hx.2 hx.1 (by simpa [endCommand] using h.symm)
  | abandoned u =>
    obtain ⟨req, s0, h0, hr, hu⟩ := hx
    exact .abandoned req s0 h0 hr (by simpa [endCommand, hu] using h.symm)
  | fault f => simp [endCommand] at h

/-- All that a command that answers a next state can have done. -/
theorem command_next {touched : List Word} {body : State → Res Word} {s t : State} {P : State → Prop}
    (hb : (body (beginCommand touched s)).post P) (h : command touched body s = .next t) : Ended P t := by
  unfold command at h
  split at h
  · exact endCommand_next hb h
  · simp at h

/-- A command's answer under a well-formed configuration. -/
theorem command_wf {touched : List Word} {body : State → Res Word} {s : State} (h : cfgWellFormed s.cfg = true) :
    command touched body s = endCommand (body (beginCommand touched s)) := by simp [command, h]

section post

variable {B A : Regime → Word → Prop} {P : State → Prop}

theorem withTransport_post {body : State → Res Word} {s : State} (h : P s) (hb : (body s).post P) :
    (withTransport body s).post P := by
  unfold withTransport
  split
  · exact hb
  · exact ⟨h, trivial⟩

theorem withBitCount_post {body : State → Res Word} {s : State} (bc : Nat) (h : P s) (hb : (body s).post P) :
    (withBitCount bc body s).post P := by
  unfold withBitCount
  split
  · exact ⟨h, trivial⟩
  · exact hb

theorem withFrequencies_post {body : State → Res Word} {s : State} (fin fout : Word) (h : P s) (hb : (body s).post P) :
    (withFrequencies fin fout body s).post P := by
  unfold withFrequencies
  split
  · split
    · exact ⟨h, trivial⟩
    · exact hb
  · exact ⟨h, trivial⟩

/-- All that a bit-field read command can do. -/
theorem readCommand_post (hC : Closed B A P) (a : Word) (bs bc : Nat) {s t : State}
    (hB : ∀ x ∈ touchedBy s.cfg a bs bc, B (regimeOf s.cfg a) x)
    (h : P (beginCommand (touchedBy s.cfg a bs bc) s)) (ht : readCommand a bs bc s = .next t) : Ended P t :=
  command_next (withTransport_post h (withBitCount_post bc h (readField_post hC a bs bc (by simpa using hB) h))) ht

/-- All that a bit-field write command can do. -/
theorem writeCommand_post (hC : Closed B A P) (a : Word) (bs bc : Nat) (v : Word) {s t : State}
    (hB : ∀ x ∈ touchedBy s.cfg a bs bc, B (regimeOf s.cfg a) x)
    (hA : ∀ x ∈ touchedBy s.cfg a bs bc, A (regimeOf s.cfg a) x)
    (h : P (beginCommand (touchedBy s.cfg a bs bc) s)) (ht : writeCommand a bs bc v s = .next t) : Ended P t := by
  refine command_next (withTransport_post h (withBitCount_post bc h ?_)) ht
  exact Res.post_bind (writeField_post hC a bs bc v (by simpa using hB) (by simpa using hA) h) fun _ u hu => hu

/-- All that the search and the sequence can do. -/
theorem solveAndStart_post (hC : Closed B A P) {c : Cfg} (hcfg : ∀ s, P s → s.cfg = c)
    (hpll : ∀ s x, x = .configuring ∨ x = .updated → P s → P (setPllState x s))
    (xm src sync : Byte) (fin fout : Word)
    (hB : ∀ k, ∀ x ∈ startupSteps c xm src sync fout k, ∀ y ∈ touchedBy c x.2.1.addr x.2.1.bs x.2.1.bc,
      B (regimeOf c x.2.1.addr) y)
    (hA : ∀ k, ∀ x ∈ startupSteps c xm src sync fout k, ∀ y ∈ touchedBy c x.2.1.addr x.2.1.bs x.2.1.bc,
      A (regimeOf c x.2.1.addr) y)
    {s : State} (h : P s) : (solveAndStart xm src sync fin fout s).post P := by
  unfold solveAndStart
  have hw := hC.work s (solveWork s.cfg fin.toNat fout.toNat s.w) h
  simp only
  split
  · exact ⟨hw, trivial⟩
  · refine Res.post_bind (runSteps_post hC hcfg _ ?_ ?_ (hpll _ _ (.inl rfl) hw)) fun _ t ht => ?_
    · rw [hcfg s h]
      exact hB _
    · rw [hcfg s h]
      exact hA _
    · exact hC.work (setPllState .updated t) { t.w with step := 0 } (hpll _ _ (.inr rfl) ht)

/-- The descriptors of a sequence's steps. -/
theorem startupSteps_descriptor {c : Cfg} {xm src sync : Byte} {fout : Word} {k : PllConfig}
    {x : Fin 15 × Descriptor × Word} (hx : x ∈ startupSteps c xm src sync fout k) :
    x.2.1 ∈ ((bypassWrites c fout).map Prod.fst) ++ fieldDescriptors c := by
  unfold startupSteps at hx
  rcases List.mem_append.mp hx with hx | hx
  · obtain ⟨y, hy, rfl⟩ := List.mem_map.mp hx
    exact List.mem_append.mpr (.inl (List.mem_map.mpr ⟨y, hy, rfl⟩))
  · refine List.mem_append.mpr (.inr ?_)
    simp only [fieldSteps, List.mem_cons, List.not_mem_nil, or_false] at hx
    rcases hx with rfl | rfl | rfl | rfl | rfl | rfl | rfl | rfl | rfl | rfl | rfl | rfl | rfl <;>
      simp [fieldDescriptors]

/-- All that an instruction can do, whatever the free values are: `P` holds where it ends, for every `P` that its
transactions and the PLL's state changes keep, the engine reading and writing only registers the instruction touches. -/
theorem exec_post (i : Instr) {s t : State}
    (hC : Closed (fun r a => (r, a) ∈ instrTouches s.cfg i) (fun r a => (r, a) ∈ instrTouches s.cfg i) P)
    (hcfg : ∀ u, P u → u.cfg = s.cfg)
    (hpll : ∀ u x, x = .configuring ∨ x = .updated → P u → P (setPllState x u))
    (h : ∀ l, P (beginCommand l s)) (ht : exec i s = .next t) : Ended P t := by
  have mem : ∀ (c : Cfg) (a : Word) (l : List Word) (x : Word), x ∈ l →
      (regimeOf c a, x) ∈ l.map (regimeOf c a, ·) := fun c a l x hx => List.mem_map.mpr ⟨x, hx, rfl⟩
  cases i with
  | bfRead a bs bc => exact readCommand_post hC _ _ _ (mem s.cfg a _) (h _) ht
  | rd8 a => exact readCommand_post hC _ _ _ (mem s.cfg a _) (h _) ht
  | rd32 a => exact readCommand_post hC _ _ _ (mem s.cfg a _) (h _) ht
  | bfWrite a bs bc v => exact writeCommand_post hC _ _ _ _ (mem s.cfg a _) (mem s.cfg a _) (h _) ht
  | wr8 a v => exact writeCommand_post hC _ _ _ _ (mem s.cfg a _) (mem s.cfg a _) (h _) ht
  | wr32 a v => exact writeCommand_post hC _ _ _ _ (mem s.cfg a _) (mem s.cfg a _) (h _) ht
  | bset a bs => exact writeCommand_post hC _ _ _ _ (mem s.cfg a _) (mem s.cfg a _) (h _) ht
  | bclr a bs => exact writeCommand_post hC _ _ _ _ (mem s.cfg a _) (mem s.cfg a _) (h _) ht
  | pllStart xm src sync fin fout =>
    refine command_next (withTransport_post (h _) (withFrequencies_post fin fout (h _) ?_)) ht
    have touch : ∀ k, ∀ x ∈ startupSteps s.cfg xm src sync fout k, ∀ y ∈ touchedBy s.cfg x.2.1.addr x.2.1.bs x.2.1.bc,
        (regimeOf s.cfg x.2.1.addr, y) ∈ instrTouches s.cfg (.pllStart xm src sync fin fout) := ?_
    · exact solveAndStart_post hC hcfg hpll _ _ _ _ _ touch touch (h _)
    intro k x hx y hy
    refine List.mem_flatMap.mpr ⟨x.2.1, startupSteps_descriptor hx, List.mem_map.mpr ⟨y, hy, rfl⟩⟩

/-- A rejected request does nothing but end. -/
theorem rejectRequest_next {why : Reason} {s t : State} (h : rejectRequest why s = .next t) :
    t = raiseError (.invalidParam why) (beginCommand [] s) := by
  unfold rejectRequest command at h
  split at h
  · simpa [endCommand] using h.symm
  · simp at h

end post

end Sys2Proof.Machine
end

