-- ==== Sys2Proof/Certificates/Slice0/Obligations.lean ====
section
/-! DEFINITION. The statements for the provers. Each docstring names the rules of spec/ that the statement formalises.
Every statement about free values (log 7, log 10) is about all of them but for the premise it names: `answered`, that no reset
arrives between the command's last transaction and its response, is such a premise. -/

open Sys2Proof Sys2Proof.Machine

/-! ## Encoding and the step -/

/-- 30_encoding.md R80 to R86, R95: decoding the words of a well-formed instruction gives it back, whatever stands in the
request registers it does not use. That a pseudo-instruction's words decode to the pseudo-instruction, and that the BF_READ
and BF_WRITE forms with the same words are not well-formed, is the model's choice (log 15); `PseudoIsExpansion` says that the
two names act alike. -/
def Obligations.DecodeOfEncode : Prop :=
  ∀ (i : Instr) (r : Request), i.wellFormed = true → decode (r.load (encode i)) = .instr i

/-- 30_encoding.md R80 to R89, R95: a request that decodes to an instruction holds exactly that instruction's words. The
second clause, that the instruction is the well-formed one of the names of those words, is the model's choice (log 15). -/
def Obligations.EncodeOfDecode : Prop :=
  ∀ (i : Instr) (r : Request), decode r = .instr i → r.load (encode i) = r ∧ i.wellFormed = true

/-- 30_encoding.md R96: the spec's encoding examples, encoded; and decoded again. That the words of `WR32` decode to the
pseudo-instruction and not to `BF_WRITE a, 0, 32, v`, which has the same words, is the model's choice (log 15). -/
def Obligations.SpecWordsDecode : Prop :=
  encode (.bfRead 0x10#32 4#5 8#6) = [0x00001041#32, 0x00000010#32] ∧
  encode (.bfWrite 0x40001000#32 24#5 16#6 0xBEEF#32) = [0x00002182#32, 0x40001000#32, 0x0000BEEF#32] ∧
  encode (.wr32 0x40002000#32 0x12345678#32) = [0x00004002#32, 0x40002000#32, 0x12345678#32] ∧
  encode (.pllStart 1#8 2#8 3#8 (BitVec.ofNat 32 12288000) (BitVec.ofNat 32 24576000)) =
    [0x00000003#32, 0x00030201#32, 0x00BB8000#32, 0x01770000#32] ∧
  (∀ r2 r3, decode ⟨0x00001041#32, 0x00000010#32, r2, r3⟩ = .instr (.bfRead 0x10#32 4#5 8#6)) ∧
  (∀ r3, decode ⟨0x00002182#32, 0x40001000#32, 0x0000BEEF#32, r3⟩ = .instr (.bfWrite 0x40001000#32 24#5 16#6 0xBEEF#32)) ∧
  (∀ r3, decode ⟨0x00004002#32, 0x40002000#32, 0x12345678#32, r3⟩ = .instr (.wr32 0x40002000#32 0x12345678#32)) ∧
  decode ⟨0x00000003#32, 0x00030201#32, 0x00BB8000#32, 0x01770000#32⟩ =
    .instr (.pllStart 1#8 2#8 3#8 (BitVec.ofNat 32 12288000) (BitVec.ofNat 32 24576000))

/-- 30_encoding.md R95: each pseudo-instruction has the words of its expansion and acts as it. -/
def Obligations.PseudoIsExpansion : Prop :=
  ∀ (a v : Word) (bs : BitVec 5) (s : State),
    (encode (.rd8 a) = encode (.bfRead a 0#5 8#6) ∧ exec (.rd8 a) s = exec (.bfRead a 0#5 8#6) s) ∧
    (encode (.rd32 a) = encode (.bfRead a 0#5 32#6) ∧ exec (.rd32 a) s = exec (.bfRead a 0#5 32#6) s) ∧
    (encode (.wr8 a v) = encode (.bfWrite a 0#5 8#6 v) ∧ exec (.wr8 a v) s = exec (.bfWrite a 0#5 8#6 v) s) ∧
    (encode (.wr32 a v) = encode (.bfWrite a 0#5 32#6 v) ∧ exec (.wr32 a v) s = exec (.bfWrite a 0#5 32#6 v) s) ∧
    (encode (.bset a bs) = encode (.bfWrite a bs 1#6 1#32) ∧ exec (.bset a bs) s = exec (.bfWrite a bs 1#6 1#32) s) ∧
    (encode (.bclr a bs) = encode (.bfWrite a bs 1#6 0#32) ∧ exec (.bclr a bs) s = exec (.bfWrite a bs 1#6 0#32) s)

/-- 10_state.md R24, 30_encoding.md R80: while `BUSY` is 1, a step runs the instruction that the request registers decode
to. That one step is the whole command is the model's choice (log 1). The second clause is about the model's own way of
placing and starting a request (log 17). -/
def Obligations.StepRunsDecodedRequest : Prop :=
  (∀ (s : State) (i : Instr), s.busy = true → decode s.req = .instr i → step s = exec i s) ∧
  (∀ (s : State) (nbits w : Nat) (i : Instr), decodeTableWord nbits w = some i →
    step (s.withFetchWord nbits w) = exec i (s.withFetchWord nbits w))

/-- 10_state.md R22, R24, R25, R38, R40, R41, 70_reset_and_hazards.md R261, R263: while `BUSY` is 0 a step is the host's next
pending action (the queue is the model's choice, log 14): it writes one request register, starts the command, attaches or
detaches the transport, or resets; with nothing pending the engine waits. Of the reset: that the register space keeps its
contents is the model's choice (log 10; R39 leaves them unspecified), so are the request registers' values, which the reset
event carries (log 4), and the values of `W` other than `step` (log 11). -/
def Obligations.IdleStepTakesHostAction : Prop :=
  ∀ (s : State), s.busy = false →
    (s.host = [] → step s = .next s) ∧
    (∀ n v rest, s.host = .setReq n v :: rest →
      ∃ t, step s = .next t ∧ t = { s with host := rest, req := t.req } ∧
        (n = 0 → t.req = { s.req with req0 := v }) ∧ (n = 1 → t.req = { s.req with req1 := v }) ∧
        (n = 2 → t.req = { s.req with req2 := v }) ∧ (n = 3 → t.req = { s.req with req3 := v })) ∧
    (∀ rest, s.host = .start :: rest → step s = .next { s with host := rest, busy := true }) ∧
    (∀ b rest, s.host = .bind b :: rest → step s = .next { s with host := rest, transportBound := b }) ∧
    (∀ req rest, s.host = .reset req :: rest →
      step s = .next { s with
        host := rest, req := req, rsp0 := 0#32, rsp1 := 0#32, busy := false, pllState := .unconfigured, w := Work.idle })

/-- 30_encoding.md R88: a request with a reserved `OP` is one word long and ends `INVALID_PARAM`/`ILLEGAL_OP` with no
transaction, whatever `REQ1..REQ3` hold. -/
def Obligations.ReservedOpEndsIllegalOp : Prop :=
  ∀ (s : State), cfgWellFormed s.cfg = true → answered s → s.busy = true →
    (opField s.req.req0 = 0#4 ∨ 4 ≤ (opField s.req.req0).toNat) →
    requestLength (opField s.req.req0) = 1 ∧
    step s = .next { s with rsp0 := 0x00000052#32, rsp1 := 0#32, busy := false, w := Work.idle, lateResets := s.lateResets.tail }

/-- 30_encoding.md R87: a nonzero reserved bit of a defined operation ends `INVALID_PARAM`/`RESERVED_BITS` with no
transaction. -/
def Obligations.ReservedBitsEndCommand : Prop :=
  ∀ (s : State), cfgWellFormed s.cfg = true → answered s → s.busy = true →
    (((opField s.req.req0 = 1#4 ∨ opField s.req.req0 = 2#4) ∧ s.req.req0.extractLsb' 15 17 ≠ 0#17) ∨
     (opField s.req.req0 = 3#4 ∧
       (s.req.req0.extractLsb' 4 28 ≠ 0#28 ∨ s.req.req1.extractLsb' 24 8 ≠ 0#8))) →
    step s = .next { s with rsp0 := 0x00000062#32, rsp1 := 0#32, busy := false, w := Work.idle, lateResets := s.lateResets.tail }

/-! ## BF_READ and its pseudo-instructions -/

/-- 40_bitfield.md R111, R114 (BF_READ, RD8, RD32 in the byte regime): the command ends `OK` with the field, the `n` byte
registers taken as one little-endian number; exactly `n` byte reads, ascending. -/
def Obligations.ByteReadResult : Prop :=
  ∀ (i : Instr) (s : State) (a : Word) (bs bc : Nat), readOperands i = some (a, bs, bc) →
    readReady s a bs bc → regimeOf s.cfg a = .byte → cleanFor (regCount bs bc) s → answered s →
    ∃ t, exec i s = .next t ∧ t.rsp0 = 0#32 ∧
      t.rsp1.toNat = littleEndian s.mem a ((bs + bc + 7) / 8) / 2 ^ bs % 2 ^ bc ∧
      t.trace = s.trace ++ (List.range ((bs + bc + 7) / 8)).map (fun j => readTxn s.mem .byte (addrAt a j))

/-- 40_bitfield.md R115 (BF_READ, RD8, RD32 in the word regime, not spanning): one word read, shift and mask. -/
def Obligations.WordReadResult : Prop :=
  ∀ (i : Instr) (s : State) (a : Word) (bs bc : Nat), readOperands i = some (a, bs, bc) →
    readReady s a bs bc → regimeOf s.cfg a = .word → bs + bc ≤ 32 → cleanFor 1 s → answered s →
    ∃ t, exec i s = .next t ∧ t.rsp0 = 0#32 ∧
      t.rsp1.toNat = (regGet s.mem .word a).toNat / 2 ^ bs % 2 ^ bc ∧
      t.trace = s.trace ++ [.read .word a (regGet s.mem .word a)]

/-- 40_bitfield.md R116, R132 (BF_READ in the word regime, spanning): two word reads, `a` first; under `LE` the two words
taken as one little-endian number, under `DOC_LITERAL` the literal formula. -/
def Obligations.SpanReadResult : Prop :=
  ∀ (i : Instr) (s : State) (a : Word) (bs bc : Nat), readOperands i = some (a, bs, bc) →
    readReady s a bs bc → regimeOf s.cfg a = .word → 32 < bs + bc → cleanFor 2 s → answered s →
    ∃ t, exec i s = .next t ∧ t.rsp0 = 0#32 ∧
      (s.cfg.spanCombine = .le →
        t.rsp1.toNat =
          ((regGet s.mem .word a).toNat + 2 ^ 32 * (regGet s.mem .word (a + 4#32)).toNat) / 2 ^ bs % 2 ^ bc) ∧
      (s.cfg.spanCombine = .docLiteral →
        t.rsp1.toNat =
          ((regGet s.mem .word (a + 4#32)).toNat % 2 ^ (bc - (32 - bs)) +
            (regGet s.mem .word a).toNat / 2 ^ bs * 2 ^ (32 - bs)) % 2 ^ 32) ∧
      t.trace = s.trace ++
        [.read .word a (regGet s.mem .word a), .read .word (a + 4#32) (regGet s.mem .word (a + 4#32))]

/-- 20_memory.md R56, R57 (BF_READ, RD8, RD32; a spanning word field under `LE`): bit `j` of the value is bit `j` of the
field where the registers hold it, and the bits from `bc` up are 0. -/
def Obligations.ReadReturnsFieldBits : Prop :=
  ∀ (i : Instr) (s : State) (a : Word) (bs bc : Nat), readOperands i = some (a, bs, bc) →
    readReady s a bs bc → (regimeOf s.cfg a = .word → 32 < bs + bc → s.cfg.spanCombine = .le) →
    cleanFor (readCount s.cfg a bs bc) s → answered s →
    ∃ t, exec i s = .next t ∧ t.rsp0 = 0#32 ∧
      ∀ j, t.rsp1.getLsbD j = (decide (j < bc) && fieldBit s.cfg s.mem a bs j)

/-- 40_bitfield.md R128 (BF_READ, RD8, RD32): whatever the transport and the other agents do, the engine issues no write,
and the register space changes only by other agents' writes. -/
def Obligations.ReadCommandsIssueNoWrite : Prop :=
  ∀ (i : Instr) (s t : State) (a : Word) (bs bc : Nat), readOperands i = some (a, bs, bc) → exec i s = .next t →
    ∃ evs, t.trace = s.trace ++ evs ∧ t.mem = replay evs s.mem ∧ ∀ e ∈ evs, e.isEngineWrite = false

/-- 40_bitfield.md R113, R128 (frame of BF_READ, RD8, RD32, also when a read fails): with no other agent acting, no register
of the space, no request register, input, configuration or PLL state changes. -/
def Obligations.ReadCommandsFrame : Prop :=
  ∀ (i : Instr) (s t : State) (a : Word) (bs bc : Nat), readOperands i = some (a, bs, bc) → undisturbed s →
    exec i s = .next t →
    (∀ r x, regGet t.mem r x = regGet s.mem r x) ∧ t.mem = s.mem ∧
    t.req = s.req ∧ t.transportBound = s.transportBound ∧ t.cfg = s.cfg ∧ t.pllState = s.pllState ∧ t.host = s.host

/-- 40_bitfield.md R128 (BF_READ, RD8, RD32): the response depends only on the registers the command reads, under either
`SPAN_COMBINE`. -/
def Obligations.ReadDependsOnlyOnItsRegisters : Prop :=
  ∀ (i : Instr) (s s' : State) (a : Word) (bs bc : Nat), readOperands i = some (a, bs, bc) →
    readReady s a bs bc → readReady s' a bs bc → s'.cfg = s.cfg →
    cleanFor (readCount s.cfg a bs bc) s → cleanFor (readCount s.cfg a bs bc) s' → answered s → answered s' →
    (∀ x ∈ touchedBy s.cfg a bs bc, regGet s'.mem (regimeOf s.cfg a) x = regGet s.mem (regimeOf s.cfg a) x) →
    ∃ t t', exec i s = .next t ∧ exec i s' = .next t' ∧ t'.rsp0 = t.rsp0 ∧ t'.rsp1 = t.rsp1

/-- 20_memory.md R63, R64 (one transaction of a register that exists, whatever its draw): a read returns the drawn value of
a volatile register, else the register's content, and changes no register; a successful write sets the register to the
value; a failure carries the drawn nonzero code, and a failed write leaves the register unchanged. That a drawn code of 0 is
success and any other a failure is read from R64 by inference (log 8). -/
def Obligations.TransactionEffects : Prop :=
  ∀ (r : Regime) (a v : Word) (s : State), registerExists s.cfg r a = true → (nextDraw s).reset = none → s.mem.wf →
    ((nextDraw s).code = 0#32 →
      (∃ x t, memRead r a s = .ok x t ∧ t.mem = (beforeTxn s).mem ∧
        (a ∈ s.cfg.volatileAddrs → x = clip r (nextDraw s).fresh) ∧
        (a ∉ s.cfg.volatileAddrs → x = regGet (beforeTxn s).mem r a)) ∧
      (∃ t, memWrite r a v s = .ok () t ∧ regGet t.mem r a = clip r v ∧
        ∀ q x, (q, x) ≠ (r, a) → regGet t.mem q x = regGet (beforeTxn s).mem q x)) ∧
    ((nextDraw s).code ≠ 0#32 →
      (∃ t, memRead r a s = .raise (.transportError (nextDraw s).code) t ∧ t.mem = (beforeTxn s).mem) ∧
      (∃ t, memWrite r a v s = .raise (.transportError (nextDraw s).code) t ∧ t.mem = (beforeTxn s).mem))

/-- 20_memory.md R63, 10_state.md R33, 40_bitfield.md R114 to R116, R132 (BF_READ, RD8, RD32, volatile registers among those
read, in either regime): the `j`-th read returns the value drawn at the `j`-th transaction, at the register's width, where its
register is volatile, else the register's content (`returnedAt`), and the result is the field of those values. What a draw
holds is a free value (log 7). -/
def Obligations.ReadReturnsDrawnValues : Prop :=
  (∀ (s : State) (j : Nat) (r : Regime) (x : Word),
    (x ∈ s.cfg.volatileAddrs → returnedAt s j r x = clip r (drawAt s j).fresh) ∧
    (x ∉ s.cfg.volatileAddrs → returnedAt s j r x = regGet s.mem r x)) ∧
  (∀ (i : Instr) (s : State) (a : Word) (bs bc : Nat), readOperands i = some (a, bs, bc) → accessReady s a bs bc →
    cleanFor (readCount s.cfg a bs bc) s → answered s →
    ∃ t, exec i s = .next t ∧ t.rsp0 = 0#32 ∧ t.mem = s.mem ∧
      (regimeOf s.cfg a = .byte →
        t.rsp1.toNat =
          ((List.range (regCount bs bc)).map fun j => (returnedAt s j .byte (addrAt a j)).toNat * 256 ^ j).sum /
            2 ^ bs % 2 ^ bc) ∧
      (regimeOf s.cfg a = .word → bs + bc ≤ 32 → t.rsp1.toNat = (returnedAt s 0 .word a).toNat / 2 ^ bs % 2 ^ bc) ∧
      (regimeOf s.cfg a = .word → 32 < bs + bc → s.cfg.spanCombine = .le →
        t.rsp1.toNat =
          ((returnedAt s 0 .word a).toNat + 2 ^ 32 * (returnedAt s 1 .word (a + 4#32)).toNat) / 2 ^ bs % 2 ^ bc) ∧
      (regimeOf s.cfg a = .word → 32 < bs + bc → s.cfg.spanCombine = .docLiteral →
        t.rsp1.toNat =
          ((returnedAt s 1 .word (a + 4#32)).toNat % 2 ^ (bc - (32 - bs)) +
            (returnedAt s 0 .word a).toNat / 2 ^ bs * 2 ^ (32 - bs)) % 2 ^ 32))

/-- 20_memory.md R67, 40_bitfield.md R113 to R116 (BF_READ, RD8, RD32, a read failing): the `k`-th transaction fails with a
code; the reads before it were issued, none after it; the command ends `TRANSPORT_ERR` with that code and `STEP` 0, and no
register changes. -/
def Obligations.ReadFailsAtTransaction : Prop :=
  ∀ (i : Instr) (s : State) (a : Word) (bs bc k : Nat), readOperands i = some (a, bs, bc) → readReady s a bs bc →
    k < readCount s.cfg a bs bc → cleanFor k s → answered s → (drawAt s k).undisturbed → (drawAt s k).code ≠ 0#32 →
    ∃ t, exec i s = .next t ∧ t.rsp0 = 3#32 ∧ t.rsp1 = (drawAt s k).code ∧ t.mem = s.mem ∧ t.busy = false ∧
      t.trace = s.trace ++ (readTxns s.cfg s.mem a bs bc).take k ++
        ((readTxns s.cfg s.mem a bs bc)[k]?.map (Txn.failed (drawAt s k).code)).toList

/-! ## BF_WRITE and its pseudo-instructions -/

/-- 40_bitfield.md R117 to R123 (BF_WRITE, WR8, WR32, BSET, BCLR, every regime and both fast paths): the command ends `OK`,
having issued exactly the transactions of its path, in order and with their values, and the register space is what their
writes leave. -/
def Obligations.WriteTransactions : Prop :=
  ∀ (i : Instr) (s : State) (a : Word) (bs bc : Nat) (v : Word), writeOperands i = some (a, bs, bc, v) →
    accessReady s a bs bc → fieldStable s.cfg a bs bc → cleanFor (writeCount s.cfg a bs bc) s → answered s →
    ∃ t, exec i s = .next t ∧ t.rsp0 = 0#32 ∧ t.rsp1 = 0#32 ∧ t.busy = false ∧
      t.trace = s.trace ++ writeTxns s.cfg s.mem a bs bc v ∧ t.mem = replay (writeTxns s.cfg s.mem a bs bc v) s.mem

/-- 40_bitfield.md R123, 20_memory.md R56, R57 (BF_WRITE, WR8, WR32, BSET, BCLR, volatile registers too): the command ends
`OK` and bit `j < bc` of the field holds bit `j` of the value. -/
def Obligations.WriteStoresFieldBits : Prop :=
  ∀ (i : Instr) (s : State) (a : Word) (bs bc : Nat) (v : Word), writeOperands i = some (a, bs, bc, v) →
    accessReady s a bs bc → s.mem.wf → cleanFor (writeCount s.cfg a bs bc) s → answered s →
    ∃ t, exec i s = .next t ∧ t.rsp0 = 0#32 ∧ t.rsp1 = 0#32 ∧
      ∀ j, j < bc → fieldBit s.cfg t.mem a bs j = v.getLsbD j

/-- 40_bitfield.md R127 (BF_WRITE, WR8, WR32, BSET, BCLR): a write that ends `OK` changes no bit of any register outside the
field's bits, given that no other agent writes in between. -/
def Obligations.WriteIsNonDestructive : Prop :=
  ∀ (i : Instr) (s : State) (a : Word) (bs bc : Nat) (v : Word), writeOperands i = some (a, bs, bc, v) →
    accessReady s a bs bc → s.mem.wf → fieldStable s.cfg a bs bc → cleanFor (writeCount s.cfg a bs bc) s → answered s →
    ∃ t, exec i s = .next t ∧ t.rsp0 = 0#32 ∧
      ∀ r x k, (∀ j, j < bc → (regimeOf s.cfg a, bitPlace s.cfg a bs j) ≠ (r, x, k)) →
        (regGet t.mem r x).getLsbD k = (regGet s.mem r x).getLsbD k

/-- 40_bitfield.md R118, R120, R125 (the fast paths of BF_WRITE, WR8, WR32): one write and no read, and the register space is
what the read-modify-write path would leave. -/
def Obligations.FastPathEqualsReadModifyWrite : Prop :=
  ∀ (s : State) (a v : Word), s.mem.wf → a ∉ s.cfg.volatileAddrs → cleanFor 2 s →
    (registerExists s.cfg .byte a = true →
      ∃ t u, writeField a 0 8 v s = .ok () t ∧ writeByteField a 0 8 (v &&& mask 8) s = .ok () u ∧ t.mem = u.mem ∧
        t.trace = s.trace ++ [.write .byte a (v &&& 0xFF#32)] ∧
        u.trace = s.trace ++ [.read .byte a (regGet s.mem .byte a), .write .byte a (v &&& 0xFF#32)]) ∧
    (registerExists s.cfg .word a = true →
      ∃ t u, writeField a 0 32 v s = .ok () t ∧ writeWordField a 0 32 (v &&& mask 32) s = .ok () u ∧ t.mem = u.mem ∧
        t.trace = s.trace ++ [.write .word a v] ∧
        u.trace = s.trace ++ [.read .word a (regGet s.mem .word a), .write .word a v])

/-- 40_bitfield.md R121 (BF_WRITE, WR8, BSET, BCLR in the word regime, not spanning, not the fast path): read `a`, write
`a`; the register has the field's bits replaced by the value's. -/
def Obligations.WordWriteResult : Prop :=
  ∀ (i : Instr) (s : State) (a : Word) (bs bc : Nat) (v : Word), writeOperands i = some (a, bs, bc, v) →
    accessReady s a bs bc → s.mem.wf → fieldStable s.cfg a bs bc → regimeOf s.cfg a = .word → bs + bc ≤ 32 →
    ¬ (bs = 0 ∧ bc = 32) → cleanFor 2 s → answered s →
    ∃ t, exec i s = .next t ∧ t.rsp0 = 0#32 ∧
      regGet t.mem .word a =
        (regGet s.mem .word a &&& ~~~(mask bc <<< bs)) ||| ((v &&& mask bc) <<< bs) ∧
      t.trace = s.trace ++ [.read .word a (regGet s.mem .word a), .write .word a (regGet t.mem .word a)]

/-- 40_bitfield.md R122 (BF_WRITE in the word regime, spanning): read `a`, read `a + 4`, write `a`, write `a + 4`; the low
`32 - bs` bits of the value go to the top of the first word, the next `bc - (32 - bs)` to the bottom of the second. -/
def Obligations.SpanWriteResult : Prop :=
  ∀ (i : Instr) (s : State) (a : Word) (bs bc : Nat) (v : Word), writeOperands i = some (a, bs, bc, v) →
    accessReady s a bs bc → s.mem.wf → fieldStable s.cfg a bs bc → regimeOf s.cfg a = .word → 32 < bs + bc →
    cleanFor 4 s → answered s →
    ∃ t, exec i s = .next t ∧ t.rsp0 = 0#32 ∧
      regGet t.mem .word a =
        (regGet s.mem .word a &&& mask bs) ||| (((v &&& mask bc) &&& mask (32 - bs)) <<< bs) ∧
      regGet t.mem .word (a + 4#32) =
        (regGet s.mem .word (a + 4#32) &&& ~~~mask (bc - (32 - bs))) |||
          (((v &&& mask bc) >>> (32 - bs)) &&& mask (bc - (32 - bs))) ∧
      t.trace = s.trace ++
        [.read .word a (regGet s.mem .word a), .read .word (a + 4#32) (regGet s.mem .word (a + 4#32)),
         .write .word a (regGet t.mem .word a), .write .word (a + 4#32) (regGet t.mem .word (a + 4#32))]

/-- 40_bitfield.md R130 (BF_READ, RD8, RD32, BF_WRITE, WR8, WR32, BSET, BCLR): the number of transactions of a command
ending `OK`. -/
def Obligations.TransactionCounts : Prop :=
  (∀ (i : Instr) (s : State) (a : Word) (bs bc : Nat), readOperands i = some (a, bs, bc) → accessReady s a bs bc →
    cleanFor (readCount s.cfg a bs bc) s → answered s →
    ∃ t, exec i s = .next t ∧ t.rsp0 = 0#32 ∧ t.trace.length = s.trace.length + readCount s.cfg a bs bc ∧
      t.draws = s.draws.drop (readCount s.cfg a bs bc)) ∧
  (∀ (i : Instr) (s : State) (a : Word) (bs bc : Nat) (v : Word), writeOperands i = some (a, bs, bc, v) →
    accessReady s a bs bc → cleanFor (writeCount s.cfg a bs bc) s → answered s →
    ∃ t, exec i s = .next t ∧ t.rsp0 = 0#32 ∧ t.trace.length = s.trace.length + writeCount s.cfg a bs bc ∧
      t.draws = s.draws.drop (writeCount s.cfg a bs bc))

/-- 40_bitfield.md R126: with `SPAN_COMBINE = LE`, a BF_WRITE followed by a BF_READ of the same descriptor, with no volatile
register among those touched and no other agent's write in between, returns the value. -/
def Obligations.WriteThenReadReturnsValue : Prop :=
  ∀ (s : State) (a : Word) (bs : BitVec 5) (bc : BitVec 6) (v : Word),
    accessReady s a bs.toNat bc.toNat → s.mem.wf → fieldStable s.cfg a bs.toNat bc.toNat → s.cfg.spanCombine = .le →
    v.toNat < 2 ^ bc.toNat →
    cleanFor (writeCount s.cfg a bs.toNat bc.toNat + readCount s.cfg a bs.toNat bc.toNat) s →
    s.lateResets.getD 0 none = none → s.lateResets.getD 1 none = none →
    ∃ t u, exec (.bfWrite a bs bc v) s = .next t ∧ t.rsp0 = 0#32 ∧
      exec (.bfRead a bs bc) t = .next u ∧ u.rsp0 = 0#32 ∧ u.rsp1 = v

/-- 40_bitfield.md R117, R127 (frame of BF_WRITE, WR8, WR32, BSET, BCLR, also when a transaction fails): with no other agent
acting, every register but those of the field (the list `touchedBy` that the meaning itself computes) reads as before, and
no request register, input, configuration or PLL state changes. -/
def Obligations.WriteCommandsFrame : Prop :=
  ∀ (i : Instr) (s t : State) (a : Word) (bs bc : Nat) (v : Word), writeOperands i = some (a, bs, bc, v) →
    undisturbed s → exec i s = .next t →
    (∀ r x, (r, x) ∉ (touchedBy s.cfg a bs bc).map (fun y => (regimeOf s.cfg a, y)) →
      regGet t.mem r x = regGet s.mem r x) ∧
    t.req = s.req ∧ t.transportBound = s.transportBound ∧ t.cfg = s.cfg ∧ t.pllState = s.pllState ∧ t.host = s.host

/-- 20_memory.md R68, 70_reset_and_hazards.md R265 (BF_WRITE, WR8, WR32, BSET, BCLR): with `EXCLUSIVE = true`, whatever the
other agents do between the transactions, the field holds the value when the command ends. -/
def Obligations.ExclusiveWriteHolds : Prop :=
  ∀ (i : Instr) (s : State) (a : Word) (bs bc : Nat) (v : Word), writeOperands i = some (a, bs, bc, v) →
    accessReady s a bs bc → s.mem.wf → s.cfg.exclusive = true → grantedFor (writeCount s.cfg a bs bc) s → answered s →
    ∃ t, exec i s = .next t ∧ t.rsp0 = 0#32 ∧ t.rsp1 = 0#32 ∧
      ∀ j, j < bc → fieldBit s.cfg t.mem a bs j = v.getLsbD j

/-- 20_memory.md R61 (BF_WRITE, WR8, WR32, BSET, BCLR, every read-modify-write: all but the two fast paths): another agent's
write between the engine's read and its write-back of a register is overwritten in every bit of that register, not only in the
field. First clause, the word regime, not spanning, with the register's value; second clause, every regime: the agent writes
the `m`-th register of the field at any boundary `j` after that register's read and up to its write-back, its write is
recorded there, and the whole register space ends as the command's own transactions alone would leave it. -/
def Obligations.InterleavedWriteIsLost : Prop :=
  (∀ (i : Instr) (s : State) (a : Word) (bs bc : Nat) (v x : Word), writeOperands i = some (a, bs, bc, v) →
    accessReady s a bs bc → s.mem.wf → fieldStable s.cfg a bs bc → s.cfg.exclusive = false →
    regimeOf s.cfg a = .word → bs + bc ≤ 32 → ¬ (bs = 0 ∧ bc = 32) →
    (drawAt s 0).clean → (drawAt s 1).acts = [.write a x] → (drawAt s 1).reset = none → (drawAt s 1).code = 0#32 →
    answered s →
    ∃ t, exec i s = .next t ∧ t.rsp0 = 0#32 ∧
      regGet t.mem .word a =
        (regGet s.mem .word a &&& ~~~(mask bc <<< bs)) ||| ((v &&& mask bc) <<< bs) ∧
      t.trace = s.trace ++
        [.read .word a (regGet s.mem .word a), .otherWrite .word a x, .write .word a (regGet t.mem .word a)]) ∧
  (∀ (i : Instr) (s : State) (a : Word) (bs bc m j : Nat) (v x y : Word), writeOperands i = some (a, bs, bc, v) →
    accessReady s a bs bc → s.mem.wf → fieldStable s.cfg a bs bc → s.cfg.exclusive = false →
    ¬ (regimeOf s.cfg a = .byte ∧ bs = 0 ∧ bc = 8) → ¬ (regimeOf s.cfg a = .word ∧ bs = 0 ∧ bc = 32) →
    (touchedBy s.cfg a bs bc)[m]? = some y → m < j → j ≤ (touchedBy s.cfg a bs bc).length + m →
    (∀ k, k < writeCount s.cfg a bs bc → k ≠ j → (drawAt s k).clean) →
    (drawAt s j).acts = [.write y x] → (drawAt s j).reset = none → (drawAt s j).code = 0#32 → answered s →
    ∃ t, exec i s = .next t ∧ t.rsp0 = 0#32 ∧ t.rsp1 = 0#32 ∧ t.busy = false ∧
      t.trace = s.trace ++ (writeTxns s.cfg s.mem a bs bc v).take j ++
        [.otherWrite (regimeOf s.cfg a) y (clip (regimeOf s.cfg a) x)] ++ (writeTxns s.cfg s.mem a bs bc v).drop j ∧
      ∀ q z, regGet t.mem q z = regGet (replay (writeTxns s.cfg s.mem a bs bc v) s.mem) q z)

/-- 40_bitfield.md R124 (BF_WRITE, WR8, WR32, BSET, BCLR): the `k`-th transaction fails; every transaction before it is in
effect and none after it is issued; the command ends `TRANSPORT_ERR` with the code. -/
def Obligations.WriteFailsAtTransaction : Prop :=
  ∀ (i : Instr) (s : State) (a : Word) (bs bc k : Nat) (v : Word), writeOperands i = some (a, bs, bc, v) →
    accessReady s a bs bc → fieldStable s.cfg a bs bc → k < writeCount s.cfg a bs bc → cleanFor k s →
    answered s → (drawAt s k).undisturbed → (drawAt s k).code ≠ 0#32 →
    ∃ t, exec i s = .next t ∧ t.rsp0 = 3#32 ∧ t.rsp1 = (drawAt s k).code ∧ t.busy = false ∧
      t.trace = s.trace ++ (writeTxns s.cfg s.mem a bs bc v).take k ++
        ((writeTxns s.cfg s.mem a bs bc v)[k]?.map (Txn.failed (drawAt s k).code)).toList ∧
      t.mem = replay ((writeTxns s.cfg s.mem a bs bc v).take k) s.mem

/-- 70_reset_and_hazards.md R260 (every instruction, and every started request): a reset while `BUSY` is 1 abandons the
command: no response is written for it, every transaction it had issued keeps its effect and no later one is issued, and the
engine is in its reset state (`abandonedBy`).
The first three clauses give the transactions outright, for registers that are not volatile, every earlier transaction
succeeding and no other agent acting up to that point: a reset before the `k`-th transaction of BF_READ, RD8, RD32, of
BF_WRITE, WR8, WR32, BSET, BCLR, and of PLL_START. The last three have no such premise; each compares with a run that no reset
meets at that point: a reset before the `k`-th transaction, whatever came before it (fourth: the run in which the transport
fails that transaction instead; fifth: the run that faults at that access), and a reset where only the response is left, after
the last transaction or in a command that has none (sixth). That a reset comes at such a point is the model's choice (log 10),
as are the request registers' values, which the reset carries (log 4), and the values of `W` other than `step` (log 11). -/
def Obligations.ResetAbandonsCommand : Prop :=
  (∀ (i : Instr) (s : State) (a : Word) (bs bc k : Nat) (req : Request),
    readOperands i = some (a, bs, bc) → readReady s a bs bc →
    k < readCount s.cfg a bs bc → cleanFor k s → (drawAt s k).acts = [] → (drawAt s k).reset = some req →
    ∃ t, exec i s = .next t ∧ abandonedBy req s t ∧
      t.trace = s.trace ++ (readTxns s.cfg s.mem a bs bc).take k ∧ t.mem = s.mem) ∧
  (∀ (i : Instr) (s : State) (a : Word) (bs bc k : Nat) (v : Word) (req : Request),
    writeOperands i = some (a, bs, bc, v) → accessReady s a bs bc → fieldStable s.cfg a bs bc →
    k < writeCount s.cfg a bs bc → cleanFor k s → (drawAt s k).acts = [] → (drawAt s k).reset = some req →
    ∃ t, exec i s = .next t ∧ abandonedBy req s t ∧
      t.trace = s.trace ++ (writeTxns s.cfg s.mem a bs bc v).take k ∧
      t.mem = replay ((writeTxns s.cfg s.mem a bs bc v).take k) s.mem) ∧
  (∀ (s : State) (xm src sync : Byte) (fin fout : Word) (c : PllConfig) (k : Nat) (req : Request), pllReady s fin fout c →
    instrExists s.cfg (.pllStart xm src sync fin fout) → pllStable s.cfg fout →
    k < stepsCount s.cfg (startupSteps s.cfg xm src sync fout c) → cleanFor k s →
    (drawAt s k).acts = [] → (drawAt s k).reset = some req →
    ∃ t, exec (.pllStart xm src sync fin fout) s = .next t ∧ abandonedBy req s t ∧
      t.trace = s.trace ++ ((stepsTxns s.cfg s.mem (startupSteps s.cfg xm src sync fout c)).take k).map Prod.snd ∧
      t.mem = replay (((stepsTxns s.cfg s.mem (startupSteps s.cfg xm src sync fout c)).take k).map Prod.snd) s.mem) ∧
  (∀ (s t : State) (k : Nat) (req : Request), s.busy = true → (drawAt s k).reset = some req →
    step (failedAt s k) = .next t → t.draws = [] →
    ∃ u e, step s = .next u ∧ abandonedBy req s u ∧ e.isEngine = true ∧ t.trace = u.trace ++ [e] ∧ u.mem = t.mem) ∧
  (∀ (s : State) (f : Fault) (k : Nat) (req : Request), s.busy = true → (drawAt s k).reset = some req →
    step (failedAt s k) = .fault f → f.stopped.draws = [] →
    ∃ u, step s = .next u ∧ abandonedBy req s u ∧ u.trace = f.stopped.trace ∧ u.mem = f.stopped.mem) ∧
  (∀ (s t : State) (req : Request) (rest : List (Option Request)), s.busy = true → s.lateResets = none :: rest →
    step s = .next t → t.lateResets = rest →
    ∃ u, step { s with lateResets := some req :: rest } = .next u ∧ abandonedBy req s u ∧
      u.trace = t.trace ∧ u.mem = t.mem)

/-! ## Errors, faults, refusals -/

/-- 60_exceptions.md R236 (3), R237 (3) (every instruction): with no transport attached the command ends `NULL_PARAM`, before
every later check, with no transaction. -/
def Obligations.UnboundTransportEndsNullParam : Prop :=
  ∀ (i : Instr) (s : State), cfgWellFormed s.cfg = true → s.transportBound = false → answered s →
    exec i s = .next { s with rsp0 := 1#32, rsp1 := 0#32, busy := false, w := Work.idle, lateResets := s.lateResets.tail }

/-- 40_bitfield.md R110 (BF_READ, BF_WRITE): `bc = 0` or `bc > 32` ends `INVALID_PARAM`/`BIT_COUNT` before any
transaction. -/
def Obligations.BitCountOutOfRangeEnds : Prop :=
  ∀ (s : State) (a : Word) (bs : BitVec 5) (bc : BitVec 6) (v : Word), engineReady s → answered s →
    (bc.toNat = 0 ∨ bc.toNat > 32) →
    exec (.bfRead a bs bc) s = .next { s with
      rsp0 := 0x12#32, rsp1 := 0#32, busy := false, w := Work.idle, lateResets := s.lateResets.tail } ∧
    exec (.bfWrite a bs bc v) s = .next { s with
      rsp0 := 0x12#32, rsp1 := 0#32, busy := false, w := Work.idle, lateResets := s.lateResets.tail }

/-- 42_pll_start.md R202 to R204, R216, in the order of 60_exceptions.md R237 (PLL_START): `OUT_FREQ`, then `IN_FREQ_ZERO`,
then `NO_CONFIG`; with no transaction, `REGS` and `PLL_STATE` unchanged. -/
def Obligations.PllStartRejections : Prop :=
  ∀ (s : State) (xm src sync : Byte) (fin fout : Word), engineReady s → answered s →
    ((outSet s.cfg.profile).contains fout.toNat = false →
      exec (.pllStart xm src sync fin fout) s =
        .next { s with
          rsp0 := 0x22#32, rsp1 := 0#32, busy := false, w := Work.idle, lateResets := s.lateResets.tail }) ∧
    ((outSet s.cfg.profile).contains fout.toNat = true → fin = 0#32 →
      exec (.pllStart xm src sync fin fout) s =
        .next { s with
          rsp0 := 0x32#32, rsp1 := 0#32, busy := false, w := Work.idle, lateResets := s.lateResets.tail }) ∧
    ((outSet s.cfg.profile).contains fout.toNat = true → fin ≠ 0#32 → pllSolve s.cfg fin.toNat fout.toNat = none →
      exec (.pllStart xm src sync fin fout) s =
        .next { s with
          rsp0 := 0x42#32, rsp1 := 0#32, busy := false, w := Work.idle, lateResets := s.lateResets.tail })

/-- 20_memory.md R54, 60_exceptions.md R233 (all eight bit-field instructions, and PLL_START): a word-regime field at an
address that is no multiple of 4 is the fault `Misaligned`, at the field's first transaction; in a PLL_START, with the writes
of the sequence before that field done (42_pll_start.md R200, 70_reset_and_hazards.md R262 (3)). -/
def Obligations.MisalignedWordFaults : Prop :=
  (∀ (i : Instr) (s : State) (a : Word) (bs bc : Nat), readOperands i = some (a, bs, bc) → engineReady s →
    1 ≤ bc → bc ≤ 32 → regimeOf s.cfg a = .word → a.toNat % 4 ≠ 0 → (drawAt s 0).undisturbed →
    ∃ u, exec i s = .fault (.misaligned a u) ∧ u.mem = s.mem ∧ u.trace = s.trace) ∧
  (∀ (i : Instr) (s : State) (a : Word) (bs bc : Nat) (v : Word), writeOperands i = some (a, bs, bc, v) → engineReady s →
    1 ≤ bc → bc ≤ 32 → regimeOf s.cfg a = .word → a.toNat % 4 ≠ 0 → (drawAt s 0).undisturbed →
    ∃ u, exec i s = .fault (.misaligned a u) ∧ u.mem = s.mem ∧ u.trace = s.trace) ∧
  (∀ (s : State) (xm src sync : Byte) (fin fout : Word) (c : PllConfig) (pre post : List (Fin 15 × Descriptor × Word))
    (n : Fin 15) (d : Descriptor) (v : Word), pllReady s fin fout c →
    startupSteps s.cfg xm src sync fout c = pre ++ (n, d, v) :: post → stepsReady s.cfg pre →
    cleanFor (stepsCount s.cfg pre) s → (drawAt s (stepsCount s.cfg pre)).undisturbed →
    regimeOf s.cfg d.addr = .word → d.addr.toNat % 4 ≠ 0 →
    ∃ u, exec (.pllStart xm src sync fin fout) s = .fault (.misaligned d.addr u) ∧ u.pllState = .configuring ∧
      u.trace = s.trace ++ (stepsTxns s.cfg s.mem pre).map Prod.snd ∧
      u.mem = replay ((stepsTxns s.cfg s.mem pre).map Prod.snd) s.mem)

/-- 20_memory.md R53, 60_exceptions.md R233 (all eight bit-field instructions, and PLL_START): a byte-regime field that runs
past the window faults `CrossRegime` at the first register outside it, the reads before it issued; a spanning word field whose
second word lies in the window faults there, the first read issued; in a PLL_START, with the writes of the sequence before
that field done (42_pll_start.md R200, 70_reset_and_hazards.md R262 (3)). -/
def Obligations.CrossRegimeFaults : Prop :=
  (∀ (i : Instr) (s : State) (a : Word) (bs bc j : Nat),
    (readOperands i = some (a, bs, bc) ∨ ∃ v, writeOperands i = some (a, bs, bc, v)) → engineReady s → 1 ≤ bc → bc ≤ 32 →
    regimeOf s.cfg a = .byte → j < regCount bs bc → inByteWindow s.cfg (addrAt a j) = false →
    (∀ k, k < j → inByteWindow s.cfg (addrAt a k) = true ∧ addrAt a k ∉ s.cfg.volatileAddrs) → cleanFor j s →
    (drawAt s j).undisturbed →
    ∃ u, exec i s = .fault (.crossRegime (addrAt a j) u) ∧ u.mem = s.mem ∧
      u.trace = s.trace ++ (List.range j).map (fun k => readTxn s.mem .byte (addrAt a k))) ∧
  (∀ (i : Instr) (s : State) (a : Word) (bs bc : Nat),
    (readOperands i = some (a, bs, bc) ∨ ∃ v, writeOperands i = some (a, bs, bc, v)) → engineReady s → bc ≤ 32 →
    regimeOf s.cfg a = .word → a.toNat % 4 = 0 → 32 < bs + bc → inByteWindow s.cfg (a + 4#32) = true →
    a ∉ s.cfg.volatileAddrs → cleanFor 1 s → (drawAt s 1).undisturbed →
    ∃ u, exec i s = .fault (.crossRegime (a + 4#32) u) ∧ u.mem = s.mem ∧
      u.trace = s.trace ++ [.read .word a (regGet s.mem .word a)]) ∧
  (∀ (s : State) (xm src sync : Byte) (fin fout : Word) (c : PllConfig) (pre post : List (Fin 15 × Descriptor × Word))
    (n : Fin 15) (d : Descriptor) (v : Word), pllReady s fin fout c →
    startupSteps s.cfg xm src sync fout c = pre ++ (n, d, v) :: post → stepsReady s.cfg pre →
    (∀ j, regimeOf s.cfg d.addr = .byte → j < regCount d.bs d.bc → inByteWindow s.cfg (addrAt d.addr j) = false →
      (∀ k, k < j → inByteWindow s.cfg (addrAt d.addr k) = true ∧ addrAt d.addr k ∉ s.cfg.volatileAddrs) →
      cleanFor (stepsCount s.cfg pre + j) s → (drawAt s (stepsCount s.cfg pre + j)).undisturbed →
      ∃ u, exec (.pllStart xm src sync fin fout) s = .fault (.crossRegime (addrAt d.addr j) u) ∧
        u.pllState = .configuring ∧ u.mem = replay ((stepsTxns s.cfg s.mem pre).map Prod.snd) s.mem ∧
        u.trace = s.trace ++ (stepsTxns s.cfg s.mem pre).map Prod.snd ++
          (List.range j).map (fun k => readTxn u.mem .byte (addrAt d.addr k))) ∧
    (regimeOf s.cfg d.addr = .word → d.addr.toNat % 4 = 0 → 32 < d.bs + d.bc →
      inByteWindow s.cfg (d.addr + 4#32) = true → d.addr ∉ s.cfg.volatileAddrs →
      cleanFor (stepsCount s.cfg pre + 1) s → (drawAt s (stepsCount s.cfg pre + 1)).undisturbed →
      ∃ u, exec (.pllStart xm src sync fin fout) s = .fault (.crossRegime (d.addr + 4#32) u) ∧
        u.pllState = .configuring ∧ u.mem = replay ((stepsTxns s.cfg s.mem pre).map Prod.snd) s.mem ∧
        u.trace = s.trace ++ (stepsTxns s.cfg s.mem pre).map Prod.snd ++
          [.read .word d.addr (regGet u.mem .word d.addr)]))

/-- 00_scope.md R7, 60_exceptions.md R233 (every instruction, and every started request): a configuration that is not
well-formed is refused, no command has a meaning under it. -/
def Obligations.IllFormedConfigRefused : Prop :=
  (∀ (i : Instr) (s : State), cfgWellFormed s.cfg = false → exec i s = .refused .illFormedConfig) ∧
  (∀ (s : State), cfgWellFormed s.cfg = false → s.busy = true → step s = .refused .illFormedConfig)

/-- 40_bitfield.md R131, 41_pll_solver.md R171, 60_exceptions.md R230 (every instruction): under a well-formed configuration,
where every register the instruction touches exists, the command ends, whatever the transport and the other agents do;
`BUSY` is 0 again and the working state holds nothing. -/
def Obligations.EveryCommandEnds : Prop :=
  ∀ (i : Instr) (s : State), cfgWellFormed s.cfg = true → instrExists s.cfg i →
    ∃ t, exec i s = .next t ∧ t.busy = false ∧ t.w = Work.idle

/-! ## The solver -/

/-- 41_pll_solver.md R153, R154: phase 1 takes the first prescaler that is exact and meets both bounds. -/
def Obligations.Phase1IsFirstFit : Prop :=
  ∀ (c : Cfg) (fin fout : Nat), 1 ≤ fin →
    (∀ k, phase1 c fin fout = some k →
      k.type = .int ∧ k.num = 0 ∧ k.den = 0 ∧ 1 ≤ k.p ∧ k.p ≤ 7 ∧ k.p * fout = fin * k.mul ∧
      inOk c fin k.p = true ∧ 1 < k.mul ∧ k.mul ≤ 3072 ∧
      ∀ q m, 1 ≤ q → q < k.p → q * fout = fin * m → inOk c fin q = true → ¬ (1 < m ∧ m ≤ 3072)) ∧
    (phase1 c fin fout = none →
      ∀ q m, 1 ≤ q → q ≤ 7 → q * fout = fin * m → inOk c fin q = true → ¬ (1 < m ∧ m ≤ 3072))

/-- 41_pll_solver.md R167: a phase-1 result is the search's result, with `least_diff` 0, else phase 2 gives it; and neither
depends on what the working state held. -/
def Obligations.SearchPrefersPhase1 : Prop :=
  ∀ (c : Cfg) (fin fout : Nat),
    (∀ k, phase1 c fin fout = some k → pllSolve c fin fout = some (k, 0)) ∧
    (∀ w : Work, phase1 c fin fout = none →
      pllSolve c fin fout = (phase2 c fin fout w).best.map fun k => (k, (phase2 c fin fout w).leastDiff)) ∧
    (∀ w : Work, ((solveWork c fin fout w).best.map fun k => (k, (solveWork c fin fout w).leastDiff)) = pllSolve c fin fout)

/-- 41_pll_solver.md R155, R165, R166: where phase 1 finds nothing, the result is the candidate of least error among all
prescalers, the lowest prescaler on a tie, its error below `fout`; and it is `NoConfig` exactly when no prescaler's candidate
has an error below `fout`. `ratio` is that of R156. The second clause says what a prescaler's candidate is in `BINARY64` mode
(R152, R157 to R163: the skips, the thresholds 0.1 and 0.9, the increment and its skip above 3072, the fraction, its
reduction and its rescale), the third what it is in `EXACT` mode (R168, on rationals), the fourth what the error is (R164,
R168). The binary64 operations named are those of `RoundingIsNearestEven` and `Binary64Conversions`. -/
def Obligations.Phase2IsBestFit : Prop :=
  (∀ (c : Cfg) (fin fout : Nat), phase1 c fin fout = none →
    let ratio := match c.fractMode with
      | .binary64 => f64Div (f64OfNat fout) (f64OfNat fin)
      | .exact => 0#64
    (∀ k d, pllSolve c fin fout = some (k, d) →
      1 ≤ k.p ∧ k.p ≤ 7 ∧ candidate c fin fout ratio k.p = some k ∧ d = freqError c.fractMode fin fout k ∧ d < fout ∧
      ∀ p k', 1 ≤ p → p ≤ 7 → candidate c fin fout ratio p = some k' →
        d ≤ freqError c.fractMode fin fout k' ∧ (p < k.p → d < freqError c.fractMode fin fout k')) ∧
    (pllSolve c fin fout = none ↔
      ∀ p k', 1 ≤ p → p ≤ 7 → candidate c fin fout ratio p = some k' → fout ≤ freqError c.fractMode fin fout k')) ∧
  (∀ (c : Cfg) (fin fout p : Nat) (ratio : Binary64) (k : PllConfig), c.fractMode = .binary64 →
    let rate := f64Mul ratio (f64OfNat p)
    let mul := f64Floor rate
    let fract := f64Sub rate (f64OfNat mul)
    let num := f64Floor (f64Mul (f64OfNat (p * fin)) fract)
    let g := Nat.gcd num (p * fin)
    candidate c fin fout ratio p = some k ↔
      fin ≤ p * c.maxPllInput ∧ p * c.minPllInput ≤ fin ∧ 1 < mul ∧ mul ≤ 3072 ∧
      ((f64Lt fract 0x3FB999999999999A#64 = true ∧ k = ⟨.int, p, mul, 0, 0⟩) ∨
       (f64Lt fract 0x3FB999999999999A#64 = false ∧ f64Lt 0x3FECCCCCCCCCCCCD#64 fract = true ∧ mul + 1 ≤ 3072 ∧
        k = ⟨.int, p, mul + 1, 0, 0⟩) ∨
       (f64Lt fract 0x3FB999999999999A#64 = false ∧ f64Lt 0x3FECCCCCCCCCCCCD#64 fract = false ∧
        ((p * fin / g ≤ 65535 ∧ k = ⟨.frac, p, mul, num / g, p * fin / g⟩) ∨
         (65535 < p * fin / g ∧
          k = ⟨.frac, p, mul,
            f64RoundHalfUp (f64Mul (f64Div (f64OfNat 65535) (f64OfNat (p * fin / g))) (f64OfNat (num / g))), 65535⟩))))) ∧
  (∀ (c : Cfg) (fin fout p : Nat) (ratio : Binary64) (k : PllConfig), 1 ≤ fin → 1 ≤ p → c.fractMode = .exact →
    let rate : ℚ := (fout : ℚ) * p / fin
    let mul := ⌊rate⌋₊
    let fract := rate - mul
    let num := ⌊(p * fin : ℚ) * fract⌋₊
    let g := Nat.gcd num (p * fin)
    candidate c fin fout ratio p = some k ↔
      fin ≤ p * c.maxPllInput ∧ p * c.minPllInput ≤ fin ∧ 1 < mul ∧ mul ≤ 3072 ∧
      ((fract < 1 / 10 ∧ k = ⟨.int, p, mul, 0, 0⟩) ∨
       (9 / 10 < fract ∧ mul + 1 ≤ 3072 ∧ k = ⟨.int, p, mul + 1, 0, 0⟩) ∨
       (1 / 10 ≤ fract ∧ fract ≤ 9 / 10 ∧
        ((p * fin / g ≤ 65535 ∧ k = ⟨.frac, p, mul, num / g, p * fin / g⟩) ∨
         (65535 < p * fin / g ∧
          k = ⟨.frac, p, mul, ⌊(65535 * (num / g : Nat) : ℚ) / (p * fin / g : Nat) + 1 / 2⌋₊, 65535⟩))))) ∧
  (∀ (fin fout : Nat) (k : PllConfig),
    (∀ mode, k.type = .int → freqError mode fin fout k = ((k.mul * fin / k.p : Nat) - fout : Int).natAbs) ∧
    (k.type = .frac →
      freqError .binary64 fin fout k =
        ((k.mul * fin / k.p +
          f64Floor (f64Div (f64Mul (f64Div (f64OfNat k.num) (f64OfNat k.den)) (f64OfNat fin)) (f64OfNat k.p)) : Nat) -
            fout : Int).natAbs ∧
      freqError .exact fin fout k = ((k.mul * fin / k.p + k.num * fin / (k.den * k.p) : Nat) - fout : Int).natAbs))

/-- 41_pll_solver.md R169, the part that holds in both modes: the bounds of every configuration found, the integer type's
fields, and the error. -/
def Obligations.FoundConfigurationBounds : Prop :=
  ∀ (c : Cfg) (fin fout d : Nat) (k : PllConfig), 1 ≤ fin → 1 ≤ fout → pllSolve c fin fout = some (k, d) →
    1 ≤ k.p ∧ k.p ≤ 7 ∧ 2 ≤ k.mul ∧ k.mul ≤ 3072 ∧ inOk c fin k.p = true ∧
    (k.type = .int → k.num = 0 ∧ k.den = 0) ∧
    d = freqError c.fractMode fin fout k ∧ d < fout

/-- 41_pll_solver.md R168, R169 in `EXACT` mode: a fractional configuration has `2 ≤ den ≤ 65535` and `1 ≤ num < den`. -/
def Obligations.ExactFractionBounds : Prop :=
  ∀ (c : Cfg) (fin fout d : Nat) (k : PllConfig), 1 ≤ fin → c.fractMode = .exact →
    pllSolve c fin fout = some (k, d) → k.type = .frac →
    2 ≤ k.den ∧ k.den ≤ 65535 ∧ 1 ≤ k.num ∧ k.num < k.den

/-- 41_pll_solver.md R169 in `BINARY64` mode: a fractional configuration has `2 ≤ den ≤ 65535` and `1 ≤ num < den`, for every
32-bit `fin` and every `fout` of the output sets. -/
def Obligations.Binary64FractionBounds : Prop :=
  ∀ (c : Cfg) (fin d : Nat) (fout : Nat) (k : PllConfig), 1 ≤ fin → fin < 2 ^ 32 → fout ∈ outSet .full →
    c.fractMode = .binary64 → pllSolve c fin fout = some (k, d) → k.type = .frac →
    2 ≤ k.den ∧ k.den ≤ 65535 ∧ 1 ≤ k.num ∧ k.num < k.den

/-- 00_scope.md R11: every binary64 operation of the search gives the binary64 nearest the exact result, ties to even
(`nearestEven`): the rounding itself, which is finite wherever the exact value is below 2^1023; division `⊘`, multiplication
`⊗`, subtraction `⊖` (of a value that is not larger, the only case of the search), and `double`. -/
def Obligations.RoundingIsNearestEven : Prop :=
  (∀ (n d : Nat) (x : Int), 0 < d →
    ((n : ℚ) / d * (2 : ℚ) ^ x < 2 ^ 1023 → f64Finite (f64Round n d x)) ∧
    (f64Finite (f64Round n d x) → nearestEven (f64Round n d x) ((n : ℚ) / d * (2 : ℚ) ^ x))) ∧
  (∀ (a b : Binary64), f64Finite a → f64Finite b →
    (f64Value b ≠ 0 → f64Value a / f64Value b < 2 ^ 1023 → nearestEven (f64Div a b) (f64Value a / f64Value b)) ∧
    (f64Value a * f64Value b < 2 ^ 1023 → nearestEven (f64Mul a b) (f64Value a * f64Value b)) ∧
    (f64Value b ≤ f64Value a → f64Value a - f64Value b < 2 ^ 1023 →
      nearestEven (f64Sub a b) (f64Value a - f64Value b))) ∧
  (∀ n : Nat, n < 2 ^ 1023 → nearestEven (f64OfNat n) n)

/-- 00_scope.md R11: `ffloor`, `fround` and the comparison are those of the exact values, and `double` is exact below
2^53. -/
def Obligations.Binary64Conversions : Prop :=
  (∀ x : Binary64, (f64Floor x : ℤ) = ⌊f64Value x⌋ ∧ (f64RoundHalfUp x : ℤ) = ⌊f64Value x + 1 / 2⌋) ∧
  (∀ x y : Binary64, f64Finite x → f64Finite y → (f64Lt x y = true ↔ f64Value x < f64Value y)) ∧
  (∀ n : Nat, n < 2 ^ 53 → f64Value (f64OfNat n) = n ∧ f64Finite (f64OfNat n))

/-- 41_pll_solver.md R157: `fract = rate ⊖ double(floor(rate))` is exact, and `0 ≤ fract < 1`, for every finite `rate` below
2^53. -/
def Obligations.FractIsExact : Prop :=
  ∀ rate : Binary64, f64Finite rate → f64Value rate < 2 ^ 53 →
    f64Value (f64Sub rate (f64OfNat (f64Floor rate))) = f64Value rate - f64Floor rate ∧
    0 ≤ f64Value (f64Sub rate (f64OfNat (f64Floor rate))) ∧ f64Value (f64Sub rate (f64OfNat (f64Floor rate))) < 1

/-! ## PLL_START -/

/-- 42_pll_start.md R200, R205 to R211, R213, R215, R218 (PLL_START): when the search finds a configuration and every
transaction succeeds, the command ends `OK`, `PLL_STATE` is `Updated` (not `Locked`), and the transactions issued are exactly
those of the sequence's writes, in step order (first clause). The second clause gives the sequence, step by step: at step 1 the
writes that the record lists for `fout`, in list order, none where it lists none (its form as a list of entries is the
model's choice, log 12); then steps 2 to 14. -/
def Obligations.PllStartRunsSequence : Prop :=
  (∀ (s : State) (xm src sync : Byte) (fin fout : Word) (k : PllConfig), pllReady s fin fout k →
    instrExists s.cfg (.pllStart xm src sync fin fout) → pllStable s.cfg fout →
    cleanFor (stepsCount s.cfg (startupSteps s.cfg xm src sync fout k)) s → answered s →
    ∃ t, exec (.pllStart xm src sync fin fout) s = .next t ∧ t.rsp0 = 0#32 ∧ t.rsp1 = 0#32 ∧ t.busy = false ∧
      t.pllState = .updated ∧
      t.trace = s.trace ++ (stepsTxns s.cfg s.mem (startupSteps s.cfg xm src sync fout k)).map Prod.snd ∧
      t.mem = replay ((stepsTxns s.cfg s.mem (startupSteps s.cfg xm src sync fout k)).map Prod.snd) s.mem) ∧
  (∀ (c : Cfg) (xm src sync : Byte) (fout : Word) (k : PllConfig) (bypass : List (Descriptor × Word)),
    ((∃ before after, c.mclkBypass = before ++ (fout, bypass) :: after ∧ ∀ e ∈ before, e.1 ≠ fout) ∨
      (bypass = [] ∧ ∀ e ∈ c.mclkBypass, e.1 ≠ fout)) →
    startupSteps c xm src sync fout k =
      bypass.map (fun write => (1, write.1, write.2)) ++
      [(2, c.pllPwr, c.pllPwrOff), (3, c.xtalPwr, c.xtalPwrOn), (4, c.xtalMode, xm.setWidth 32),
       (5, c.pllSrc, src.setWidth 32), (6, c.pllType, if k.type = .int then c.typeCodeInt else c.typeCodeFrac),
       (7, c.syncSrc, sync.setWidth 32), (8, c.prescaler, BitVec.ofNat 32 k.p), (9, c.mult, BitVec.ofNat 32 k.mul),
       (10, c.num, BitVec.ofNat 32 k.num), (11, c.den, BitVec.ofNat 32 k.den), (12, c.pllPwr, c.pllPwrOn),
       (13, c.update, 1#32), (14, c.update, 0#32)])

/-- 42_pll_start.md R212 (PLL_START): the first failing transaction ends the command with `TRANSPORT_ERR`, its step and its
code; every transaction before it keeps its effect, none after it is issued, `PLL_STATE` stays `Configuring`. -/
def Obligations.PllStartFailsAtTransaction : Prop :=
  ∀ (s : State) (xm src sync : Byte) (fin fout : Word) (k : PllConfig) (j : Nat) (x : Fin 15 × Txn), pllReady s fin fout k →
    instrExists s.cfg (.pllStart xm src sync fin fout) → pllStable s.cfg fout → cleanFor j s →
    (stepsTxns s.cfg s.mem (startupSteps s.cfg xm src sync fout k))[j]? = some x →
    answered s → (drawAt s j).undisturbed → (drawAt s j).code ≠ 0#32 →
    ∃ t, exec (.pllStart xm src sync fin fout) s = .next t ∧
      t.rsp0 = BitVec.ofNat 32 (256 * x.1.val + 3) ∧ t.rsp1 = (drawAt s j).code ∧ t.busy = false ∧
      t.pllState = .configuring ∧
      t.trace = s.trace ++ ((stepsTxns s.cfg s.mem (startupSteps s.cfg xm src sync fout k)).take j).map Prod.snd ++
        [x.2.failed (drawAt s j).code] ∧
      t.mem = replay (((stepsTxns s.cfg s.mem (startupSteps s.cfg xm src sync fout k)).take j).map Prod.snd) s.mem

/-- 42_pll_start.md R217 (PLL_START), with the premise R217 needs and does not say, that the fields of steps 12 to 14 do not
overlap those of steps 5 to 11 either: after the command ends `OK`, the PLL fields hold `p`, `mul`, `num` and `den` (each to
its field's width), `F_UPDATE` holds 0 and `F_PLL_PWR` holds `PLL_PWR_ON`. -/
def Obligations.PllFieldsHoldConfiguration : Prop :=
  ∀ (s : State) (xm src sync : Byte) (fin fout : Word) (k : PllConfig), pllReady s fin fout k → s.mem.wf →
    instrExists s.cfg (.pllStart xm src sync fin fout) → pllStable s.cfg fout →
    cleanFor (stepsCount s.cfg (startupSteps s.cfg xm src sync fout k)) s → answered s →
    [s.cfg.pllSrc, s.cfg.pllType, s.cfg.syncSrc, s.cfg.prescaler, s.cfg.mult, s.cfg.num, s.cfg.den, s.cfg.pllPwr,
      s.cfg.update].Pairwise (fieldsDisjoint s.cfg) →
    ∃ t, exec (.pllStart xm src sync fin fout) s = .next t ∧ t.rsp0 = 0#32 ∧
      ∀ d v, (d, v) ∈ [(s.cfg.pllSrc, src.setWidth 32), (s.cfg.pllType, typeCode s.cfg k.type),
          (s.cfg.syncSrc, sync.setWidth 32), (s.cfg.prescaler, BitVec.ofNat 32 k.p), (s.cfg.mult, BitVec.ofNat 32 k.mul),
          (s.cfg.num, BitVec.ofNat 32 k.num), (s.cfg.den, BitVec.ofNat 32 k.den), (s.cfg.pllPwr, s.cfg.pllPwrOn),
          (s.cfg.update, 0#32)] →
        ∀ j, j < d.bc → fieldBit s.cfg t.mem d.addr d.bs j = (v : Word).getLsbD j

/-- 42_pll_start.md R212, R216, R218 (frame of PLL_START, also when it fails): with no other agent acting, every register that
no descriptor of the sequence touches reads as before, no request register, input or configuration changes, and `PLL_STATE`
is unchanged, `Configuring` or `Updated`. -/
def Obligations.PllStartFrame : Prop :=
  ∀ (s t : State) (xm src sync : Byte) (fin fout : Word), undisturbed s →
    exec (.pllStart xm src sync fin fout) s = .next t →
    (∀ r x, (r, x) ∉ instrTouches s.cfg (.pllStart xm src sync fin fout) → regGet t.mem r x = regGet s.mem r x) ∧
    t.req = s.req ∧ t.transportBound = s.transportBound ∧ t.cfg = s.cfg ∧ t.host = s.host ∧
    (t.pllState = s.pllState ∨ t.pllState = .configuring ∨ t.pllState = .updated)

/-- 42_pll_start.md R213, R214, 10_state.md R36: in any step, `PLL_STATE` comes to `Locked` only from `Updated`, to `Updated`
or `Configuring` only by a started PLL_START, and to `Unconfigured` only where a reset may have arrived. -/
def Obligations.PllStateTransitions : Prop :=
  ∀ (s t : State), step s = .next t →
    (t.pllState = .locked → s.pllState = .locked ∨ s.pllState = .updated) ∧
    (t.pllState = .updated ∨ t.pllState = .configuring → t.pllState = s.pllState ∨
      (s.busy = true ∧ ∃ xm src sync fin fout, decode s.req = .instr (.pllStart xm src sync fin fout))) ∧
    (t.pllState = .unconfigured → s.pllState = .unconfigured ∨ (s.busy = true ∧ ¬ noResetComing s) ∨
      (s.busy = false ∧ ∃ req rest, s.host = .reset req :: rest))

/-- 42_pll_start.md R214: the lock is a step of the device, taken only from `Updated`, and changes nothing else. -/
def Obligations.DeviceTakesLock : Prop :=
  ∀ (s : State) (rest : List HostAct), s.busy = false → s.host = .env .lock :: rest →
    (s.pllState = .updated → step s = .next { s with host := rest, pllState := .locked }) ∧
    (s.pllState ≠ .updated → step s = .next { s with host := rest })

/-- 10_state.md R33, 20_memory.md R68 (between commands; log 14): another agent's write of a register that exists sets that
register to the value, at the register's width, changes no other, and is recorded. -/
def Obligations.AgentWritesRegister : Prop :=
  ∀ (s : State) (r : Regime) (a v : Word) (rest : List HostAct), s.busy = false → s.host = .env (.write a v) :: rest →
    s.w = Work.idle → s.mem.wf → registerExists s.cfg r a = true →
    ∃ t, step s = .next t ∧ regGet t.mem r a = clip r v ∧
      (∀ q x, (q, x) ≠ (r, a) → regGet t.mem q x = regGet s.mem q x) ∧
      t.trace = s.trace ++ [.otherWrite r a (clip r v)] ∧ t = { s with host := rest, mem := t.mem, trace := t.trace }

/-! ## Reset, invariants, the whole machine -/

/-- 10_state.md R38, R40: what reset leaves. (The other fields of the reset state are the model's choices, logs 2 to 5, 7,
11, 13, 14; nothing is stated of them here.) -/
def Obligations.ResetState : Prop :=
  State.reset.busy = false ∧ State.reset.rsp0 = 0#32 ∧ State.reset.rsp1 = 0#32 ∧ State.reset.w.step = 0 ∧
  State.reset.pllState = .unconfigured

/-- The invariant of `StepKeepsInvariant` holds at reset (the memory part rests on the model's choice of an empty register
space, log 5). -/
def Obligations.ResetMeetsInvariant : Prop := State.reset.Inv

/-- 10_state.md R20, R30 to R32, 30_encoding.md R90, R91: every step keeps the invariant: the register space is canonical and
lists only registers that exist, the working state holds nothing between commands, and the response is one the engine can
have written. -/
def Obligations.StepKeepsInvariant : Prop := ∀ (s t : State), s.Inv → step s = .next t → t.Inv

/-- 10_state.md R33, 20_memory.md R50, R62: in every step the register space changes only by the writes that the step
records, and every transaction of the engine is of a register that the running instruction touches. So the register space
is kept over a reset too, which is the model's choice (log 10; 10_state.md R39 leaves it unspecified). -/
def Obligations.StepReplaysItsEvents : Prop :=
  ∀ (s t : State), step s = .next t →
    ∃ evs, t.trace = s.trace ++ evs ∧ t.mem = replay evs s.mem ∧
      ∀ e ∈ evs, registerExists s.cfg e.place.1 e.place.2 = true ∧
        (e.isEngine = true → s.busy = true ∧
          ∃ i, decode s.req = .instr i ∧ e.place ∈ instrTouches s.cfg i)

/-- 10_state.md R28, R41: no step changes the configuration. -/
def Obligations.ConfigurationIsConstant : Prop := ∀ (s t : State), step s = .next t → t.cfg = s.cfg

/-- 10_state.md R22, R25: the engine's run of a command changes no request register (but for a reset) and never
`TRANSPORT_BOUND`; it leaves the host's pending actions alone and ends with `BUSY` 0. -/
def Obligations.EngineLeavesItsInputs : Prop :=
  ∀ (s t : State), s.busy = true → step s = .next t →
    t.transportBound = s.transportBound ∧ t.host = s.host ∧ t.busy = false ∧ (noResetComing s → t.req = s.req)
end

