-- ==== Sys2Proof/Laws/Script.lean ====
section
/-! SUPPORT. What a part of a command does when the transport performs its transactions up to some point and nothing
happens between them: it issues exactly a list of transactions, and where a transaction fails or a reset arrives, exactly
the part of the list before it. One lemma for each of the engine's operations. -/

namespace Sys2Proof.Machine

/-! ## Runs of a list of transactions -/

/-- `t` is `s` after the transactions `L`, up to the working state (whose step and footprint stay). -/
structure Ran (s : State) (L : List Txn) (t : State) : Prop where
  step : t.w.step = s.w.step
  touched : t.w.touched = s.w.touched
  eq : t = { s with draws := s.draws.drop L.length, trace := s.trace ++ L, mem := replay L s.mem, w := t.w }

theorem replay_append (L L' : List Txn) (m : Memory) : replay (L ++ L') m = replay L' (replay L m) := by
  simp [replay]

@[simp] theorem replay_nil (m : Memory) : replay [] m = m := rfl

@[simp] theorem replay_cons (t : Txn) (L : List Txn) (m : Memory) : replay (t :: L) m = replay L (applyTxn m t) := rfl

namespace Ran

variable {s t u : State} {L L' : List Txn}

theorem refl (s : State) : Ran s [] s := ⟨rfl, rfl, by simp⟩

theorem trans (h : Ran s L t) (h' : Ran t L' u) : Ran s (L ++ L') u := by
  refine ⟨h'.step.trans h.step, h'.touched.trans h.touched, ?_⟩
  have e := h.eq
  have e' := h'.eq
  rw [e] at e'
  rw [e']
  simp [replay_append, List.drop_drop]

/-- A change of the working state that keeps its step and footprint is no transaction. -/
theorem work {w : Work} (h : Ran s L t) (hs : w.step = t.w.step) (ht : w.touched = t.w.touched) :
    Ran s L (setWork w t) := by
  refine ⟨hs.trans h.step, ht.trans h.touched, ?_⟩
  have e := h.eq
  rw [e]
  rfl

theorem cfg (h : Ran s L t) : t.cfg = s.cfg := by rw [h.eq]
theorem mem (h : Ran s L t) : t.mem = replay L s.mem := by rw [h.eq]
theorem trace (h : Ran s L t) : t.trace = s.trace ++ L := by rw [h.eq]
theorem draws (h : Ran s L t) : t.draws = s.draws.drop L.length := by rw [h.eq]
theorem tail (h : Ran s L t) : t.tail = s.tail := by rw [h.eq]
theorem lateResets (h : Ran s L t) : t.lateResets = s.lateResets := by rw [h.eq]
theorem req (h : Ran s L t) : t.req = s.req := by rw [h.eq]
theorem host (h : Ran s L t) : t.host = s.host := by rw [h.eq]
theorem pllState (h : Ran s L t) : t.pllState = s.pllState := by rw [h.eq]
theorem transportBound (h : Ran s L t) : t.transportBound = s.transportBound := by rw [h.eq]

theorem drawAt (h : Ran s L t) (k : Nat) : drawAt t k = drawAt s (L.length + k) := by
  simp [Machine.drawAt, h.draws, h.tail]

theorem cleanFor {n : Nat} (h : Ran s L t) (hc : cleanFor (L.length + n) s) : cleanFor n t := by
  intro k hk
  rw [h.drawAt]
  exact hc _ (by omega)

end Ran

/-- How a part of a command stops at transaction `t` in state `u`: by a reset that arrives before it, or by its failure. -/
def stopAt {α : Type} (t : Txn) (u : State) : Res α :=
  match (nextDraw u).reset with
  | some req => .abandoned (resetEngine req (dropDraw u))
  | none => .raise (.transportError (nextDraw u).code) (logTxn (t.failed (nextDraw u).code) (dropDraw u))

theorem stopAt_bind {α β : Type} (t : Txn) (u : State) (f : α → State → Res β) :
    (stopAt t u : Res α).bind f = stopAt t u := by
  unfold stopAt
  split <;> rfl

/-- The part `x` of a command, run from `s`, issues exactly the transactions `L` where all of them succeed, and then has
value and state as `Q` says; where all before the `k`-th succeed and that one does not, it issues those before it and
stops there. -/
structure Script {α : Type} (x : Res α) (s : State) (L : List Txn) (Q : α → State → Prop) : Prop where
  clean : cleanFor L.length s → ∃ a t, x = .ok a t ∧ Ran s L t ∧ Q a t
  stop : ∀ k (hk : k < L.length), cleanFor k s → (drawAt s k).acts = [] →
    ((drawAt s k).reset = none → (drawAt s k).code ≠ 0#32) → ∃ u, Ran s (L.take k) u ∧ x = stopAt L[k] u

namespace Script

variable {α β : Type} {s t : State} {L L' : List Txn} {x : Res α}

theorem pure {Q : α → State → Prop} {a : α} (h : Ran s [] t) (hq : Q a t) : Script (.ok a t) s [] Q :=
  ⟨fun _ => ⟨a, t, rfl, h, hq⟩, fun k hk => absurd hk (by simp)⟩

theorem mono {Q Q' : α → State → Prop} (h : Script x s L Q) (hq : ∀ a t, Ran s L t → Q a t → Q' a t) :
    Script x s L Q' :=
  ⟨fun hc => let ⟨a, t, h1, h2, h3⟩ := h.clean hc; ⟨a, t, h1, h2, hq a t h2 h3⟩, h.stop⟩

/-- Two parts, one after the other. -/
theorem bind {Q : α → State → Prop} {Q' : β → State → Prop} {f : α → State → Res β} (h : Script x s L Q)
    (hf : ∀ a t, Ran s L t → Q a t → Script (f a t) t L' Q') : Script (x.bind f) s (L ++ L') Q' := by
  constructor
  · intro hc
    rw [List.length_append] at hc
    obtain ⟨a, t, hx, hr, hq⟩ := h.clean (cleanFor_mono hc (by omega))
    obtain ⟨b, u, hy, hr', hq'⟩ := (hf a t hr hq).clean (hr.cleanFor hc)
    exact ⟨b, u, by simp [hx, Res.bind, hy], hr.trans hr', hq'⟩
  · intro k hk hc hacts hcode
    rw [List.length_append] at hk
    by_cases hkl : k < L.length
    · obtain ⟨u, hr, hx⟩ := h.stop k hkl hc hacts hcode
      refine ⟨u, ?_, ?_⟩
      · rwa [List.take_append_of_le_length (by omega)]
      · rw [hx, stopAt_bind, List.getElem_append_left hkl]
    · obtain ⟨a, t, hx, hr, hq⟩ := h.clean (cleanFor_mono hc (by omega))
      have hidx : L.length + (k - L.length) = k := by omega
      have hd : Machine.drawAt t (k - L.length) = Machine.drawAt s k := by rw [hr.drawAt, hidx]
      obtain ⟨u, hr', hy⟩ := (hf a t hr hq).stop (k - L.length) (by omega)
        (hr.cleanFor (by rwa [hidx])) (by rw [hd]; exact hacts) (by rw [hd]; exact hcode)
      refine ⟨u, ?_, ?_⟩
      · have := hr.trans hr'
        rwa [show L ++ L'.take (k - L.length) = (L ++ L').take k by
          rw [List.take_append, List.take_of_length_le (l := L) (by omega)]] at this
      · rw [hx]
        simp only [Res.bind, hy]
        congr 1
        rw [List.getElem_append_right (by omega)]

/-- A part that starts by changing the working state only. -/
theorem of_ran {Q : α → State → Prop} (hr : Ran s [] t) (h : Script x t L Q) : Script x s L Q := by
  have hd : ∀ k, Machine.drawAt t k = Machine.drawAt s k := fun k => by rw [hr.drawAt]; simp
  constructor
  · intro hc
    obtain ⟨a, u, h1, h2, h3⟩ := h.clean (hr.cleanFor (by simpa using hc))
    exact ⟨a, u, h1, by simpa using hr.trans h2, h3⟩
  · intro k hk hc hacts hcode
    obtain ⟨u, h1, h2⟩ := h.stop k hk (hr.cleanFor (by simpa using hc)) (by rw [hd]; exact hacts) (by rw [hd]; exact hcode)
    exact ⟨u, by simpa using hr.trans h1, h2⟩

end Script

/-! ## Transactions -/

/-- The value that the next transaction's read of a register returns. -/
def drawnValue (r : Regime) (a : Word) (s : State) : Word := readValue r a (nextDraw s) (dropDraw s)

theorem drawnValue_stable {r : Regime} {a : Word} {s : State} (h : a ∉ s.cfg.volatileAddrs) :
    drawnValue r a s = regGet s.mem r a := by simp [drawnValue, readValue, h]

theorem issue_of_acts {r : Regime} {a : Word} {s : State} (hx : registerExists s.cfg r a = true)
    (ha : (nextDraw s).acts = []) :
    issue r a s = match (nextDraw s).reset with
      | some req => .abandoned (resetEngine req (dropDraw s))
      | none => .ok (nextDraw s) (dropDraw s) := by
  cases h : (nextDraw s).reset with
  | some req => simp [issue, h, beforeTxn_of_no_acts s ha]
  | none => simpa [beforeTxn_of_no_acts s ha] using issue_exists hx h

theorem ran_dropDraw (s : State) (t : Txn) (ht : applyTxn s.mem t = s.mem) : Ran s [t] (logTxn t (dropDraw s)) :=
  ⟨rfl, rfl, by simp [logTxn, dropDraw, replay, ht]⟩

theorem memRead_script (r : Regime) (a : Word) (s : State) (hx : registerExists s.cfg r a = true) :
    Script (memRead r a s) s [.read r a (drawnValue r a s)] (fun v t => v = drawnValue r a s ∧ t.w = s.w) := by
  constructor
  · intro hc
    have hd := cleanFor_next hc
    refine ⟨drawnValue r a s, logTxn (.read r a (drawnValue r a s)) (dropDraw s), ?_, ran_dropDraw _ _ rfl, rfl, rfl⟩
    simp [memRead, issue_clean hx hd, Res.bind, hd.2.2, drawnValue]
  · intro k hk _ hacts hcode
    have hk0 : k = 0 := by simpa using hk
    subst hk0
    rw [drawAt_zero] at hacts hcode
    refine ⟨s, Ran.refl s, ?_⟩
    unfold memRead stopAt
    rw [issue_of_acts hx hacts]
    cases hr : (nextDraw s).reset with
    | some req => rfl
    | none => simp [Res.bind, hcode hr, Txn.failed]

theorem memWrite_script (r : Regime) (a v : Word) (s : State) (hx : registerExists s.cfg r a = true) :
    Script (memWrite r a v s) s [.write r a (clip r v)] (fun _ t => t.w = s.w) := by
  constructor
  · intro hc
    have hd := cleanFor_next hc
    refine ⟨(), doTxn (.write r a (clip r v)) (dropDraw s), ?_, ⟨rfl, rfl, by simp [doTxn, dropDraw]⟩, rfl⟩
    simp [memWrite, issue_clean hx hd, Res.bind, hd.2.2]
  · intro k hk _ hacts hcode
    have hk0 : k = 0 := by simpa using hk
    subst hk0
    rw [drawAt_zero] at hacts hcode
    refine ⟨s, Ran.refl s, ?_⟩
    unfold memWrite stopAt
    rw [issue_of_acts hx hacts]
    cases hr : (nextDraw s).reset with
    | some req => rfl
    | none => simp [Res.bind, hcode hr, Txn.failed]

end Sys2Proof.Machine
end

