-- ==== Sys2Proof/Laws/Field.lean ====
section
/-! SUPPORT. Field accesses as lists of transactions: what `readField`, `writeField` and the sequencer issue, return and
leave, whatever the read registers return (`val k` is what the `k`-th read returns). -/

namespace Sys2Proof.Machine

/-! ## The accumulator -/

/-- `littleEndian` of values that come from anywhere. -/
def leSum (val : Nat → Word) : Nat → Nat
  | 0 => 0
  | n + 1 => leSum val n + (val n).toNat * 256 ^ n

theorem littleEndian_eq (m : Memory) (a : Word) (n : Nat) :
    littleEndian m a n = leSum (fun j => regGet m .byte (addrAt a j)) n := by
  induction n with
  | zero => rfl
  | succ n ih => simp [littleEndian, leSum, ih]

theorem leSum_congr {val val' : Nat → Word} {n : Nat} (h : ∀ j, j < n → val j = val' j) : leSum val n = leSum val' n := by
  induction n with
  | zero => rfl
  | succ n ih => simp [leSum, ih fun j hj => h j (by omega), h n (by omega)]

theorem leSum_lt (val : Nat → Word) (h : ∀ j, (val j).toNat < 256) (n : Nat) : leSum val n < 256 ^ n := by
  induction n with
  | zero => simp [leSum]
  | succ n ih =>
    have := h n
    simp only [leSum, pow_succ]
    nlinarith

/-- One accumulation step adds the next digit. -/
theorem accumulate_leSum (val : Nat → Word) (h : ∀ j, (val j).toNat < 256) {i : Nat} (hi : i < 8) :
    accumulate (BitVec.ofNat 64 (leSum val i)) i (val i) = BitVec.ofNat 64 (leSum val (i + 1)) := by
  have hl := leSum_lt val h i
  have hl' := leSum_lt val h (i + 1)
  have hp : 256 ^ i = 2 ^ (8 * i) := by rw [show (256 : Nat) = 2 ^ 8 by norm_num, ← pow_mul]
  have hb : (256 : Nat) ^ (i + 1) ≤ 256 ^ 8 := Nat.pow_le_pow_right (by norm_num) (by omega)
  have hb0 : (256 : Nat) ^ i ≤ 256 ^ 8 := Nat.pow_le_pow_right (by norm_num) (by omega)
  have h64 : (256 : Nat) ^ 8 = 2 ^ 64 := by norm_num
  apply BitVec.eq_of_toNat_eq
  unfold accumulate
  rw [BitVec.toNat_or, BitVec.toNat_shiftLeft, BitVec.toNat_ofNat, BitVec.toNat_ofNat, BitVec.toNat_setWidth,
    Nat.mod_eq_of_lt (show leSum val i < 2 ^ 64 by omega), Nat.mod_eq_of_lt (show leSum val (i + 1) < 2 ^ 64 by omega),
    Nat.mod_eq_of_lt (show (val i).toNat < 2 ^ 64 by have := h i; omega)]
  have hv : (val i).toNat * 256 ^ i < 256 ^ (i + 1) := by
    rw [pow_succ, mul_comm]
    exact Nat.mul_lt_mul_of_pos_left (h i) (by positivity)
  have hsh : (val i).toNat <<< (8 * i) = (val i).toNat * 256 ^ i := by rw [Nat.shiftLeft_eq, hp]
  rw [hsh, Nat.mod_eq_of_lt (by omega), Nat.or_comm]
  have := Nat.two_pow_add_eq_or_of_lt (i := 8 * i) (b := leSum val i) (by rw [← hp]; exact hl) (val i).toNat
  rw [show 2 ^ (8 * i) * (val i).toNat = (val i).toNat * 256 ^ i by rw [hp, mul_comm]] at this
  rw [← this, leSum, Nat.add_comm]

/-! ## What the reads return -/

/-- What the read of a register returns at the `k`-th coming transaction, in a run with nothing between. -/
def drawnAt (s : State) (k : Nat) (r : Regime) (a : Word) : Word :=
  if s.cfg.volatileAddrs.contains a then clip r (drawAt s k).fresh else regGet s.mem r a

theorem drawnValue_eq (r : Regime) (a : Word) (s : State) : drawnValue r a s = drawnAt s 0 r a := by
  simp [drawnValue, drawnAt, readValue, drawAt_zero]

theorem drawnAt_stable {s : State} {k : Nat} {r : Regime} {a : Word} (h : a ∉ s.cfg.volatileAddrs) :
    drawnAt s k r a = regGet s.mem r a := by simp [drawnAt, h]

theorem drawnAt_byte_lt (s : State) (k : Nat) (a : Word) : (drawnAt s k .byte a).toNat < 256 := by
  unfold drawnAt
  split
  · simp only [clip, BitVec.toNat_setWidth]
    omega
  · simp only [regGet, BitVec.toNat_setWidth]
    omega

/-- Reads change no register, so what a later read returns is known from the start. -/
theorem Ran.drawnAt {s t : State} {L : List Txn} (h : Ran s L t) (hm : replay L s.mem = s.mem) (k : Nat) (r : Regime)
    (a : Word) : drawnAt t k r a = drawnAt s (L.length + k) r a := by
  simp only [Machine.drawnAt, h.cfg, h.mem, hm, h.drawAt]

theorem replay_reads {L : List Txn} {m : Memory} (h : ∀ t ∈ L, ∃ r a v, t = .read r a v) : replay L m = m := by
  induction L with
  | nil => rfl
  | cons t L ih =>
    obtain ⟨r, a, v, rfl⟩ := h t (by simp)
    exact ih fun t ht => h t (by simp [ht])

/-! ## Bytes -/

/-- The reads of `k` byte registers from the `i`-th. -/
def readsFrom (a : Word) (i k : Nat) (val : Nat → Word) : List Txn :=
  (List.range' i k).map fun j => .read .byte (addrAt a j) (val j)

theorem readBytes_script (a : Word) (i k : Nat) (s : State)
    (hx : ∀ j, i ≤ j → j < i + k → registerExists s.cfg .byte (addrAt a j) = true) (val : Nat → Word)
    (hval : ∀ j, i ≤ j → j < i + k → val j = drawnAt s (j - i) .byte (addrAt a j)) :
    Script (readBytes a i k s) s (readsFrom a i k val)
      (fun _ t => ∀ v : Nat → Word, (∀ j, (v j).toNat < 256) → (∀ j, i ≤ j → j < i + k → v j = val j) →
        i + k ≤ 8 → s.w.acc = BitVec.ofNat 64 (leSum v i) → t.w.acc = BitVec.ofNat 64 (leSum v (i + k))) := by
  induction k generalizing i s with
  | zero => exact Script.pure (Ran.refl s) fun v _ _ _ h => by simpa using h
  | succ k ih =>
    have h1 := memRead_script .byte (addrAt a i) s (hx i (by omega) (by omega))
    have hv0 : drawnValue .byte (addrAt a i) s = val i := by
      rw [hval i (by omega) (by omega), drawnValue_eq, Nat.sub_self]
    rw [hv0] at h1
    have hL : readsFrom a i (k + 1) val = [Txn.read .byte (addrAt a i) (val i)] ++ readsFrom a (i + 1) k val := by
      simp [readsFrom, List.range'_succ]
    rw [hL]
    refine h1.bind fun b t hr hq => ?_
    have hset : Ran t [] (setAcc (accumulate t.w.acc i b) t) :=
      Ran.work (w := { t.w with acc := accumulate t.w.acc i b }) (Ran.refl t) rfl rfl
    refine Script.of_ran hset ((ih (i + 1) _ ?_ ?_).mono ?_)
    · intro j h1 h2
      simpa [hr.cfg] using hx j (by omega) (by omega)
    · intro j h1 h2
      rw [hset.drawnAt rfl, hr.drawnAt rfl, hval j (by omega) (by omega)]
      congr 1
      simp; omega
    · intro _ u _ hu v hlt hvj h8 hacc
      have := hu v hlt (fun j h1 h2 => hvj j (by omega) (by omega)) (by omega) ?_
      · rw [this]; congr 2; omega
      · simp only [setAcc_w]
        rw [hq.1, hq.2, hacc, ← hvj i (by omega) (by omega), accumulate_leSum v hlt (by omega)]

/-- The writes of `k` byte registers from the `i`-th. -/
def writesFrom (a : Word) (i k : Nat) (acc : BitVec 64) : List Txn :=
  (List.range' i k).map fun j => .write .byte (addrAt a j) (accByte acc j)

theorem clip_accByte (acc : BitVec 64) (i : Nat) : clip .byte (accByte acc i) = accByte acc i := by
  apply BitVec.eq_of_toNat_eq
  simp [clip, accByte]

theorem writeBytes_script (a : Word) (i k : Nat) (s : State)
    (hx : ∀ j, i ≤ j → j < i + k → registerExists s.cfg .byte (addrAt a j) = true) :
    Script (writeBytes a i k s) s (writesFrom a i k s.w.acc) (fun _ _ => True) := by
  induction k generalizing i s with
  | zero => exact Script.pure (Ran.refl s) trivial
  | succ k ih =>
    have h1 := memWrite_script .byte (addrAt a i) (accByte s.w.acc i) s (hx i (by omega) (by omega))
    rw [clip_accByte] at h1
    rw [show writesFrom a i (k + 1) s.w.acc =
      [Txn.write .byte (addrAt a i) (accByte s.w.acc i)] ++ writesFrom a (i + 1) k s.w.acc by
      simp [writesFrom, List.range'_succ]]
    refine h1.bind fun b t hr hq => ?_
    rw [← hq]
    exact ih (i + 1) t fun j h1 h2 => by simpa [hr.cfg] using hx j (by omega) (by omega)

/-! ## Fields -/

/-- The register of the `k`-th read of a field's command. -/
def readPlace (c : Cfg) (a : Word) (k : Nat) : Word :=
  match regimeOf c a with
  | .byte => addrAt a k
  | .word => addrAt a (4 * k)

/-- What the `k`-th read of a field's command returns, in a run with nothing between. -/
def fieldDrawn (s : State) (a : Word) (k : Nat) : Word := drawnAt s k (regimeOf s.cfg a) (readPlace s.cfg a k)

/-- `readTxns` of values that come from anywhere. -/
def readTxnsOf (c : Cfg) (a : Word) (bs bc : Nat) (val : Nat → Word) : List Txn :=
  match regimeOf c a with
  | .byte => readsFrom a 0 (regCount bs bc) val
  | .word =>
    if bs + bc ≤ 32 then [.read .word a (val 0)] else [.read .word a (val 0), .read .word (addrAt a 4) (val 1)]

/-- The value of a field read from the values its reads return. -/
def fieldOf (c : Cfg) (a : Word) (bs bc : Nat) (val : Nat → Word) : Word :=
  match regimeOf c a with
  | .byte => fieldOfAcc (BitVec.ofNat 64 (leSum val (regCount bs bc))) bs bc
  | .word =>
    if bs + bc ≤ 32 then fieldOfWord (val 0) bs bc else fieldOfSpan c.spanCombine (val 0) (val 1) bs bc

theorem addrAt_zero (a : Word) : addrAt a 0 = a := by simp [addrAt]

theorem regCount_le {bs bc : Nat} (h : bs ≤ 32) (hc : bc ≤ 32) : regCount bs bc ≤ 8 := by
  unfold regCount; omega

theorem ran_setRegime (r : Regime) (s : State) : Ran s [] (setRegime r s) :=
  Ran.work (w := { s.w with regime := r }) (Ran.refl s) rfl rfl

theorem ran_startBytes (n : Nat) (s : State) : Ran s [] (startBytes n s) :=
  Ran.work (w := { s.w with n := n, acc := 0#64 }) (Ran.refl s) rfl rfl

theorem ran_setAcc (acc : BitVec 64) (s : State) : Ran s [] (setAcc acc s) :=
  Ran.work (w := { s.w with acc := acc }) (Ran.refl s) rfl rfl

theorem ran_setW0 (v : Word) (s : State) : Ran s [] (setW0 v s) :=
  Ran.work (w := { s.w with w0 := v }) (Ran.refl s) rfl rfl

theorem ran_setW1 (v : Word) (s : State) : Ran s [] (setW1 v s) :=
  Ran.work (w := { s.w with w1 := v }) (Ran.refl s) rfl rfl

theorem Ran.drawnAt_nil {s t : State} (h : Ran s [] t) (k : Nat) (r : Regime) (a : Word) :
    Machine.drawnAt t k r a = Machine.drawnAt s k r a := by
  rw [h.drawnAt rfl]; simp

theorem fieldExists_byte {c : Cfg} {a : Word} {bs bc : Nat} (h : fieldExists c a bs bc) (hr : regimeOf c a = .byte)
    {j : Nat} (hj : j < regCount bs bc) : registerExists c .byte (addrAt a j) = true := by
  have := h (addrAt a j)
  unfold touchedBy at this
  rw [hr] at this
  exact this (List.mem_map.mpr ⟨j, by simpa using hj, rfl⟩)

theorem fieldExists_word {c : Cfg} {a : Word} {bs bc : Nat} (h : fieldExists c a bs bc) (hr : regimeOf c a = .word) :
    registerExists c .word a = true := by
  have := h a
  unfold touchedBy at this
  rw [hr] at this
  exact this (by simp only; split <;> simp)

theorem fieldExists_span {c : Cfg} {a : Word} {bs bc : Nat} (h : fieldExists c a bs bc) (hr : regimeOf c a = .word)
    (hs : ¬ bs + bc ≤ 32) : registerExists c .word (addrAt a 4) = true := by
  have := h (addrAt a 4)
  unfold touchedBy at this
  rw [hr] at this
  exact this (by simp [hs])

/-- The byte-regime reads, from an empty accumulator. -/
theorem readAll_script (a : Word) (n : Nat) (s : State) (hn : n ≤ 8)
    (hx : ∀ j, j < n → registerExists s.cfg .byte (addrAt a j) = true) (val : Nat → Word)
    (hval : ∀ j, val j = drawnAt s j .byte (addrAt a j)) :
    Script (readBytes a 0 n (startBytes n s)) s (readsFrom a 0 n val)
      (fun _ t => t.w.acc = BitVec.ofNat 64 (leSum val n)) := by
  have hs := ran_startBytes n s
  refine Script.of_ran hs ((readBytes_script a 0 n _ ?_ val ?_).mono ?_)
  · intro j _ hj
    simpa [hs.cfg] using hx j (by omega)
  · intro j _ hj
    rw [hs.drawnAt_nil]
    exact hval j
  · intro _ t _ h
    have := h val (fun j => by rw [hval]; exact drawnAt_byte_lt _ _ _) (fun _ _ _ => rfl) (by omega) (by simp [leSum])
    simpa using this

/-- `readField` as a list of transactions, whatever the registers return. -/
theorem readField_script (a : Word) (bs bc : Nat) (s : State) (hn : regCount bs bc ≤ 8)
    (hx : fieldExists s.cfg a bs bc) :
    Script (readField a bs bc s) s (readTxnsOf s.cfg a bs bc (fieldDrawn s a))
      (fun v _ => v = fieldOf s.cfg a bs bc (fieldDrawn s a)) := by
  unfold readField readTxnsOf fieldOf
  cases hr : regimeOf s.cfg a with
  | byte =>
    simp only
    have hs := ran_setRegime .byte s
    refine Script.of_ran hs ?_
    unfold readByteField
    have := (readAll_script a (regCount bs bc) (setRegime .byte s) hn
      (fun j hj => by simpa [hs.cfg] using fieldExists_byte hx hr hj) (fieldDrawn s a) (fun j => by
        rw [hs.drawnAt_nil]; simp [fieldDrawn, readPlace, hr])).bind
      (L' := []) (Q' := fun v _ => v = fieldOfAcc (BitVec.ofNat 64 (leSum (fieldDrawn s a) (regCount bs bc))) bs bc)
      (f := fun _ s => .ok (fieldOfAcc s.w.acc bs bc) s)
      (fun _ t _ hq => Script.pure (Ran.refl t) (by rw [hq]))
    simpa using this
  | word =>
    simp only
    have hs := ran_setRegime .word s
    have h0 : fieldDrawn s a 0 = drawnValue .word a (setRegime .word s) := by
      rw [drawnValue_eq, hs.drawnAt_nil]; simp [fieldDrawn, readPlace, hr, addrAt_zero]
    split
    · next hsp =>
      refine Script.of_ran hs ?_
      have := (memRead_script .word a (setRegime .word s) (by simpa [hs.cfg] using fieldExists_word hx hr)).bind
        (L' := []) (Q' := fun v _ => v = fieldOfWord (fieldDrawn s a 0) bs bc)
        (f := fun w s => .ok (fieldOfWord w bs bc) (setW0 w s))
        (fun w t _ hq => Script.pure (ran_setW0 w t) (by rw [hq.1, h0]))
      rw [h0]
      simpa [readWordField, h0] using this
    · next hsp =>
      refine Script.of_ran hs ?_
      unfold readSpanField
      have h1 := memRead_script .word a (setRegime .word s) (by simpa [hs.cfg] using fieldExists_word hx hr)
      rw [← h0] at h1
      refine h1.bind (L' := [.read .word (addrAt a 4) (fieldDrawn s a 1)]) fun w0 t ht hq => ?_
      have hw0 := ran_setW0 w0 t
      refine Script.of_ran hw0 ?_
      have h2 := memRead_script .word (addrAt a 4) (setW0 w0 t)
        (by simpa [hw0.cfg, ht.cfg, hs.cfg] using fieldExists_span hx hr hsp)
      have h4 : drawnValue .word (addrAt a 4) (setW0 w0 t) = fieldDrawn s a 1 := by
        rw [drawnValue_eq, hw0.drawnAt_nil, ht.drawnAt rfl, hs.drawnAt_nil]
        simp [fieldDrawn, readPlace, hr]
      rw [h4] at h2
      have := h2.bind (L' := []) (f := fun w1 s => .ok (fieldOfSpan s.cfg.spanCombine w0 w1 bs bc) (setW1 w1 s))
        (Q' := fun v _ => v = fieldOfSpan s.cfg.spanCombine (fieldDrawn s a 0) (fieldDrawn s a 1) bs bc)
        (fun w1 u hu hq1 => Script.pure (ran_setW1 w1 u) (by
          rw [hq1.1, hq.1, hu.cfg, hw0.cfg, ht.cfg, hs.cfg]))
      simpa using this

/-- `writeTxns` where the reads return values that come from anywhere. -/
def writeTxnsOf (c : Cfg) (a : Word) (bs bc : Nat) (value : Word) (val : Nat → Word) : List Txn :=
  match regimeOf c a with
  | .byte =>
    if bs = 0 ∧ bc = 8 then [.write .byte a (value &&& 0xFF#32)]
    else
      readsFrom a 0 (regCount bs bc) val ++
        writesFrom a 0 (regCount bs bc)
          (accWithField (BitVec.ofNat 64 (leSum val (regCount bs bc))) bs bc (value &&& mask bc))
  | .word =>
    if bs + bc ≤ 32 then
      if bs = 0 ∧ bc = 32 then [.write .word a value]
      else [.read .word a (val 0), .write .word a (wordWithField (val 0) bs bc (value &&& mask bc))]
    else
      [.read .word a (val 0), .read .word (addrAt a 4) (val 1),
       .write .word a (spanFirst (val 0) bs (value &&& mask bc)),
       .write .word (addrAt a 4) (spanSecond (val 1) bs bc (value &&& mask bc))]

theorem clip_byte_fast (v : Word) : clip .byte (v &&& mask 8) = v &&& 0xFF#32 := by
  unfold clip mask
  ext i hi
  simp
  interval_cases i <;> simp

theorem word_fast (v : Word) : v &&& mask 32 = v := by
  unfold mask
  ext i hi
  simp
  interval_cases i <;> simp

/-- The byte-regime read-modify-write. -/
theorem writeByteField_script (a : Word) (bs bc : Nat) (vm : Word) (s : State) (hn : regCount bs bc ≤ 8)
    (hx : ∀ j, j < regCount bs bc → registerExists s.cfg .byte (addrAt a j) = true) (val : Nat → Word)
    (hval : ∀ j, val j = drawnAt s j .byte (addrAt a j)) :
    Script (writeByteField a bs bc vm s) s
      (readsFrom a 0 (regCount bs bc) val ++
        writesFrom a 0 (regCount bs bc) (accWithField (BitVec.ofNat 64 (leSum val (regCount bs bc))) bs bc vm))
      (fun _ _ => True) := by
  unfold writeByteField
  refine (readAll_script a _ s hn hx val hval).bind fun _ t ht hq => ?_
  have hs := ran_setAcc (accWithField t.w.acc bs bc vm) t
  refine Script.of_ran hs ?_
  have := writeBytes_script a 0 (regCount bs bc) (setAcc (accWithField t.w.acc bs bc vm) t)
    (fun j _ hj => by simpa [hs.cfg, ht.cfg] using hx j (by omega))
  simpa [hq] using this

/-- The non-spanning word read-modify-write. -/
theorem writeWordField_script (a : Word) (bs bc : Nat) (vm : Word) (s : State)
    (hx : registerExists s.cfg .word a = true) :
    Script (writeWordField a bs bc vm s) s
      [.read .word a (drawnValue .word a s), .write .word a (wordWithField (drawnValue .word a s) bs bc vm)]
      (fun _ _ => True) := by
  unfold writeWordField
  refine (memRead_script .word a s hx).bind (L' := [_]) fun w t ht hq => ?_
  have hs := ran_setW0 w t
  refine Script.of_ran hs ?_
  rw [← hq.1]
  exact (memWrite_script .word a _ (setW0 w t) (by simpa [hs.cfg, ht.cfg] using hx)).mono fun _ _ _ _ => trivial

/-- `writeField` as a list of transactions, whatever the registers return. -/
theorem writeField_script (a : Word) (bs bc : Nat) (v : Word) (s : State) (hn : regCount bs bc ≤ 8)
    (hx : fieldExists s.cfg a bs bc) :
    Script (writeField a bs bc v s) s (writeTxnsOf s.cfg a bs bc v (fieldDrawn s a)) (fun _ _ => True) := by
  unfold writeField writeTxnsOf
  cases hr : regimeOf s.cfg a with
  | byte =>
    simp only
    have hs := ran_setRegime .byte s
    split
    · next hf =>
      refine Script.of_ran hs ?_
      rw [hf.2, ← clip_byte_fast]
      have hx0 := fieldExists_byte hx hr (j := 0) (by simp [regCount, hf])
      rw [addrAt_zero] at hx0
      exact (memWrite_script .byte a _ _ (by simpa [hs.cfg] using hx0)).mono fun _ _ _ _ => trivial
    · refine Script.of_ran hs ?_
      exact writeByteField_script a bs bc _ _ hn (fun j hj => by simpa [hs.cfg] using fieldExists_byte hx hr hj) _
        (fun j => by rw [hs.drawnAt_nil]; simp [fieldDrawn, readPlace, hr])
  | word =>
    simp only
    have hs := ran_setRegime .word s
    have h0 : drawnValue .word a (setRegime .word s) = fieldDrawn s a 0 := by
      rw [drawnValue_eq, hs.drawnAt_nil]; simp [fieldDrawn, readPlace, hr, addrAt_zero]
    have hxa : registerExists (setRegime .word s).cfg .word a = true := by
      simpa [hs.cfg] using fieldExists_word hx hr
    split
    · split
      · next hf =>
        refine Script.of_ran hs ?_
        rw [hf.2, word_fast]
        exact (memWrite_script .word a _ _ hxa).mono fun _ _ _ _ => trivial
      · refine Script.of_ran hs ?_
        rw [← h0]
        exact writeWordField_script a bs bc _ _ hxa
    · next hsp =>
      refine Script.of_ran hs ?_
      unfold writeSpanField
      have hxb := fieldExists_span hx hr hsp
      have h1 := memRead_script .word a (setRegime .word s) hxa
      rw [h0] at h1
      refine h1.bind (L' := [_, _, _]) fun w0 t ht hq => ?_
      have hw0 := ran_setW0 w0 t
      refine Script.of_ran hw0 ?_
      have h2 := memRead_script .word (addrAt a 4) (setW0 w0 t) (by simpa [hw0.cfg, ht.cfg, hs.cfg] using hxb)
      have h4 : drawnValue .word (addrAt a 4) (setW0 w0 t) = fieldDrawn s a 1 := by
        rw [drawnValue_eq, hw0.drawnAt_nil, ht.drawnAt rfl, hs.drawnAt_nil]
        simp [fieldDrawn, readPlace, hr]
      rw [h4] at h2
      refine h2.bind (L' := [_, _]) fun w1 u hu hq1 => ?_
      have hw1 := ran_setW1 w1 u
      refine Script.of_ran hw1 ?_
      rw [hq.1, hq1.1]
      refine (memWrite_script .word a _ _ (by simpa [hw1.cfg, hu.cfg, hw0.cfg, ht.cfg] using hxa)).bind (L' := [_])
        fun _ x hx' _ => ?_
      exact (memWrite_script .word (addrAt a 4) _ x
        (by simpa [hx'.cfg, hw1.cfg, hu.cfg, hw0.cfg, ht.cfg, hs.cfg] using hxb)).mono fun _ _ _ _ => trivial

/-! ## Fields with no volatile register -/

theorem leSum_range (m : Memory) (a : Word) (val : Nat → Word) (n : Nat)
    (h : ∀ j, j < n → val j = regGet m .byte (addrAt a j)) : leSum val n = littleEndian m a n := by
  rw [littleEndian_eq]
  exact leSum_congr h

theorem readsFrom_stable (m : Memory) (a : Word) (val : Nat → Word) (n : Nat)
    (h : ∀ j, j < n → val j = regGet m .byte (addrAt a j)) : readsFrom a 0 n val = byteReads m a n := by
  unfold readsFrom byteReads readTxn
  rw [← List.range_eq_range']
  exact List.map_congr_left fun j hj => by rw [h j (by simpa using hj)]

/-- With no volatile register among those it reads, a field's command reads what the register space holds. -/
theorem fieldDrawn_byte {s : State} {a : Word} {bs bc : Nat} (h : fieldStable s.cfg a bs bc)
    (hr : regimeOf s.cfg a = .byte) {j : Nat} (hj : j < regCount bs bc) :
    fieldDrawn s a j = regGet s.mem .byte (addrAt a j) := by
  have hm := h (addrAt a j)
  unfold touchedBy at hm
  rw [hr] at hm
  have := hm (List.mem_map.mpr ⟨j, by simpa using hj, rfl⟩)
  simp [fieldDrawn, readPlace, hr, drawnAt_stable this]

theorem fieldDrawn_word {s : State} {a : Word} {bs bc : Nat} (h : fieldStable s.cfg a bs bc)
    (hr : regimeOf s.cfg a = .word) : fieldDrawn s a 0 = regGet s.mem .word a := by
  have hm := h a
  unfold touchedBy at hm
  rw [hr] at hm
  have := hm (by simp only; split <;> simp)
  simp [fieldDrawn, readPlace, hr, addrAt_zero, drawnAt_stable this]

theorem fieldDrawn_span {s : State} {a : Word} {bs bc : Nat} (h : fieldStable s.cfg a bs bc)
    (hr : regimeOf s.cfg a = .word) (hs : ¬ bs + bc ≤ 32) :
    fieldDrawn s a 1 = regGet s.mem .word (addrAt a 4) := by
  have hm := h (addrAt a 4)
  unfold touchedBy at hm
  rw [hr] at hm
  have := hm (by simp [hs])
  simp [fieldDrawn, readPlace, hr, drawnAt_stable this]

theorem readTxnsOf_stable {s : State} {a : Word} {bs bc : Nat} (h : fieldStable s.cfg a bs bc) :
    readTxnsOf s.cfg a bs bc (fieldDrawn s a) = readTxns s.cfg s.mem a bs bc := by
  unfold readTxnsOf readTxns
  cases hr : regimeOf s.cfg a with
  | byte => exact readsFrom_stable s.mem a _ _ fun j hj => fieldDrawn_byte h hr hj
  | word =>
    simp only
    split
    · rw [fieldDrawn_word h hr]; rfl
    · next hs => rw [fieldDrawn_word h hr, fieldDrawn_span h hr hs]; rfl

theorem writeTxnsOf_stable {s : State} {a : Word} {bs bc : Nat} (v : Word) (h : fieldStable s.cfg a bs bc) :
    writeTxnsOf s.cfg a bs bc v (fieldDrawn s a) = writeTxns s.cfg s.mem a bs bc v := by
  unfold writeTxnsOf writeTxns
  cases hr : regimeOf s.cfg a with
  | byte =>
    simp only
    split
    · rfl
    · rw [readsFrom_stable s.mem a _ _ fun j hj => fieldDrawn_byte h hr hj,
        leSum_range s.mem a _ _ fun j hj => fieldDrawn_byte h hr hj]
      simp only [writesFrom, newByte, ← List.range_eq_range']
  | word =>
    simp only
    split
    · split
      · rfl
      · rw [fieldDrawn_word h hr]; rfl
    · next hs => rw [fieldDrawn_word h hr, fieldDrawn_span h hr hs]; rfl

theorem readTxns_length (c : Cfg) (m : Memory) (a : Word) (bs bc : Nat) :
    (readTxns c m a bs bc).length = readCount c a bs bc := by
  unfold readTxns readCount byteReads
  cases regimeOf c a
  · simp
  · simp only; split <;> rfl

theorem writeTxns_length (c : Cfg) (m : Memory) (a : Word) (bs bc : Nat) (v : Word) :
    (writeTxns c m a bs bc v).length = writeCount c a bs bc := by
  unfold writeTxns writeCount byteReads
  cases regimeOf c a
  · simp only
    split
    · rfl
    · simp; omega
  · simp only
    split
    · split <;> rfl
    · rfl

theorem readTxnsOf_length (c : Cfg) (a : Word) (bs bc : Nat) (val : Nat → Word) :
    (readTxnsOf c a bs bc val).length = readCount c a bs bc := by
  unfold readTxnsOf readCount readsFrom
  cases regimeOf c a
  · simp
  · simp only; split <;> rfl

theorem writeTxnsOf_length (c : Cfg) (a : Word) (bs bc : Nat) (v : Word) (val : Nat → Word) :
    (writeTxnsOf c a bs bc v val).length = writeCount c a bs bc := by
  unfold writeTxnsOf writeCount readsFrom writesFrom
  cases regimeOf c a
  · simp only
    split
    · rfl
    · simp; omega
  · simp only
    split
    · split <;> rfl
    · rfl

/-! ## The sequencer -/

/-- `Ran` without the working state's step, which the sequencer moves. -/
structure RanSteps (s : State) (L : List Txn) (t : State) : Prop where
  touched : t.w.touched = s.w.touched
  eq : t = { s with draws := s.draws.drop L.length, trace := s.trace ++ L, mem := replay L s.mem, w := t.w }

theorem Ran.toSteps {s t : State} {L : List Txn} (h : Ran s L t) : RanSteps s L t := ⟨h.touched, h.eq⟩

theorem RanSteps.trans {s t u : State} {L L' : List Txn} (h : RanSteps s L t) (h' : RanSteps t L' u) :
    RanSteps s (L ++ L') u := by
  refine ⟨h'.touched.trans h.touched, ?_⟩
  have e := h.eq
  have e' := h'.eq
  rw [e] at e'
  rw [e']
  simp [replay_append, List.drop_drop]

theorem ranSteps_setStep (n : Fin 15) (s : State) : RanSteps s [] (setStep n s) := ⟨rfl, by simp [setStep]⟩

theorem RanSteps.drawAt {s t : State} {L : List Txn} (h : RanSteps s L t) (k : Nat) :
    drawAt t k = drawAt s (L.length + k) := by
  rw [h.eq]; simp [Machine.drawAt]

/-- The sequencer as a list of transactions, each with its step. -/
structure StepScript (x : Res Unit) (s : State) (L : List (Fin 15 × Txn)) : Prop where
  clean : cleanFor L.length s → ∃ t, x = .ok () t ∧ RanSteps s (L.map Prod.snd) t
  stop : ∀ k (hk : k < L.length), cleanFor k s → (drawAt s k).acts = [] →
    ((drawAt s k).reset = none → (drawAt s k).code ≠ 0#32) →
    ∃ u, RanSteps s ((L.take k).map Prod.snd) u ∧ u.w.step = L[k].1 ∧ x = stopAt L[k].2 u

theorem runSteps_script (c : Cfg) (steps : List (Fin 15 × Descriptor × Word))
    (hd : ∀ x ∈ steps, descriptorOk x.2.1 = true)
    (hx : ∀ x ∈ steps, fieldExists c x.2.1.addr x.2.1.bs x.2.1.bc)
    (hv : ∀ x ∈ steps, fieldStable c x.2.1.addr x.2.1.bs x.2.1.bc) (s : State) (hc : s.cfg = c) :
    StepScript (runSteps steps s) s (stepsTxns c s.mem steps) := by
  induction steps generalizing s with
  | nil =>
    exact ⟨fun _ => ⟨s, rfl, (Ran.refl s).toSteps⟩, fun k hk => absurd hk (by simp [stepsTxns])⟩
  | cons x rest ih =>
    obtain ⟨n, d, v⟩ := x
    have hs := ranSteps_setStep n s
    have hdk := hd (n, d, v) (by simp)
    simp only [descriptorOk, Bool.and_eq_true, decide_eq_true_eq] at hdk
    have hcs : (setStep n s).cfg = c := by simpa [setStep] using hc
    have hw := writeField_script d.addr d.bs d.bc v (setStep n s) (regCount_le (by omega) (by omega))
      (by rw [hcs]; exact hx (n, d, v) (by simp))
    rw [writeTxnsOf_stable v (by rw [hcs]; exact hv (n, d, v) (by simp)), hcs,
      show (setStep n s).mem = s.mem from rfl] at hw
    have hdr : ∀ k, drawAt (setStep n s) k = drawAt s k := fun k => rfl
    have hcl : ∀ k, cleanFor k s → cleanFor k (setStep n s) := fun k h => h
    have heq : runSteps ((n, d, v) :: rest) s = (writeField d.addr d.bs d.bc v (setStep n s)).bind
      fun _ s => runSteps rest s := rfl
    rw [heq]
    simp only [stepsTxns]
    set W := writeTxns c s.mem d.addr d.bs d.bc v with hW
    have hih : ∀ t, Ran (setStep n s) W t → StepScript (runSteps rest t) t (stepsTxns c (replay W s.mem) rest) := by
      intro t ht
      have := ih (fun x h => hd x (by simp [h])) (fun x h => hx x (by simp [h])) (fun x h => hv x (by simp [h])) t
        (by rw [ht.cfg, hcs])
      rwa [ht.mem] at this
    constructor
    · intro hcl'
      rw [List.length_append, List.length_map] at hcl'
      obtain ⟨_, t, hxw, hr, _⟩ := hw.clean (hcl _ (cleanFor_mono hcl' (by omega)))
      obtain ⟨u, hxu, hru⟩ := (hih t hr).clean (hr.cleanFor (hcl _ hcl'))
      refine ⟨u, by simp [hxw, Res.bind, hxu], ?_⟩
      have := (hs.trans hr.toSteps).trans hru
      simpa [List.map_append, Function.comp_def] using this
    · intro k hk hck hacts hcode
      rw [List.length_append, List.length_map] at hk
      by_cases hkl : k < W.length
      · obtain ⟨u, hr, hxu⟩ := hw.stop k hkl (hcl _ hck) hacts hcode
        refine ⟨u, ?_, ?_, ?_⟩
        · have := hs.trans hr.toSteps
          rw [List.take_append_of_le_length (by simp; omega), ← List.map_take, List.map_map]
          simpa [Function.comp_def] using this
        · rw [hr.step, List.getElem_append_left (by simpa using hkl)]
          simp [setStep]
        · rw [hxu, stopAt_bind, List.getElem_append_left (by simpa using hkl)]
          simp
      · obtain ⟨_, t, hxw, hr, _⟩ := hw.clean (hcl _ (cleanFor_mono hck (by omega)))
        have hidx : W.length + (k - W.length) = k := by omega
        have hdk' : drawAt t (k - W.length) = drawAt s k := by rw [hr.drawAt, hidx, hdr]
        obtain ⟨u, hru, hstep, hxu⟩ := (hih t hr).stop (k - W.length) (by omega)
          (hr.cleanFor (by rw [hidx]; exact hcl _ hck)) (by rw [hdk']; exact hacts) (by rw [hdk']; exact hcode)
        refine ⟨u, ?_, ?_, ?_⟩
        · have := (hs.trans hr.toSteps).trans hru
          rw [List.take_append, List.take_of_length_le (by simp; omega), List.map_append, List.map_map]
          simpa [Function.comp_def] using this
        · rw [hstep, List.getElem_append_right (by simp; omega)]
          simp
        · rw [hxw]
          simp only [Res.bind, hxu]
          congr 1
          rw [List.getElem_append_right (by simp; omega)]
          simp

/-! ## Whole bit-field commands -/

/-- Every reading instruction is a read command. -/
theorem exec_read {i : Instr} {a : Word} {bs bc : Nat} (h : readOperands i = some (a, bs, bc)) (s : State) :
    exec i s = readCommand a bs bc s ∧ bs ≤ 31 := by
  cases i <;> simp only [readOperands, Option.some.injEq, Prod.mk.injEq, reduceCtorEq] at h
  · obtain ⟨rfl, rfl, rfl⟩ := h
    exact ⟨rfl, by omega⟩
  · obtain ⟨rfl, rfl, rfl⟩ := h
    exact ⟨rfl, by omega⟩
  · obtain ⟨rfl, rfl, rfl⟩ := h
    exact ⟨rfl, by omega⟩

/-- Every writing instruction is a write command. -/
theorem exec_write {i : Instr} {a : Word} {bs bc : Nat} {v : Word} (h : writeOperands i = some (a, bs, bc, v))
    (s : State) : exec i s = writeCommand a bs bc v s ∧ bs ≤ 31 := by
  cases i <;> simp only [writeOperands, Option.some.injEq, Prod.mk.injEq, reduceCtorEq] at h
  all_goals
    obtain ⟨rfl, rfl, rfl, rfl⟩ := h
    exact ⟨rfl, by omega⟩

/-- The body of a read command that passes its checks. -/
theorem readCommand_ready {s : State} {a : Word} {bs bc : Nat} (he : engineReady s) (h1 : 1 ≤ bc) (h32 : bc ≤ 32) :
    readCommand a bs bc s = endCommand (readField a bs bc (beginCommand (touchedBy s.cfg a bs bc) s)) := by
  have hb : s.transportBound = true := he.2
  have hc : ¬ (bc = 0 ∨ bc > 32) := by omega
  simp [readCommand, command_wf he.1, withTransport, withBitCount, hb, hc]

/-- The body of a write command that passes its checks. -/
theorem writeCommand_ready {s : State} {a : Word} {bs bc : Nat} {v : Word} (he : engineReady s) (h1 : 1 ≤ bc)
    (h32 : bc ≤ 32) :
    writeCommand a bs bc v s =
      endCommand ((writeField a bs bc v (beginCommand (touchedBy s.cfg a bs bc) s)).bind fun _ s => .ok 0#32 s) := by
  have hb : s.transportBound = true := he.2
  have hc : ¬ (bc = 0 ∨ bc > 32) := by omega
  simp [writeCommand, command_wf he.1, withTransport, withBitCount, hb, hc]

/-- A command that issued the transactions `L` and ended with the value `v`. -/
structure Done (s : State) (L : List Txn) (v : Word) (t : State) : Prop where
  eq : t = { s with
    rsp0 := 0#32, rsp1 := v, busy := false, w := Work.idle, draws := s.draws.drop L.length, trace := s.trace ++ L,
    mem := replay L s.mem, lateResets := s.lateResets.tail }

theorem Ran.nextLate {s t : State} {l : List Word} {L : List Txn} (h : Ran (beginCommand l s) L t) :
    nextLate t = nextLate s := by rw [h.eq]; rfl

theorem Ran.done {s t : State} {l : List Word} {L : List Txn} (h : Ran (beginCommand l s) L t) (hl : answered s)
    (v : Word) : Done s L v (conclude 0#32 v t) := by
  have := h.eq
  constructor
  rw [conclude_answered (h.nextLate.trans hl), this]
  rfl

/-- How a command that stops at transaction `x` after the transactions `L`, in `STEP` `n`, answers. -/
def stopped (s : State) (L : List Txn) (n : Fin 15) (x : Txn) : State :=
  let d := drawAt s L.length
  let u : State := { s with draws := s.draws.drop (L.length + 1), trace := s.trace ++ L, mem := replay L s.mem }
  match d.reset with
  | some req => resetEngine req u
  | none => conclude (statusWord (.transportError d.code) n) d.code { u with trace := s.trace ++ L ++ [x.failed d.code] }

/-- The end of a command does not depend on the working state. -/
theorem conclude_setWork (a b : Word) (w : Work) (s : State) : conclude a b (setWork w s) = conclude a b s := by
  rcases conclude_cases a b s with ⟨hn, h⟩ | ⟨req, hn, h⟩
  · rw [h, conclude_answered (s := setWork w s) hn]; rfl
  · rw [h, conclude_late (s := setWork w s) hn]; rfl

theorem Ran.stopped {s t : State} {l : List Word} {L : List Txn} (h : Ran (beginCommand l s) L t) (x : Txn) :
    endCommand (stopAt x t) = .next (stopped s L 0 x) := by
  have hstep : t.w.step = 0 := h.step
  have hd : nextDraw t = Machine.drawAt s L.length := by
    rw [← drawAt_zero, h.drawAt]; rfl
  have hdrop : t.draws.tail = s.draws.drop (L.length + 1) := by rw [h.draws, List.tail_drop]; rfl
  have e := h.eq
  unfold stopAt Machine.stopped
  rw [hd]
  cases hreset : (Machine.drawAt s L.length).reset with
  | some req =>
    simp only [endCommand]
    congr 1
    rw [e]
    simp [hreset, resetEngine, dropDraw, beginCommand, List.tail_drop]
  | none =>
    simp only [endCommand, raiseError]
    simp only [logTxn_w, dropDraw_w, hstep, errorData]
    rw [← conclude_setWork _ _ s.w]
    rw [e]
    simp [hreset, setWork, logTxn, dropDraw, beginCommand, List.tail_drop]

/-- All that a read command does where the transport performs its reads and nothing happens between them. -/
theorem exec_read_clean {i : Instr} {s : State} {a : Word} {bs bc : Nat} (h : readOperands i = some (a, bs, bc))
    (he : engineReady s) (h1 : 1 ≤ bc) (h32 : bc ≤ 32) (hx : fieldExists s.cfg a bs bc)
    (hc : cleanFor (readCount s.cfg a bs bc) s) (hl : answered s) :
    ∃ t, exec i s = .next t ∧
      Done s (readTxnsOf s.cfg a bs bc (fieldDrawn s a)) (fieldOf s.cfg a bs bc (fieldDrawn s a)) t := by
  obtain ⟨hexec, h31⟩ := exec_read h s
  have hs := readField_script a bs bc (beginCommand (touchedBy s.cfg a bs bc) s) (regCount_le (by omega) h32) hx
  obtain ⟨v, t, hv, hr, hq⟩ := hs.clean (by rw [readTxnsOf_length]; exact hc)
  refine ⟨conclude 0#32 v t, ?_, ?_⟩
  · rw [hexec, readCommand_ready he h1 h32, hv]; rfl
  · rw [hq] at *; exact hr.done hl _

/-- All that a read command does where its `k`-th transaction does not succeed. -/
theorem exec_read_stop {i : Instr} {s : State} {a : Word} {bs bc k : Nat} (h : readOperands i = some (a, bs, bc))
    (he : engineReady s) (h1 : 1 ≤ bc) (h32 : bc ≤ 32) (hx : fieldExists s.cfg a bs bc)
    (hk : k < readCount s.cfg a bs bc) (hc : cleanFor k s) (ha : (drawAt s k).acts = [])
    (hcode : (drawAt s k).reset = none → (drawAt s k).code ≠ 0#32) :
    exec i s = .next (stopped s ((readTxnsOf s.cfg a bs bc (fieldDrawn s a)).take k) 0
      ((readTxnsOf s.cfg a bs bc (fieldDrawn s a))[k]'(by rw [readTxnsOf_length]; exact hk))) := by
  obtain ⟨hexec, h31⟩ := exec_read h s
  have hs := readField_script a bs bc (beginCommand (touchedBy s.cfg a bs bc) s) (regCount_le (by omega) h32) hx
  obtain ⟨u, hr, hu⟩ := hs.stop k (by rw [readTxnsOf_length]; exact hk) hc ha hcode
  rw [hexec, readCommand_ready he h1 h32, hu]
  exact hr.stopped _

/-- All that a write command does where the transport performs its transactions and nothing happens between them. -/
theorem exec_write_clean {i : Instr} {s : State} {a : Word} {bs bc : Nat} {v : Word}
    (h : writeOperands i = some (a, bs, bc, v)) (hw : accessReady s a bs bc)
    (hc : cleanFor (writeCount s.cfg a bs bc) s) (hl : answered s) :
    ∃ t, exec i s = .next t ∧ Done s (writeTxnsOf s.cfg a bs bc v (fieldDrawn s a)) 0#32 t := by
  obtain ⟨hexec, h31⟩ := exec_write h s
  obtain ⟨he, h1, h32, hx⟩ := hw
  have hs := writeField_script a bs bc v (beginCommand (touchedBy s.cfg a bs bc) s) (regCount_le (by omega) h32) hx
  obtain ⟨_, t, hv, hr, hq⟩ := hs.clean (by rw [writeTxnsOf_length]; exact hc)
  refine ⟨conclude 0#32 0#32 t, ?_, hr.done hl _⟩
  rw [hexec, writeCommand_ready he h1 h32, hv]; rfl

/-- All that a write command does where its `k`-th transaction does not succeed. -/
theorem exec_write_stop {i : Instr} {s : State} {a : Word} {bs bc k : Nat} {v : Word}
    (h : writeOperands i = some (a, bs, bc, v)) (hw : accessReady s a bs bc)
    (hk : k < writeCount s.cfg a bs bc) (hc : cleanFor k s) (ha : (drawAt s k).acts = [])
    (hcode : (drawAt s k).reset = none → (drawAt s k).code ≠ 0#32) :
    exec i s = .next (stopped s ((writeTxnsOf s.cfg a bs bc v (fieldDrawn s a)).take k) 0
      ((writeTxnsOf s.cfg a bs bc v (fieldDrawn s a))[k]'(by rw [writeTxnsOf_length]; exact hk))) := by
  obtain ⟨hexec, h31⟩ := exec_write h s
  obtain ⟨he, h1, h32, hx⟩ := hw
  have hs := writeField_script a bs bc v (beginCommand (touchedBy s.cfg a bs bc) s) (regCount_le (by omega) h32) hx
  obtain ⟨u, hr, hu⟩ := hs.stop k (by rw [writeTxnsOf_length]; exact hk) hc ha hcode
  rw [hexec, writeCommand_ready he h1 h32, hu, stopAt_bind]
  exact hr.stopped _

end Sys2Proof.Machine
end

