-- ==== Sys2Proof/Laws/Bits.lean ====
section
/-! SUPPORT. Fields bit by bit: each bit of every split and join of a field, and what the transactions of a field write
leave in each register. -/

namespace Sys2Proof.Machine

/-! ## Masks and joins -/

theorem mask_getLsbD {n : Nat} (h : n ≤ 32) (j : Nat) : (mask n).getLsbD j = decide (j < n) := by
  unfold mask
  split
  · next h32 =>
    subst h32
    rw [show (0xFFFFFFFF#32 : Word) = BitVec.allOnes 32 by decide, BitVec.getLsbD_allOnes]
  · next h32 =>
    have hn : n < 32 := by omega
    have hp : (2 : Nat) ^ n < 2 ^ 32 := Nat.pow_lt_pow_right (by norm_num) hn
    have hp0 : (0 : Nat) < 2 ^ n := Nat.two_pow_pos n
    have : (1#32 <<< n - 1#32 : Word) = BitVec.ofNat 32 (2 ^ n - 1) := by
      apply BitVec.eq_of_toNat_eq
      rw [BitVec.toNat_sub, BitVec.toNat_shiftLeft, BitVec.toNat_ofNat, BitVec.toNat_ofNat]
      simp only [Nat.shiftLeft_eq]
      norm_num
      norm_num at hp
      omega
    rw [this, BitVec.getLsbD_ofNat, Nat.testBit_two_pow_sub_one]
    by_cases hj : j < n
    · simp [hj]; omega
    · simp [hj]

theorem fieldOfWord_getLsbD (w : Word) (bs : Nat) {bc : Nat} (h : bc ≤ 32) (j : Nat) :
    (fieldOfWord w bs bc).getLsbD j = (decide (j < bc) && w.getLsbD (bs + j)) := by
  unfold fieldOfWord
  rw [BitVec.getLsbD_and, BitVec.getLsbD_ushiftRight, mask_getLsbD h, Bool.and_comm]

theorem fieldOfAcc_getLsbD (acc : BitVec 64) (bs : Nat) {bc : Nat} (h : bc ≤ 32) (j : Nat) :
    (fieldOfAcc acc bs bc).getLsbD j = (decide (j < bc) && acc.getLsbD (bs + j)) := by
  unfold fieldOfAcc
  rw [BitVec.getLsbD_and, BitVec.getLsbD_setWidth, BitVec.getLsbD_ushiftRight, mask_getLsbD h]
  by_cases hj : j < bc
  · simp [hj, show j < 32 by omega]
  · simp [hj]

/-- A number whose bits are those of another, shifted and cut. -/
theorem toNat_of_bits {n : Nat} (x : BitVec n) (N bs bc : Nat)
    (h : ∀ j, x.getLsbD j = (decide (j < bc) && N.testBit (bs + j))) : x.toNat = N / 2 ^ bs % 2 ^ bc := by
  apply Nat.eq_of_testBit_eq
  intro j
  rw [Nat.testBit_mod_two_pow, Nat.testBit_div_two_pow, BitVec.testBit_toNat, h, Nat.add_comm]

theorem fieldOfWord_toNat (w : Word) (bs : Nat) {bc : Nat} (h : bc ≤ 32) :
    (fieldOfWord w bs bc).toNat = w.toNat / 2 ^ bs % 2 ^ bc :=
  toNat_of_bits _ _ _ _ fun j => by rw [fieldOfWord_getLsbD w bs h, BitVec.testBit_toNat]

theorem fieldOfAcc_toNat (acc : BitVec 64) (bs : Nat) {bc : Nat} (h : bc ≤ 32) :
    (fieldOfAcc acc bs bc).toNat = acc.toNat / 2 ^ bs % 2 ^ bc :=
  toNat_of_bits _ _ _ _ fun j => by rw [fieldOfAcc_getLsbD acc bs h, BitVec.testBit_toNat]

theorem fieldOfSpan_getLsbD (w0 w1 : Word) {bs bc : Nat} (hb : bs ≤ 31) (h : bc ≤ 32) (hs : 32 < bs + bc) (j : Nat) :
    (fieldOfSpan .le w0 w1 bs bc).getLsbD j =
      (decide (j < bc) && if bs + j < 32 then w0.getLsbD (bs + j) else w1.getLsbD (bs + j - 32)) := by
  unfold fieldOfSpan
  simp only
  rw [BitVec.getLsbD_or, BitVec.getLsbD_ushiftRight, BitVec.getLsbD_shiftLeft, BitVec.getLsbD_and,
    mask_getLsbD (by omega)]
  by_cases hj : bs + j < 32
  · simp [hj, show j < 32 - bs by omega, show j < bc by omega]
  · rw [BitVec.getLsbD_of_ge w0 (bs + j) (by omega)]
    by_cases hjc : j < bc
    · simp [hj, hjc, show ¬ j < 32 - bs by omega, show j < 32 by omega,
        show j - (32 - bs) = bs + j - 32 by omega, show bs + j - 32 < bc - (32 - bs) by omega]
    · simp [hjc, show ¬ j - (32 - bs) < bc - (32 - bs) by omega]

theorem fieldOfSpan_le_toNat (w0 w1 : Word) {bs bc : Nat} (hb : bs ≤ 31) (h : bc ≤ 32) (hs : 32 < bs + bc) :
    (fieldOfSpan .le w0 w1 bs bc).toNat = (w0.toNat + 2 ^ 32 * w1.toNat) / 2 ^ bs % 2 ^ bc := by
  refine toNat_of_bits _ _ _ _ fun j => ?_
  rw [fieldOfSpan_getLsbD w0 w1 hb h hs, Nat.add_comm w0.toNat, Nat.testBit_two_pow_mul_add _ w0.isLt]
  split <;> simp [BitVec.testBit_toNat]

theorem toNat_and_mask (w : Word) {n : Nat} (h : n ≤ 32) : (w &&& mask n).toNat = w.toNat % 2 ^ n := by
  have := toNat_of_bits (w &&& mask n) w.toNat 0 n fun j => by
    rw [BitVec.getLsbD_and, mask_getLsbD h, BitVec.testBit_toNat, Bool.and_comm]; simp
  simpa using this

theorem fieldOfSpan_doc_toNat (w0 w1 : Word) {bs bc : Nat} (hb : bs ≤ 31) (h : bc ≤ 32) (hs : 32 < bs + bc) :
    (fieldOfSpan .docLiteral w0 w1 bs bc).toNat =
      (w1.toNat % 2 ^ (bc - (32 - bs)) + w0.toNat / 2 ^ bs * 2 ^ (32 - bs)) % 2 ^ 32 := by
  unfold fieldOfSpan
  simp only
  rw [BitVec.toNat_add, toNat_and_mask _ (by omega), BitVec.toNat_shiftLeft, BitVec.toNat_ushiftRight,
    Nat.shiftLeft_eq, Nat.shiftRight_eq_div_pow, Nat.add_mod_mod]

/-! ## Little-endian bytes -/

theorem leSum_testBit (val : Nat → Word) (h : ∀ j, (val j).toNat < 256) (n j : Nat) :
    (leSum val n).testBit j = (decide (j < 8 * n) && (val (j / 8)).getLsbD (j % 8)) := by
  induction n with
  | zero => simp [leSum]
  | succ n ih =>
    have hl := leSum_lt val h n
    rw [show (256 : Nat) ^ n = 2 ^ (8 * n) by rw [show (256 : Nat) = 2 ^ 8 by norm_num, ← pow_mul]] at hl
    rw [leSum, show (256 : Nat) ^ n = 2 ^ (8 * n) by rw [show (256 : Nat) = 2 ^ 8 by norm_num, ← pow_mul],
      Nat.add_comm, Nat.mul_comm, Nat.testBit_two_pow_mul_add _ hl, ih]
    split
    · next hj => simp [hj, show j < 8 * (n + 1) by omega]
    · next hj =>
      by_cases hj' : j < 8 * (n + 1)
      · simp [hj', show j / 8 = n by omega, show j - 8 * n = j % 8 by omega, BitVec.testBit_toNat]
      · have hv : (val n).toNat < 2 ^ (j - 8 * n) := by
          have := h n
          calc (val n).toNat < 2 ^ 8 := by omega
            _ ≤ 2 ^ (j - 8 * n) := Nat.pow_le_pow_right (by norm_num) (by omega)
        simp [hj', Nat.testBit_lt_two_pow hv]

theorem leSum_getLsbD (val : Nat → Word) (h : ∀ j, (val j).toNat < 256) {n : Nat} (hn : n ≤ 8) (j : Nat) :
    (BitVec.ofNat 64 (leSum val n)).getLsbD j = (decide (j < 8 * n) && (val (j / 8)).getLsbD (j % 8)) := by
  rw [BitVec.getLsbD_ofNat, leSum_testBit val h]
  by_cases hj : j < 8 * n
  · simp [hj, show j < 64 by omega]
  · simp [hj]

/-- The read of a field, bit by bit, from what its reads return. -/
theorem fieldOf_getLsbD {c : Cfg} {a : Word} {bs bc : Nat} (hb : bs ≤ 31) (h : bc ≤ 32)
    (hle : regimeOf c a = .word → 32 < bs + bc → c.spanCombine = .le) (val : Nat → Word) (hval : regimeOf c a = .byte → ∀ j, (val j).toNat < 256) (j : Nat) :
    (fieldOf c a bs bc val).getLsbD j =
      (decide (j < bc) &&
        match regimeOf c a with
        | .byte => (val ((bs + j) / 8)).getLsbD ((bs + j) % 8)
        | .word => if bs + j < 32 then (val 0).getLsbD (bs + j) else (val 1).getLsbD (bs + j - 32)) := by
  unfold fieldOf
  cases hr : regimeOf c a with
  | byte =>
    simp only
    rw [fieldOfAcc_getLsbD _ _ h, leSum_getLsbD val (hval hr) (regCount_le (by omega) h)]
    by_cases hj : j < bc
    · simp [hj, show bs + j < 8 * regCount bs bc by unfold regCount; omega]
    · simp [hj]
  | word =>
    simp only
    split
    · next hs =>
      rw [fieldOfWord_getLsbD _ _ h]
      by_cases hj : j < bc
      · simp [hj, show bs + j < 32 by omega]
      · simp [hj]
    · next hs => rw [hle hr (by omega), fieldOfSpan_getLsbD _ _ hb h (by omega)]

/-! ## Splits -/

theorem accWithField_getLsbD (acc : BitVec 64) {bs bc : Nat} (hb : bs ≤ 31) (h : bc ≤ 32) (v : Word) (k : Nat) :
    (accWithField acc bs bc (v &&& mask bc)).getLsbD k =
      if bs ≤ k ∧ k < bs + bc then v.getLsbD (k - bs) else acc.getLsbD k := by
  unfold accWithField
  rw [BitVec.getLsbD_or, BitVec.getLsbD_and, BitVec.getLsbD_not, BitVec.getLsbD_shiftLeft, BitVec.getLsbD_shiftLeft,
    BitVec.getLsbD_setWidth, BitVec.getLsbD_setWidth, BitVec.getLsbD_and, mask_getLsbD h]
  by_cases hk : k < 64
  · by_cases h1 : bs ≤ k
    · by_cases h2 : k < bs + bc
      · simp [h1, h2, hk, show ¬ k < bs by omega, show k - bs < 64 by omega, show k - bs < bc by omega]
      · simp [h1, h2, hk, show ¬ k - bs < bc by omega]
    · simp [h1, hk, show k < bs by omega]
  · simp [hk, show ¬ (bs ≤ k ∧ k < bs + bc) by omega, BitVec.getLsbD_of_ge acc k (by omega)]

theorem accByte_getLsbD (acc : BitVec 64) (i k : Nat) :
    (accByte acc i).getLsbD k = (decide (k < 8) && acc.getLsbD (8 * i + k)) := by
  unfold accByte
  rw [BitVec.getLsbD_setWidth, BitVec.getLsbD_extractLsb']
  by_cases hk : k < 8
  · simp [hk, show k < 32 by omega]
  · simp [hk]

theorem wordWithField_getLsbD (w v : Word) {bs bc : Nat} (h : bs + bc ≤ 32) (k : Nat) :
    (wordWithField w bs bc (v &&& mask bc)).getLsbD k =
      if bs ≤ k ∧ k < bs + bc then v.getLsbD (k - bs) else w.getLsbD k := by
  unfold wordWithField
  rw [BitVec.getLsbD_or, BitVec.getLsbD_and, BitVec.getLsbD_not, BitVec.getLsbD_shiftLeft, BitVec.getLsbD_shiftLeft,
    BitVec.getLsbD_and, mask_getLsbD (by omega)]
  by_cases hk : k < 32
  · by_cases h1 : bs ≤ k
    · by_cases h2 : k < bs + bc
      · simp [h1, h2, hk, show ¬ k < bs by omega, show k - bs < bc by omega]
      · simp [h1, h2, hk, show ¬ k - bs < bc by omega]
    · simp [h1, hk, show k < bs by omega]
  · simp [hk, show ¬ (bs ≤ k ∧ k < bs + bc) by omega, BitVec.getLsbD_of_ge w k (by omega)]

theorem spanFirst_getLsbD (w v : Word) {bs bc : Nat} (hb : bs ≤ 31) (h : bc ≤ 32) (hs : 32 < bs + bc) {k : Nat}
    (hk : k < 32) : (spanFirst w bs (v &&& mask bc)).getLsbD k = if bs ≤ k then v.getLsbD (k - bs) else w.getLsbD k := by
  unfold spanFirst
  rw [BitVec.getLsbD_or, BitVec.getLsbD_and, BitVec.getLsbD_shiftLeft, BitVec.getLsbD_and, BitVec.getLsbD_and,
    mask_getLsbD (by omega), mask_getLsbD h, mask_getLsbD (by omega)]
  by_cases h1 : bs ≤ k
  · simp [h1, hk, show ¬ k < bs by omega, show k - bs < bc by omega, show k - bs < 32 - bs by omega]
  · simp [h1, hk, show k < bs by omega]

theorem spanSecond_getLsbD (w v : Word) {bs bc : Nat} (hb : bs ≤ 31) (h : bc ≤ 32) (hs : 32 < bs + bc) (k : Nat) :
    (spanSecond w bs bc (v &&& mask bc)).getLsbD k =
      if k + 32 < bs + bc then v.getLsbD (k + (32 - bs)) else w.getLsbD k := by
  unfold spanSecond
  rw [BitVec.getLsbD_or, BitVec.getLsbD_and, BitVec.getLsbD_not, BitVec.getLsbD_and, BitVec.getLsbD_ushiftRight,
    BitVec.getLsbD_and, mask_getLsbD (by omega), mask_getLsbD h]
  by_cases hk : k + 32 < bs + bc
  · simp [hk, show k < bc - (32 - bs) by omega, Nat.add_comm (32 - bs) k, show k + (32 - bs) < bc by omega]
  · by_cases hk' : k < 32
    · simp [hk, hk', show ¬ k < bc - (32 - bs) by omega]
    · simp [hk, hk', BitVec.getLsbD_of_ge w k (by omega), show ¬ k < bc - (32 - bs) by omega]

/-! ## What a field write leaves in the registers -/

theorem addrAt_inj {a : Word} {i j : Nat} (hi : i < 2 ^ 32) (hj : j < 2 ^ 32) (h : addrAt a i = addrAt a j) :
    i = j := by
  have h1 := congrArg BitVec.toNat (add_left_cancel (show a + BitVec.ofNat 32 i = a + BitVec.ofNat 32 j from h))
  rw [BitVec.toNat_ofNat, BitVec.toNat_ofNat, Nat.mod_eq_of_lt hi, Nat.mod_eq_of_lt hj] at h1
  exact h1

theorem replay_wf {m : Memory} (h : m.wf) (L : List Txn) : (replay L m).wf := by
  induction L generalizing m with
  | nil => exact h
  | cons t L ih => exact ih (applyTxn_wf h t)

theorem regGet_write_same {m : Memory} (h : m.wf) (r : Regime) (a v : Word) :
    regGet (applyTxn m (.write r a (clip r v))) r a = clip r v := by
  simp [applyTxn, regGet_regSet_same h]

theorem regGet_write_other (m : Memory) {r q : Regime} {a x : Word} (v : Word) (hne : (q, x) ≠ (r, a)) :
    regGet (applyTxn m (.write r a v)) q x = regGet m q x := regGet_regSet_other m r q a x v hne

theorem regGet_writesFrom_other (a : Word) (i k : Nat) (acc : BitVec 64) (m : Memory) (q : Regime) (x : Word)
    (hne : ∀ j, i ≤ j → j < i + k → (q, x) ≠ (.byte, addrAt a j)) :
    regGet (replay (writesFrom a i k acc) m) q x = regGet m q x := by
  induction k generalizing i m with
  | zero => rfl
  | succ k ih =>
    simp only [writesFrom, List.range'_succ, List.map_cons, replay_cons]
    have := ih (i + 1) (applyTxn m (.write .byte (addrAt a i) (accByte acc i))) fun j h1 h2 => hne j (by omega) (by omega)
    simp only [writesFrom] at this
    rw [this, regGet_write_other _ _ (hne i (by omega) (by omega))]

theorem regGet_writesFrom {a : Word} {i k : Nat} {acc : BitVec 64} {m : Memory} (h : m.wf) (hk : i + k ≤ 8) {j : Nat}
    (h1 : i ≤ j) (h2 : j < i + k) :
    regGet (replay (writesFrom a i k acc) m) .byte (addrAt a j) = accByte acc j := by
  induction k generalizing i m with
  | zero => omega
  | succ k ih =>
    simp only [writesFrom, List.range'_succ, List.map_cons, replay_cons]
    by_cases hj : j = i
    · subst hj
      have := regGet_writesFrom_other a (j + 1) k acc (applyTxn m (.write .byte (addrAt a j) (accByte acc j))) .byte
        (addrAt a j) fun l h1 h2 he => by
          have := addrAt_inj (by omega) (by omega) (Prod.mk.inj he).2
          omega
      simp only [writesFrom] at this
      rw [this, ← clip_accByte, regGet_write_same h, clip_accByte]
    · have := ih (i := i + 1) (m := applyTxn m (.write .byte (addrAt a i) (accByte acc i))) (applyTxn_wf h _) (by omega)
        (by omega) (by omega)
      simpa only [writesFrom] using this

theorem replay_readsFrom (a : Word) (i k : Nat) (val : Nat → Word) (m : Memory) :
    replay (readsFrom a i k val) m = m :=
  replay_reads fun t ht => by
    obtain ⟨j, _, rfl⟩ := List.mem_map.mp ht
    exact ⟨_, _, _, rfl⟩

theorem addrAt_four_ne (a : Word) : addrAt a 4 ≠ a := by
  intro h
  have := addrAt_inj (a := a) (i := 4) (j := 0) (by norm_num) (by norm_num) (by rw [h, addrAt_zero])
  omega

/-- What a field write leaves in the byte registers it touches. -/
theorem regGet_writeTxnsOf_byte {c : Cfg} {a : Word} {bs bc : Nat} {v : Word} {val : Nat → Word} {m : Memory} (h : m.wf)
    (hr : regimeOf c a = .byte) (hn : regCount bs bc ≤ 8) {i : Nat} (hi : i < regCount bs bc) :
    regGet (replay (writeTxnsOf c a bs bc v val) m) .byte (addrAt a i) =
      if bs = 0 ∧ bc = 8 then v &&& 0xFF#32
      else accByte (accWithField (BitVec.ofNat 64 (leSum val (regCount bs bc))) bs bc (v &&& mask bc)) i := by
  unfold writeTxnsOf
  rw [hr]
  simp only
  split
  · next hf =>
    have h0 : i = 0 := by
      rw [hf.1, hf.2] at hi
      unfold regCount at hi
      omega
    rw [h0, addrAt_zero, ← clip_byte_fast]
    exact regGet_write_same h .byte a _
  · rw [replay_append, replay_readsFrom, regGet_writesFrom h (by omega) (by omega) (by omega)]

/-- What a field write leaves in the word registers it touches. -/
theorem regGet_writeTxnsOf_word {c : Cfg} {a : Word} {bs bc : Nat} {v : Word} {val : Nat → Word} {m : Memory} (h : m.wf)
    (hr : regimeOf c a = .word) :
    regGet (replay (writeTxnsOf c a bs bc v val) m) .word a =
      (if bs + bc ≤ 32 then (if bs = 0 ∧ bc = 32 then v else wordWithField (val 0) bs bc (v &&& mask bc))
        else spanFirst (val 0) bs (v &&& mask bc)) ∧
    (¬ bs + bc ≤ 32 → regGet (replay (writeTxnsOf c a bs bc v val) m) .word (addrAt a 4) =
      spanSecond (val 1) bs bc (v &&& mask bc)) := by
  have hne := addrAt_four_ne a
  unfold writeTxnsOf
  rw [hr]
  constructor
  · simp only
    split
    · split
      · exact regGet_write_same h .word a v
      · exact regGet_write_same h .word a _
    · simp only [replay_cons, replay_nil]
      rw [regGet_write_other _ _ (fun he => hne (Prod.mk.inj he).2.symm)]
      exact regGet_write_same h .word a _
  · intro hs
    simp only [hs, if_false, replay_cons, replay_nil]
    exact regGet_write_same (applyTxn_wf h _) .word (addrAt a 4) _

/-- A field write changes no register but those of the field. -/
theorem regGet_writeTxnsOf_other {c : Cfg} {a : Word} {bs bc : Nat} {v : Word} {val : Nat → Word} (m : Memory)
    {q : Regime} {x : Word} (hne : (q, x) ∉ (touchedBy c a bs bc).map (regimeOf c a, ·)) :
    regGet (replay (writeTxnsOf c a bs bc v val) m) q x = regGet m q x := by
  unfold touchedBy at hne
  unfold writeTxnsOf
  cases hr : regimeOf c a with
  | byte =>
    rw [hr] at hne
    have hj : ∀ j, j < regCount bs bc → (q, x) ≠ (.byte, addrAt a j) := fun j hj he => hne (by
      rw [he]
      exact List.mem_map.mpr ⟨_, List.mem_map.mpr ⟨j, by simpa using hj, rfl⟩, rfl⟩)
    simp only
    split
    · next hf =>
      have := hj 0 (by simp [regCount, hf])
      rw [addrAt_zero] at this
      exact regGet_write_other _ _ this
    · rw [replay_append, replay_readsFrom]
      exact regGet_writesFrom_other _ _ _ _ _ _ _ fun j _ h => hj j (by omega)
  | word =>
    rw [hr] at hne
    simp only at hne ⊢
    split at hne
    · next hs =>
      have ha : (q, x) ≠ (.word, a) := fun he => hne (by simp [he])
      simp only [hs, if_true]
      split
      · exact regGet_write_other _ _ ha
      · exact regGet_write_other _ _ ha
    · next hs =>
      have ha : (q, x) ≠ (.word, a) := fun he => hne (by simp [he])
      have hb : (q, x) ≠ (.word, addrAt a 4) := fun he => hne (by simp [he])
      simp only [hs, if_false, replay_cons, replay_nil]
      rw [regGet_write_other _ _ hb, regGet_write_other _ _ ha]
      rfl

/-- Bit `j` of the field after a field write, whatever its reads returned. -/
theorem write_field_bit {c : Cfg} {a : Word} {bs bc : Nat} {v : Word} {val : Nat → Word} {m : Memory} (h : m.wf)
    (hb : bs ≤ 31) (hc : bc ≤ 32) {j : Nat} (hj : j < bc) :
    fieldBit c (replay (writeTxnsOf c a bs bc v val) m) a bs j = v.getLsbD j := by
  unfold fieldBit bitPlace
  cases hr : regimeOf c a with
  | byte =>
    simp only
    rw [regGet_writeTxnsOf_byte h hr (regCount_le (by omega) hc) (i := (bs + j) / 8) (by unfold regCount; omega)]
    split
    · next hf =>
      obtain ⟨rfl, rfl⟩ := hf
      have : (v &&& 0xFF#32 : Word) = v &&& mask 8 := by congr 1
      rw [this, BitVec.getLsbD_and, mask_getLsbD (by omega), show (0 + j) % 8 = j by omega]
      simp [hj]
    · rw [accByte_getLsbD, accWithField_getLsbD _ hb hc, show 8 * ((bs + j) / 8) + (bs + j) % 8 = bs + j by omega]
      simp [show (bs + j) % 8 < 8 by omega, hj]
  | word =>
    obtain ⟨h1, h2⟩ := regGet_writeTxnsOf_word (bs := bs) (bc := bc) (v := v) (val := val) h hr
    simp only
    split
    · next hs =>
      simp only
      rw [h1]
      split
      · split
        · next hf => simp [hf.1]
        · next hs' _ =>
          rw [wordWithField_getLsbD _ _ hs']
          simp [hj]
      · next hs' =>
        rw [spanFirst_getLsbD _ _ hb hc (by omega) (by omega)]
        simp
    · next hs =>
      simp only
      rw [h2 (by omega), spanSecond_getLsbD _ _ hb hc (by omega)]
      simp [show bs + j - 32 + 32 < bs + bc by omega, show bs + j - 32 + (32 - bs) = j by omega]

/-- Every other bit after a field write whose reads returned what the registers hold. -/
theorem write_other_bit {c : Cfg} {a : Word} {bs bc : Nat} {v : Word} {val : Nat → Word} {m : Memory} (h : m.wf)
    (hb : bs ≤ 31) (h1 : 1 ≤ bc) (hc : bc ≤ 32)
    (hbyte : regimeOf c a = .byte → ∀ j, j < regCount bs bc → val j = regGet m .byte (addrAt a j))
    (hword : regimeOf c a = .word → val 0 = regGet m .word a ∧ (¬ bs + bc ≤ 32 → val 1 = regGet m .word (addrAt a 4)))
    (hlt : regimeOf c a = .byte → ∀ j, (val j).toNat < 256)
    {r : Regime} {x : Word} {k : Nat} (hne : ∀ j, j < bc → (regimeOf c a, bitPlace c a bs j) ≠ (r, x, k)) :
    (regGet (replay (writeTxnsOf c a bs bc v val) m) r x).getLsbD k = (regGet m r x).getLsbD k := by
  by_cases hm : (r, x) ∈ (touchedBy c a bs bc).map (regimeOf c a, ·)
  swap
  · rw [regGet_writeTxnsOf_other m hm]
  obtain ⟨y, hy, he⟩ := List.mem_map.mp hm
  obtain ⟨rfl, rfl⟩ := Prod.mk.inj he
  unfold touchedBy at hy
  cases hr : regimeOf c a with
  | byte =>
    rw [hr] at hy
    obtain ⟨i, hi, rfl⟩ := List.mem_map.mp hy
    have hi' : i < regCount bs bc := by simpa using hi
    by_cases hk : k < 8
    swap
    · have hz : ∀ m' : Memory, (regGet m' .byte (addrAt a i)).getLsbD k = false := fun m' => by
        simp only [regGet]
        rw [BitVec.getLsbD_setWidth]
        simp; intro _; exact BitVec.getLsbD_of_ge _ _ (by omega)
      rw [hz, hz]
    have hout : ¬ (bs ≤ 8 * i + k ∧ 8 * i + k < bs + bc) := fun ⟨g1, g2⟩ => by
      refine hne (8 * i + k - bs) (by omega) ?_
      unfold bitPlace
      simp only [hr]
      rw [show (bs + (8 * i + k - bs)) / 8 = i by omega, show (bs + (8 * i + k - bs)) % 8 = k by omega]
    rw [regGet_writeTxnsOf_byte h hr (regCount_le (by omega) hc) hi']
    split
    · next hf =>
      obtain ⟨rfl, rfl⟩ := hf
      unfold regCount at hi'
      omega
    · rw [accByte_getLsbD, accWithField_getLsbD _ hb hc, leSum_getLsbD val (hlt hr) (regCount_le (by omega) hc)]
      simp only [hout, if_false, hk, decide_true, Bool.true_and]
      rw [show (8 * i + k) / 8 = i by omega, show (8 * i + k) % 8 = k by omega, hbyte hr i hi']
      simp; intro _; omega
  | word =>
    obtain ⟨g1, g2⟩ := regGet_writeTxnsOf_word (bs := bs) (bc := bc) (v := v) (val := val) h hr
    obtain ⟨v0, v1⟩ := hword hr
    rw [hr] at hy hne
    by_cases hk : k < 32
    swap
    · rw [BitVec.getLsbD_of_ge _ _ (by omega), BitVec.getLsbD_of_ge _ _ (by omega)]
    have hout : y = a → ∀ j, j < bc → bs + j < 32 → bs + j ≠ k := fun hya j hj hs hjk => by
      refine hne j hj ?_
      unfold bitPlace
      simp only [hr, hjk, hya, hk, if_true]
    have hout2 : y = addrAt a 4 → ∀ j, j < bc → ¬ bs + j < 32 → bs + j - 32 ≠ k := fun hya j hj hs hjk => by
      refine hne j hj ?_
      unfold bitPlace
      simp [hr, hs, hjk, hya]
    simp only at hy
    split at hy
    · next hs =>
      have hya : y = a := by simpa using hy
      subst hya
      rw [g1]
      simp only [hs, if_true]
      split
      · next hf => exact absurd (show bs + k = k by omega) (hout rfl k (by omega) (by omega))
      · rw [wordWithField_getLsbD _ _ hs, v0]
        split
        · next hin => exact absurd (show bs + (k - bs) = k by omega) (hout rfl (k - bs) (by omega) (by omega))
        · rfl
    · next hs =>
      rcases List.mem_cons.mp hy with hya | hya
      · subst hya
        rw [g1]
        simp only [hs, if_false]
        rw [spanFirst_getLsbD _ _ hb hc (by omega) hk, v0]
        split
        · next hin => exact absurd (show bs + (k - bs) = k by omega) (hout rfl (k - bs) (by omega) (by omega))
        · rfl
      · have hya : y = addrAt a 4 := by simpa using hya
        rw [hya, g2 hs, spanSecond_getLsbD _ _ hb hc (by omega), v1 hs]
        split
        · next hin =>
          exact absurd (show bs + (k + 32 - bs) - 32 = k by omega) (hout2 hya (k + 32 - bs) (by omega) (by omega))
        · rfl

end Sys2Proof.Machine
end

