-- ==== Sys2Proof/Laws/Pll.lean ====
section
/-! SUPPORT. PLL_START as a list of transactions: what its body is once its checks pass, and what its sequence issues. -/

namespace Sys2Proof.Machine

/-! ## The search and the working state -/

/-- The search reads nothing of the footprint and leaves it. -/
theorem solveWork_touched (c : Cfg) (fin fout : Nat) (w : Work) (l : List Word) :
    solveWork c fin fout { w with touched := l } = { solveWork c fin fout w with touched := l } := by
  have fold : ∀ (ps : List Nat) (w : Work),
      ps.foldl (phase2Visit c fin fout) { w with touched := l } =
        { ps.foldl (phase2Visit c fin fout) w with touched := l } := by
    intro ps
    induction ps with
    | nil => exact fun w => rfl
    | cons p ps ih =>
      intro w
      have hv : phase2Visit c fin fout { w with touched := l } p = { phase2Visit c fin fout w p with touched := l } := by
        unfold phase2Visit
        cases candidate c fin fout w.ratio p with
        | none => rfl
        | some k => simp only; split <;> rfl
      rw [List.foldl_cons, List.foldl_cons, hv, ih]
  unfold solveWork
  cases phase1 c fin fout with
  | some k => rfl
  | none => exact fold prescalers (phase2Start c fin fout w)

/-- The search moves no step and no footprint. -/
theorem solveWork_step (c : Cfg) (fin fout : Nat) (w : Work) :
    (solveWork c fin fout w).step = w.step ∧ (solveWork c fin fout w).touched = w.touched := by
  have fold : ∀ (ps : List Nat) (w : Work), (ps.foldl (phase2Visit c fin fout) w).step = w.step ∧
      (ps.foldl (phase2Visit c fin fout) w).touched = w.touched := by
    intro ps
    induction ps with
    | nil => exact fun w => ⟨rfl, rfl⟩
    | cons p ps ih =>
      intro w
      rw [List.foldl_cons, (ih _).1, (ih _).2]
      unfold phase2Visit
      split
      · exact ⟨rfl, rfl⟩
      · split <;> exact ⟨rfl, rfl⟩
  unfold solveWork
  cases phase1 c fin fout with
  | some k => exact ⟨rfl, rfl⟩
  | none => exact fold prescalers (phase2Start c fin fout w)

/-- The descriptors of a well-formed record are good ones. -/
theorem descriptorOk_of_wf {c : Cfg} (h : cfgWellFormed c = true) {fout : Word} {d : Descriptor}
    (hd : d ∈ ((bypassWrites c fout).map Prod.fst) ++ fieldDescriptors c) : descriptorOk d = true := by
  simp only [cfgWellFormed, Bool.and_eq_true, List.all_eq_true] at h
  rcases List.mem_append.mp hd with hd | hd
  · obtain ⟨y, hy, rfl⟩ := List.mem_map.mp hd
    unfold bypassWrites at hy
    split at hy
    · next e he => exact h.2 e (List.mem_of_find?_eq_some he) y hy
    · simp at hy
  · exact h.1.2 d hd

/-! ## The command -/

/-- The state in which the sequence begins. -/
def pllBegun (s : State) (w : Work) : State := { s with w := w, pllState := .configuring }

/-- The body of a PLL_START that passes its checks and finds `k`. -/
theorem exec_pllStart_ready {s : State} {xm src sync : Byte} {fin fout : Word} {k : PllConfig} (hr : pllReady s fin fout k) :
    ∃ w : Work, w.step = 0 ∧ exec (.pllStart xm src sync fin fout) s =
      endCommand ((runSteps (startupSteps s.cfg xm src sync fout k) (pllBegun s w)).bind fun _ s =>
        .ok 0#32 (setStep 0 (setPllState .updated s))) := by
  obtain ⟨he, ho, h0, hs⟩ := hr
  refine ⟨solveWork s.cfg fin.toNat fout.toNat (beginCommand (pllTouched s.cfg fout) s).w, (solveWork_step _ _ _ _).1, ?_⟩
  simp only [exec, execPllStart, command_wf he.1, withTransport, withFrequencies]
  have hb : (solveWork s.cfg fin.toNat fout.toNat (beginCommand (pllTouched s.cfg fout) s).w).best = some k := by
    have ht := solveWork_touched s.cfg fin.toNat fout.toNat Work.idle (pllTouched s.cfg fout)
    rw [show (beginCommand (pllTouched s.cfg fout) s).w = { Work.idle with touched := pllTouched s.cfg fout } from rfl, ht]
    simpa [pllSolve, Function.comp_def] using hs
  have hb' : (beginCommand (pllTouched s.cfg fout) s).transportBound = true := he.2
  rw [if_pos hb', if_pos (by exact ho), if_neg h0]
  unfold solveAndStart
  simp only [beginCommand_cfg, hb]
  rfl

/-- The sequence as a list of transactions, each with its step. -/
theorem startupSteps_script {s : State} {xm src sync : Byte} {fin fout : Word} {k : PllConfig} (hr : pllReady s fin fout k)
    (hx : instrExists s.cfg (.pllStart xm src sync fin fout)) (hst : pllStable s.cfg fout) (w : Work) :
    StepScript (runSteps (startupSteps s.cfg xm src sync fout k) (pllBegun s w)) (pllBegun s w)
      (stepsTxns s.cfg s.mem (startupSteps s.cfg xm src sync fout k)) := by
  refine runSteps_script s.cfg _ ?_ ?_ ?_ _ rfl
  · intro x h
    exact descriptorOk_of_wf hr.1.1 (startupSteps_descriptor h)
  · intro x h y hy
    exact hx (regimeOf s.cfg x.2.1.addr, y)
      (List.mem_flatMap.mpr ⟨x.2.1, startupSteps_descriptor h, List.mem_map.mpr ⟨y, hy, rfl⟩⟩)
  · intro x h y hy
    exact hst y (List.mem_flatMap.mpr ⟨x.2.1, startupSteps_descriptor h, hy⟩)

theorem stepsTxns_length (c : Cfg) (m : Memory) (steps : List (Fin 15 × Descriptor × Word)) :
    (stepsTxns c m steps).length = stepsCount c steps := by
  induction steps generalizing m with
  | nil => rfl
  | cons x rest ih =>
    obtain ⟨n, d, v⟩ := x
    simp [stepsTxns, stepsCount, writeTxns_length, ih]

/-- The sequencer runs one part of a sequence after the other. -/
theorem runSteps_append (A B : List (Fin 15 × Descriptor × Word)) (s : State) :
    runSteps (A ++ B) s = (runSteps A s).bind fun _ s => runSteps B s := by
  induction A generalizing s with
  | nil => rfl
  | cons x rest ih =>
    obtain ⟨n, d, v⟩ := x
    simp only [List.cons_append, runSteps]
    cases hw : bfw d v (setStep n s) with
    | ok a t => simp only [Res.bind]; exact ih t
    | raise e t => rfl
    | abandoned t => rfl
    | fault f => rfl

end Sys2Proof.Machine
end

