-- ==== Sys2Proof/Laws/Fault.lean ====
section
/-! SUPPORT. Where a command faults: a part of it issues exactly a list of transactions and then an access to a register that
does not exist. One lemma for each of the engine's operations. -/

namespace Sys2Proof.Machine

/-- The part `x` of a command, run from `s`, issues the transactions `L` where all of them succeed, and then faults as `f`
says, where nothing happens just before that access. -/
def Faults {α : Type} (x : Res α) (s : State) (L : List Txn) (f : State → Fault) : Prop :=
  cleanFor L.length s → (drawAt s L.length).undisturbed → ∃ u, Ran s L u ∧ x = .fault (f (dropDraw u))

namespace Faults

variable {α β : Type} {s t : State} {L L' : List Txn} {x : Res α} {f : State → Fault}

/-- Nothing follows a fault. -/
theorem bind {g : α → State → Res β} (h : Faults x s L f) : Faults (x.bind g) s L f := fun hc hd =>
  let ⟨u, hr, hx⟩ := h hc hd
  ⟨u, hr, by rw [hx]; rfl⟩

/-- A part that runs, then one that faults. -/
theorem after {Q : α → State → Prop} {g : α → State → Res β} (h : Script x s L Q)
    (hg : ∀ a t, Ran s L t → Q a t → Faults (g a t) t L' f) : Faults (x.bind g) s (L ++ L') f := by
  intro hc hd
  rw [List.length_append] at hc hd
  obtain ⟨a, t, hx, hr, hq⟩ := h.clean (cleanFor_mono hc (by omega))
  obtain ⟨u, hu, hy⟩ := hg a t hr hq (hr.cleanFor hc) (by rw [hr.drawAt]; exact hd)
  exact ⟨u, hr.trans hu, by simp [hx, Res.bind, hy]⟩

/-- A part that starts by changing the working state only. -/
theorem of_ran (hr : Ran s [] t) (h : Faults x t L f) : Faults x s L f := by
  intro hc hd
  obtain ⟨u, hu, hx⟩ := h (hr.cleanFor (by simpa using hc)) (by rw [hr.drawAt]; simpa using hd)
  exact ⟨u, by simpa using hr.trans hu, hx⟩

end Faults

/-! ## Transactions -/

theorem issue_faults {r : Regime} {a : Word} {s : State} {f : Fault} (hd : (nextDraw s).undisturbed)
    (hf : issueFault r a (dropDraw s) = some f) : issue r a s = .fault f := by
  simp [issue, hd.2, beforeTxn_of_no_acts s hd.1, hf]

theorem memRead_faults {r : Regime} {a : Word} {s : State} {f : State → Fault}
    (hf : ∀ t : State, t.cfg = s.cfg → issueFault r a t = some (f t)) : Faults (memRead r a s) s [] f := by
  intro _ hd
  refine ⟨s, Ran.refl s, ?_⟩
  rw [memRead, issue_faults (by simpa [drawAt_zero] using hd) (hf (dropDraw s) rfl)]
  rfl

theorem memWrite_faults {r : Regime} {a : Word} (v : Word) {s : State} {f : State → Fault}
    (hf : ∀ t : State, t.cfg = s.cfg → issueFault r a t = some (f t)) : Faults (memWrite r a v s) s [] f := by
  intro _ hd
  refine ⟨s, Ran.refl s, ?_⟩
  rw [memWrite, issue_faults (by simpa [drawAt_zero] using hd) (hf (dropDraw s) rfl)]
  rfl

/-- A byte transaction outside the window (20_memory.md R53). -/
theorem issueFault_byte {a : Word} {t : State} (h : inByteWindow t.cfg a = false) :
    issueFault .byte a t = some (.crossRegime a t) := by simp [issueFault, h]

/-- A word transaction inside the window (20_memory.md R53). -/
theorem issueFault_word {a : Word} {t : State} (h : inByteWindow t.cfg a = true) :
    issueFault .word a t = some (.crossRegime a t) := by simp [issueFault, h]

/-- A word transaction at an address that is no multiple of 4 (20_memory.md R54). -/
theorem issueFault_misaligned {a : Word} {t : State} (h : regimeOf t.cfg a = .word) (h4 : a.toNat % 4 ≠ 0) :
    issueFault .word a t = some (.misaligned a t) := by
  have hw : inByteWindow t.cfg a = false := by
    by_contra hh
    simp [regimeOf, hh] at h
  simp [issueFault, hw, h4]

/-! ## Fields -/

theorem readBytes_append (a : Word) (i m n : Nat) (s : State) :
    readBytes a i (m + n) s = (readBytes a i m s).bind fun _ s => readBytes a (i + m) n s := by
  induction m generalizing i s with
  | zero => simp [readBytes, Res.bind]
  | succ m ih =>
    rw [show m + 1 + n = (m + n) + 1 by omega]
    simp only [readBytes]
    cases memRead .byte (addrAt a i) s with
    | ok b t =>
      simp only [Res.bind]
      rw [ih (i + 1), show i + 1 + m = i + (m + 1) by omega]
      rfl
    | raise e t => rfl
    | abandoned t => rfl
    | fault g => rfl

/-- The byte-regime reads, the `j`-th of a register outside the window. -/
theorem readAll_faults (a : Word) {n j : Nat} (s : State) (hj : j < n)
    (hx : ∀ k, k < j → registerExists s.cfg .byte (addrAt a k) = true) (hout : inByteWindow s.cfg (addrAt a j) = false)
    (val : Nat → Word) (hval : ∀ k, val k = drawnAt s k .byte (addrAt a k)) :
    Faults (readBytes a 0 n (startBytes n s)) s (readsFrom a 0 j val) (Fault.crossRegime (addrAt a j)) := by
  have hs := ran_startBytes n s
  refine Faults.of_ran hs ?_
  obtain ⟨m, rfl⟩ : ∃ m, n = j + (m + 1) := ⟨n - j - 1, by omega⟩
  rw [readBytes_append]
  have h1 := readBytes_script a 0 j (startBytes (j + (m + 1)) s) (fun k _ hk => by simpa [hs.cfg] using hx k (by omega))
    val (fun k _ hk => by rw [hs.drawnAt_nil]; exact hval k)
  have := Faults.after (L' := []) (f := Fault.crossRegime (addrAt a j)) h1
    (g := fun _ s => readBytes a (0 + j) (m + 1) s) fun _ t ht _ => by
      simp only [readBytes, Nat.zero_add]
      exact Faults.bind (memRead_faults fun u hu => issueFault_byte (by rw [hu, ht.cfg, hs.cfg]; exact hout))
  simpa using this

/-- A byte-regime field whose `j`-th register is the first outside the window. -/
theorem field_faults_byte {a : Word} {bs bc j : Nat} {s : State} (hr : regimeOf s.cfg a = .byte) (hj : j < regCount bs bc)
    (hx : ∀ k, k < j → registerExists s.cfg .byte (addrAt a k) = true) (hout : inByteWindow s.cfg (addrAt a j) = false) :
    Faults (readField a bs bc s) s (readsFrom a 0 j (fieldDrawn s a)) (Fault.crossRegime (addrAt a j)) ∧
    ∀ v, Faults (writeField a bs bc v s) s (readsFrom a 0 j (fieldDrawn s a)) (Fault.crossRegime (addrAt a j)) := by
  have hs := ran_setRegime .byte s
  have key : Faults (readBytes a 0 (regCount bs bc) (startBytes (regCount bs bc) (setRegime .byte s))) s
      (readsFrom a 0 j (fieldDrawn s a)) (Fault.crossRegime (addrAt a j)) :=
    Faults.of_ran hs (readAll_faults a _ hj (fun k hk => by simpa [hs.cfg] using hx k hk) (by simpa [hs.cfg] using hout) _
      fun k => by rw [hs.drawnAt_nil]; simp [fieldDrawn, readPlace, hr])
  have hj0 : j ≠ 0 := by
    rintro rfl
    rw [addrAt_zero] at hout
    simp [regimeOf, hout] at hr
  constructor
  · unfold readField
    rw [hr]
    exact Faults.bind key
  · intro v
    unfold writeField
    rw [hr]
    simp only
    split
    · next hf => exact absurd (by rw [hf.1, hf.2] at hj; unfold regCount at hj; omega) hj0
    · exact Faults.bind key

/-- A spanning word field whose second register is in the byte window. -/
theorem field_faults_span {a : Word} {bs bc : Nat} {s : State} (hr : regimeOf s.cfg a = .word) (h4 : a.toNat % 4 = 0)
    (hsp : 32 < bs + bc) (hin : inByteWindow s.cfg (addrAt a 4) = true) :
    Faults (readField a bs bc s) s [.read .word a (fieldDrawn s a 0)] (Fault.crossRegime (addrAt a 4)) ∧
    ∀ v, Faults (writeField a bs bc v s) s [.read .word a (fieldDrawn s a 0)] (Fault.crossRegime (addrAt a 4)) := by
  have hs := ran_setRegime .word s
  have hw : inByteWindow s.cfg a = false := by
    by_contra hh
    simp [regimeOf, hh] at hr
  have hx : registerExists (setRegime .word s).cfg .word a = true := by simp [registerExists, hw, h4]
  have h0 : drawnValue .word a (setRegime .word s) = fieldDrawn s a 0 := by
    rw [drawnValue_eq, hs.drawnAt_nil]
    simp [fieldDrawn, readPlace, hr, addrAt_zero]
  have h1 := memRead_script .word a (setRegime .word s) hx
  rw [h0] at h1
  have second : ∀ w0 t, Ran (setRegime .word s) [.read .word a (fieldDrawn s a 0)] t →
      Faults (memRead .word (addrAt a 4) (setW0 w0 t)) t [] (Fault.crossRegime (addrAt a 4)) := fun w0 t ht =>
    Faults.of_ran (ran_setW0 w0 t) (memRead_faults fun u hu => issueFault_word (by
      rw [hu, (ran_setW0 w0 t).cfg, ht.cfg, hs.cfg]; exact hin))
  constructor
  · unfold readField
    rw [hr]
    simp only [show ¬ bs + bc ≤ 32 by omega, if_false]
    exact Faults.of_ran hs (Faults.after (L' := []) h1 fun w0 t ht _ => Faults.bind (second w0 t ht))
  · intro v
    unfold writeField
    rw [hr]
    simp only [show ¬ bs + bc ≤ 32 by omega, if_false]
    exact Faults.of_ran hs (Faults.after (L' := []) h1 fun w0 t ht _ => Faults.bind (second w0 t ht))

/-- A word-regime field at an address that is no multiple of 4. -/
theorem field_faults_misaligned {a : Word} {bs bc : Nat} {s : State} (hr : regimeOf s.cfg a = .word)
    (h4 : a.toNat % 4 ≠ 0) :
    Faults (readField a bs bc s) s [] (Fault.misaligned a) ∧ ∀ v, Faults (writeField a bs bc v s) s [] (Fault.misaligned a) := by
  have hs := ran_setRegime .word s
  have hf : ∀ u : State, u.cfg = (setRegime .word s).cfg → issueFault .word a u = some (.misaligned a u) := fun u hu =>
    issueFault_misaligned (by rw [hu, hs.cfg]; exact hr) h4
  constructor
  · unfold readField
    rw [hr]
    simp only
    split
    · exact Faults.of_ran hs (Faults.bind (memRead_faults hf))
    · exact Faults.of_ran hs (Faults.bind (memRead_faults hf))
  · intro v
    unfold writeField
    rw [hr]
    simp only
    split
    · split
      · exact Faults.of_ran hs (memWrite_faults _ hf)
      · exact Faults.of_ran hs (Faults.bind (memRead_faults hf))
    · exact Faults.of_ran hs (Faults.bind (memRead_faults hf))

/-! ## Whole commands -/

/-- A reading or a writing instruction whose field faults. -/
theorem exec_faults {i : Instr} {s : State} {a : Word} {bs bc : Nat} {L : List Txn} {f : State → Fault}
    (h : readOperands i = some (a, bs, bc) ∨ ∃ v, writeOperands i = some (a, bs, bc, v)) (he : engineReady s) (h1 : 1 ≤ bc)
    (h32 : bc ≤ 32)
    (hf : ∀ l, Faults (readField a bs bc (beginCommand l s)) (beginCommand l s) L f ∧
      ∀ v, Faults (writeField a bs bc v (beginCommand l s)) (beginCommand l s) L f)
    (hc : cleanFor L.length s) (hd : (drawAt s L.length).undisturbed) :
    ∃ l u, Ran (beginCommand l s) L u ∧ exec i s = .fault (f (dropDraw u)) := by
  refine ⟨touchedBy s.cfg a bs bc, ?_⟩
  rcases h with h | ⟨v, h⟩
  · obtain ⟨u, hr, hx⟩ := (hf _).1 hc hd
    exact ⟨u, hr, by rw [(exec_read h s).1, readCommand_ready he h1 h32, hx]; rfl⟩
  · obtain ⟨u, hr, hx⟩ := (hf _).2 v hc hd
    exact ⟨u, hr, by rw [(exec_write h s).1, writeCommand_ready he h1 h32, hx]; rfl⟩

/-- A PLL_START whose sequence faults at the field of one of its writes, the writes before it done. -/
theorem exec_pllStart_faults {s : State} {xm src sync : Byte} {fin fout : Word} {k : PllConfig}
    {pre post : List (Fin 15 × Descriptor × Word)} {n : Fin 15} {d : Descriptor} {v : Word} {f : State → Fault}
    {L : Memory → List Txn} (hr : pllReady s fin fout k)
    (hsteps : startupSteps s.cfg xm src sync fout k = pre ++ (n, d, v) :: post) (hpre : stepsReady s.cfg pre)
    (hf : ∀ t : State, t.cfg = s.cfg → Faults (writeField d.addr d.bs d.bc v t) t (L t.mem) f)
    (hc : cleanFor (stepsCount s.cfg pre + (L (replay ((stepsTxns s.cfg s.mem pre).map Prod.snd) s.mem)).length) s)
    (hd : (drawAt s (stepsCount s.cfg pre + (L (replay ((stepsTxns s.cfg s.mem pre).map Prod.snd) s.mem)).length)).undisturbed) :
    ∃ w u, RanSteps (pllBegun s w)
        ((stepsTxns s.cfg s.mem pre).map Prod.snd ++ L (replay ((stepsTxns s.cfg s.mem pre).map Prod.snd) s.mem)) u ∧
      exec (.pllStart xm src sync fin fout) s = .fault (f (dropDraw u)) := by
  obtain ⟨w, _, hbody⟩ := exec_pllStart_ready (xm := xm) (src := src) (sync := sync) hr
  have hmem : ∀ x ∈ pre, x ∈ startupSteps s.cfg xm src sync fout k := fun x hx => by
    rw [hsteps]
    exact List.mem_append_left _ hx
  have hscript := runSteps_script s.cfg pre (fun x hx => descriptorOk_of_wf hr.1.1 (startupSteps_descriptor (hmem x hx)))
    (fun x hx => (hpre x hx).1) (fun x hx => (hpre x hx).2) (pllBegun s w) rfl
  have hlen : (stepsTxns s.cfg (pllBegun s w).mem pre).length = stepsCount s.cfg pre := stepsTxns_length _ _ _
  obtain ⟨t, ht, hran⟩ := hscript.clean (by rw [hlen]; exact cleanFor_mono hc (by omega))
  have hmemt : (setStep n t).mem = replay ((stepsTxns s.cfg s.mem pre).map Prod.snd) s.mem := by
    rw [setStep_mem, hran.eq]
    rfl
  have hdraw : ∀ j, drawAt (setStep n t) j = drawAt s (stepsCount s.cfg pre + j) := fun j => by
    have := hran.drawAt j
    rw [List.length_map, hlen] at this
    exact this
  obtain ⟨u, hu, hx⟩ := hf (setStep n t) (by rw [setStep_cfg, hran.eq]; rfl)
    (fun j hj => by rw [hdraw]; exact hc _ (by rw [hmemt] at hj; omega)) (by rw [hdraw, hmemt]; exact hd)
  refine ⟨w, u, ?_, ?_⟩
  · rw [hmemt] at hu
    exact hran.trans ((ranSteps_setStep n t).trans hu.toSteps)
  · rw [hbody, hsteps, runSteps_append, ht]
    simp only [Res.bind, runSteps, bfw]
    rw [hx]
    rfl

end Sys2Proof.Machine
end

