-- ==== Sys2Proof/Laws/PerInstr.lean ====
section
/-! SUPPORT. Per-instruction facts about the syntax: the words of every instruction are as many as its `OP` says, and its
reserved command-word bits are 0. -/

namespace Sys2Proof.Laws.Framing

/-- The request is as long as 30_encoding.md R80 and R82 say for its `OP`, and bits 31:15 of its command word are 0. -/
def Statement (i : Instr) : Prop :=
  ∃ w rest, encode i = w :: rest ∧ (encode i).length = requestLength (opField w) ∧ w.extractLsb' 15 17 = 0#17

theorem op_bfCommandWord (op : BitVec 4) (bs : BitVec 5) (bc : BitVec 6) : opField (bfCommandWord op bs bc) = op := by
  apply BitVec.eq_of_getLsbD_eq
  intro k hk
  simp only [opField, bfCommandWord, BitVec.getLsbD_extractLsb', BitVec.getLsbD_append]
  simp [hk]

theorem reserved_bfCommandWord (op : BitVec 4) (bs : BitVec 5) (bc : BitVec 6) :
    (bfCommandWord op bs bc).extractLsb' 15 17 = 0#17 := by
  apply BitVec.eq_of_getLsbD_eq
  intro k hk
  simp only [bfCommandWord, BitVec.getLsbD_extractLsb', BitVec.getLsbD_append]
  simp [show ¬ 15 + k < 4 by omega, show ¬ 15 + k - 4 < 5 by omega, show ¬ 15 + k - 4 - 5 < 6 by omega]

theorem bfRead (addr : Word) (bs : BitVec 5) (bc : BitVec 6) : Statement (.bfRead addr bs bc) :=
  ⟨_, _, rfl, by rw [op_bfCommandWord]; rfl, reserved_bfCommandWord _ _ _⟩

theorem bfWrite (addr : Word) (bs : BitVec 5) (bc : BitVec 6) (value : Word) : Statement (.bfWrite addr bs bc value) :=
  ⟨_, _, rfl, by rw [op_bfCommandWord]; rfl, reserved_bfCommandWord _ _ _⟩

theorem pllStart (xtalMode pllSrc syncSrc : Byte) (fin fout : Word) :
    Statement (.pllStart xtalMode pllSrc syncSrc fin fout) :=
  ⟨_, _, rfl, rfl, rfl⟩

theorem rd8 (addr : Word) : Statement (.rd8 addr) :=
  ⟨_, _, rfl, by rw [op_bfCommandWord]; rfl, reserved_bfCommandWord _ _ _⟩

theorem rd32 (addr : Word) : Statement (.rd32 addr) :=
  ⟨_, _, rfl, by rw [op_bfCommandWord]; rfl, reserved_bfCommandWord _ _ _⟩

theorem wr8 (addr value : Word) : Statement (.wr8 addr value) :=
  ⟨_, _, rfl, by rw [op_bfCommandWord]; rfl, reserved_bfCommandWord _ _ _⟩

theorem wr32 (addr value : Word) : Statement (.wr32 addr value) :=
  ⟨_, _, rfl, by rw [op_bfCommandWord]; rfl, reserved_bfCommandWord _ _ _⟩

theorem bset (addr : Word) (bs : BitVec 5) : Statement (.bset addr bs) :=
  ⟨_, _, rfl, by rw [op_bfCommandWord]; rfl, reserved_bfCommandWord _ _ _⟩

theorem bclr (addr : Word) (bs : BitVec 5) : Statement (.bclr addr bs) :=
  ⟨_, _, rfl, by rw [op_bfCommandWord]; rfl, reserved_bfCommandWord _ _ _⟩

end Sys2Proof.Laws.Framing
end

