-- ==== Sys2Proof/Laws/Reset.lean ====
section
/-! SUPPORT. A run that a reset meets, by comparison with a run that it does not meet: no part of a command looks at the
resets before the responses (`LateFree`), and a part of a command goes the same way up to the transaction at which a reset
comes as where the transport fails that transaction instead (`Meets`). -/

namespace Sys2Proof.Machine

/-! ## The resets before the responses -/

/-- The state with these resets before its coming responses. -/
def withLate (l : List (Option Request)) (s : State) : State := { s with lateResets := l }

/-- The fault, its state with these resets. -/
def Fault.withLate (l : List (Option Request)) : Fault → Fault
  | .crossRegime a u => .crossRegime a (Machine.withLate l u)
  | .misaligned a u => .misaligned a (Machine.withLate l u)

/-- The end of a part of a command, its state with these resets. -/
def Res.withLate {α : Type} (l : List (Option Request)) : Res α → Res α
  | .ok a s => .ok a (Machine.withLate l s)
  | .raise e s => .raise e (Machine.withLate l s)
  | .abandoned s => .abandoned (Machine.withLate l s)
  | .fault f => .fault (f.withLate l)

/-- A part of a command does not look at the resets before the responses. -/
def LateFree {α : Type} (f : State → Res α) : Prop := ∀ l s, f (withLate l s) = (f s).withLate l

section late

variable {α β : Type} {f : State → Res α} {g : α → State → Res β}

theorem LateFree.bind (hf : LateFree f) (hg : ∀ a, LateFree (g a)) : LateFree fun s => (f s).bind g := by
  intro l s
  show (f (withLate l s)).bind g = ((f s).bind g).withLate l
  rw [hf l s]
  cases f s with
  | ok a t => exact hg a l t
  | raise e t => rfl
  | abandoned t => rfl
  | fault h => rfl

theorem lateFree_ok (a : State → α) (u : State → State) (ha : ∀ l s, a (withLate l s) = a s)
    (hu : ∀ l s, u (withLate l s) = withLate l (u s)) : LateFree fun s => .ok (a s) (u s) := by
  intro l s
  show Res.ok (a (withLate l s)) (u (withLate l s)) = _
  rw [ha, hu]
  rfl

theorem lateFree_raise (e : Err) : LateFree (fun s => (.raise e s : Res α)) := fun _ _ => rfl

theorem envAct_withLate (l : List (Option Request)) (s : State) (e : EnvAct) :
    envAct (withLate l s) e = withLate l (envAct s e) := by
  cases e with
  | write a v =>
    by_cases h : (s.cfg.exclusive && s.w.touched.contains a) = true <;>
      by_cases hx : registerExists s.cfg (regimeOf s.cfg a) a = true <;>
      simp only [envAct, otherWrite, withLate, doTxn, h, hx, if_true, if_false, Bool.false_eq_true]
  | lock => by_cases h : s.pllState = .updated <;> simp [envAct, withLate, h]

theorem beforeTxn_withLate (l : List (Option Request)) (s : State) :
    beforeTxn (withLate l s) = withLate l (beforeTxn s) := by
  have fold : ∀ (acts : List EnvAct) (s : State),
      acts.foldl envAct (withLate l s) = withLate l (acts.foldl envAct s) := by
    intro acts
    induction acts with
    | nil => exact fun s => rfl
    | cons e acts ih => exact fun s => by rw [List.foldl_cons, List.foldl_cons, envAct_withLate, ih]
  exact fold (nextDraw s).acts (dropDraw s)

theorem issueFault_withLate (l : List (Option Request)) (r : Regime) (a : Word) (s : State) :
    issueFault r a (withLate l s) = (issueFault r a s).map (Fault.withLate l) := by
  by_cases h : inByteWindow s.cfg a = true <;> by_cases h4 : a.toNat % 4 = 0 <;> cases r <;>
    simp [issueFault, withLate, Fault.withLate, h, h4]

theorem issue_lateFree (r : Regime) (a : Word) : LateFree (issue r a) := by
  intro l s
  unfold issue
  rw [beforeTxn_withLate, issueFault_withLate, show nextDraw (withLate l s) = nextDraw s from rfl]
  cases (nextDraw s).reset with
  | some req => rfl
  | none => cases issueFault r a (beforeTxn s) <;> rfl

theorem memRead_lateFree (r : Regime) (a : Word) : LateFree (memRead r a) :=
  (issue_lateFree r a).bind fun d l s => by
    by_cases hb : d.code = 0#32 <;> simp only [hb, if_true, if_false] <;> rfl

theorem memWrite_lateFree (r : Regime) (a v : Word) : LateFree (memWrite r a v) :=
  (issue_lateFree r a).bind fun d l s => by
    by_cases hb : d.code = 0#32 <;> simp only [hb, if_true, if_false] <;> rfl

theorem readBytes_lateFree (a : Word) (i k : Nat) : LateFree (readBytes a i k) := by
  induction k generalizing i with
  | zero => exact fun l s => rfl
  | succ k ih =>
    exact (memRead_lateFree .byte (addrAt a i)).bind fun b l s => ih (i + 1) l (setAcc (accumulate s.w.acc i b) s)

theorem writeBytes_lateFree (a : Word) (i k : Nat) : LateFree (writeBytes a i k) := by
  induction k generalizing i with
  | zero => exact fun l s => rfl
  | succ k ih =>
    exact fun l s => (memWrite_lateFree .byte (addrAt a i) (accByte s.w.acc i)).bind (fun _ => ih (i + 1)) l s

theorem readField_lateFree (a : Word) (bs bc : Nat) : LateFree (readField a bs bc) := by
  intro l s
  unfold readField
  rw [show (withLate l s).cfg = s.cfg from rfl]
  cases regimeOf s.cfg a with
  | byte =>
    exact (readBytes_lateFree a 0 (regCount bs bc)).bind
      (g := fun _ s => .ok (fieldOfAcc s.w.acc bs bc) s) (fun _ l s => rfl) l
      (startBytes (regCount bs bc) (setRegime .byte s))
  | word =>
    by_cases hsp : bs + bc ≤ 32 <;> simp only [hsp, if_true, if_false]
    · exact (memRead_lateFree .word a).bind (g := fun w s => .ok (fieldOfWord w bs bc) (setW0 w s)) (fun _ l s => rfl) l
        (setRegime .word s)
    · refine (memRead_lateFree .word a).bind (g := fun w0 s => (memRead .word (addrAt a 4) (setW0 w0 s)).bind fun w1 s =>
        .ok (fieldOfSpan s.cfg.spanCombine w0 w1 bs bc) (setW1 w1 s)) (fun w0 l s => ?_) l (setRegime .word s)
      exact (memRead_lateFree .word (addrAt a 4)).bind
        (g := fun w1 s => .ok (fieldOfSpan s.cfg.spanCombine w0 w1 bs bc) (setW1 w1 s)) (fun _ l s => rfl) l (setW0 w0 s)

theorem writeField_lateFree (a : Word) (bs bc : Nat) (v : Word) : LateFree (writeField a bs bc v) := by
  intro l s
  unfold writeField
  rw [show (withLate l s).cfg = s.cfg from rfl]
  cases regimeOf s.cfg a with
  | byte =>
    by_cases hf : bs = 0 ∧ bc = 8 <;> simp only [hf, and_self, if_true, if_false]
    · exact memWrite_lateFree .byte a _ l (setRegime .byte s)
    · exact (readBytes_lateFree a 0 (regCount bs bc)).bind
        (g := fun _ s => writeBytes a 0 (regCount bs bc) (setAcc (accWithField s.w.acc bs bc (v &&& mask bc)) s))
        (fun _ l s => writeBytes_lateFree a 0 (regCount bs bc) l (setAcc (accWithField s.w.acc bs bc (v &&& mask bc)) s)) l
        (startBytes (regCount bs bc) (setRegime .byte s))
  | word =>
    by_cases hsp : bs + bc ≤ 32 <;> simp only [hsp, if_true, if_false]
    · by_cases hf : bs = 0 ∧ bc = 32 <;> simp only [hf, and_self, if_true, if_false]
      · exact memWrite_lateFree .word a _ l (setRegime .word s)
      · exact (memRead_lateFree .word a).bind
          (g := fun w s => memWrite .word a (wordWithField w bs bc (v &&& mask bc)) (setW0 w s))
          (fun w l s => memWrite_lateFree .word a _ l (setW0 w s)) l (setRegime .word s)
    · refine (memRead_lateFree .word a).bind (g := fun w0 s => (memRead .word (addrAt a 4) (setW0 w0 s)).bind fun w1 s =>
        (memWrite .word a (spanFirst w0 bs (v &&& mask bc)) (setW1 w1 s)).bind fun _ s =>
          memWrite .word (addrAt a 4) (spanSecond w1 bs bc (v &&& mask bc)) s) (fun w0 l s => ?_) l (setRegime .word s)
      refine (memRead_lateFree .word (addrAt a 4)).bind (g := fun w1 s =>
        (memWrite .word a (spanFirst w0 bs (v &&& mask bc)) (setW1 w1 s)).bind fun _ s =>
          memWrite .word (addrAt a 4) (spanSecond w1 bs bc (v &&& mask bc)) s) (fun w1 l s => ?_) l (setW0 w0 s)
      exact (memWrite_lateFree .word a _).bind (g := fun _ s => memWrite .word (addrAt a 4) _ s)
        (fun _ => memWrite_lateFree .word (addrAt a 4) _) l (setW1 w1 s)

theorem runSteps_lateFree (steps : List (Fin 15 × Descriptor × Word)) : LateFree (runSteps steps) := by
  induction steps with
  | nil => exact fun l s => rfl
  | cons x rest ih =>
    obtain ⟨n, d, v⟩ := x
    exact fun l s => (writeField_lateFree d.addr d.bs d.bc v).bind (g := fun _ s => runSteps rest s) (fun _ => ih) l
      (setStep n s)

theorem solveAndStart_lateFree (xm src sync : Byte) (fin fout : Word) :
    LateFree (solveAndStart xm src sync fin fout) := by
  intro l s
  unfold solveAndStart
  simp only [show (withLate l s).cfg = s.cfg from rfl, show (withLate l s).w = s.w from rfl]
  cases (solveWork s.cfg fin.toNat fout.toNat s.w).best with
  | none => rfl
  | some k =>
    exact (runSteps_lateFree _).bind (g := fun _ s => .ok 0#32 (setStep 0 (setPllState .updated s))) (fun _ l s => rfl) l
      (setPllState .configuring (setWork (solveWork s.cfg fin.toNat fout.toNat s.w) s))

/-- The checks before a command's body do not look at the resets before the responses. -/
theorem withTransport_lateFree {body : State → Res Word} (h : LateFree body) : LateFree (withTransport body) := by
  intro l s
  unfold withTransport
  by_cases hb : s.transportBound = true <;>
    simp only [show (withLate l s).transportBound = s.transportBound from rfl, hb, if_true, if_false, Bool.false_eq_true]
  · exact h l s
  · rfl

theorem withBitCount_lateFree {body : State → Res Word} (bc : Nat) (h : LateFree body) : LateFree (withBitCount bc body) := by
  intro l s
  unfold withBitCount
  by_cases hb : bc = 0 ∨ bc > 32 <;> simp only [hb, if_true, if_false]
  · rfl
  · exact h l s

theorem withFrequencies_lateFree {body : State → Res Word} (fin fout : Word) (h : LateFree body) :
    LateFree (withFrequencies fin fout body) := by
  intro l s
  unfold withFrequencies
  by_cases ho : (outSet s.cfg.profile).contains fout.toNat = true <;> by_cases h0 : fin = 0#32 <;>
    simp only [show (withLate l s).cfg = s.cfg from rfl, ho, h0, if_true, if_false, Bool.false_eq_true] <;>
    first | rfl | exact h l s

/-- A command that answers a response where no reset precedes it is abandoned at that point where one does. -/
theorem command_late {touched : List Word} {body : State → Res Word} (hb : LateFree body) {s t : State} {req : Request}
    {rest : List (Option Request)} (hs : s.lateResets = none :: rest) (h : command touched body s = .next t)
    (ht : t.lateResets = rest) :
    command touched body (withLate (some req :: rest) s) = .next (resetEngine req t) := by
  unfold command at h ⊢
  rw [show (withLate (some req :: rest) s).cfg = s.cfg from rfl]
  split at h
  · next hw =>
    rw [if_pos hw]
    have hbe : body (beginCommand touched (withLate (some req :: rest) s)) =
        (body (beginCommand touched s)).withLate (some req :: rest) := hb _ (beginCommand touched s)
    have hself : body (beginCommand touched s) = (body (beginCommand touched s)).withLate (none :: rest) := by
      have := hb (none :: rest) (beginCommand touched s)
      rwa [show withLate (none :: rest) (beginCommand touched s) = beginCommand touched s by
        rw [← hs]; rfl] at this
    rw [hbe]
    cases hx : body (beginCommand touched s) with
    | ok v u =>
      rw [hx] at h hself
      have hu : u = withLate (none :: rest) u := by simpa [Res.withLate] using hself
      rw [hu] at h
      simp only [endCommand, Host.Outcome.next.injEq] at h
      rw [← h]
      rfl
    | raise e u =>
      rw [hx] at h hself
      have hu : u = withLate (none :: rest) u := by simpa [Res.withLate] using hself
      rw [hu] at h
      simp only [endCommand, Host.Outcome.next.injEq] at h
      rw [← h]
      rfl
    | abandoned u =>
      rw [hx] at h hself
      have hu : u = withLate (none :: rest) u := by simpa [Res.withLate] using hself
      simp only [endCommand, Host.Outcome.next.injEq] at h
      rw [← h, hu] at ht
      exact absurd (congrArg List.length ht) (by simp [withLate])
    | fault f =>
      rw [hx] at h
      simp [endCommand] at h
  · simp at h

end late

/-! ## A reset before a transaction -/

/-- The state with these draws. -/
def withDraws (l : List Draw) (s : State) : State := { s with draws := l }

/-- The second list: the draws up to the one at which the reset `req` comes, which the transport fails instead. -/
inductive Ahead (req : Request) (tail : Draw) : List Draw → List Draw → Prop where
  | here {draws : List Draw} (h : (draws.headD tail).reset = some req) :
      Ahead req tail draws [{ draws.headD tail with reset := none, code := 1#32 }]
  | later {draws l : List Draw} (h : Ahead req tail draws.tail l) : Ahead req tail draws (draws.headD tail :: l)

/-- `s₀` is `s`, but that the transport fails the transaction at which a reset still comes in `s`; both runs began in `o`. -/
structure Twin (req : Request) (o s s₀ : State) : Prop where
  cfg : s.cfg = o.cfg
  bound : s.transportBound = o.transportBound
  draws : ∃ l, Ahead req s.tail s.draws l ∧ s₀ = withDraws l s

/-- How the two runs of a part of a command stand: they go the same way, the failure still ahead; or the second ended before
it; or the reset abandoned the first just where the second failed, or faulted. -/
inductive Met {α : Type} (req : Request) (o : State) : Res α → Res α → Prop where
  | ok {a : α} {t t₀ : State} (h : Twin req o t t₀) : Met req o (.ok a t) (.ok a t₀)
  | raise {e : Err} {t t₀ : State} (h : Twin req o t t₀) : Met req o (.raise e t) (.raise e t₀)
  | early {x : Res α} {t₀ : State} (h : t₀.draws ≠ []) : Met req o x (.abandoned t₀)
  | earlyFault {x : Res α} {f : Fault} (h : f.stopped.draws ≠ []) : Met req o x (.fault f)
  | failed {u : State} {e : Err} {ev : Txn} (hev : ev.isEngine = true) (hc : u.cfg = o.cfg)
      (hb : u.transportBound = o.transportBound) :
      Met req o (.abandoned (resetEngine req u)) (.raise e (withDraws [] (logTxn ev u)))
  | faulted {u : State} {f : Fault} (hf : f.stopped = withDraws [] u) (hc : u.cfg = o.cfg)
      (hb : u.transportBound = o.transportBound) : Met req o (.abandoned (resetEngine req u)) (.fault f)

/-- A part of a command keeps the two runs so. -/
def Meets {α : Type} (req : Request) (o : State) (f : State → Res α) : Prop :=
  ∀ s s₀, Twin req o s s₀ → Met req o (f s) (f s₀)

section meets

variable {α β : Type} {req : Request} {o s s₀ : State} {f : State → Res α} {g : α → State → Res β}

theorem Ahead.ne_nil {tail : Draw} {draws l : List Draw} (h : Ahead req tail draws l) : l ≠ [] := by cases h <;> simp

theorem Twin.draws_ne_nil (h : Twin req o s s₀) : s₀.draws ≠ [] := by
  obtain ⟨l, hl, rfl⟩ := h.draws
  exact hl.ne_nil

/-- The twins agree on all that the draws don't reach. -/
theorem Twin.same (h : Twin req o s s₀) : s₀.cfg = s.cfg ∧ s₀.w = s.w ∧ s₀.transportBound = s.transportBound := by
  obtain ⟨l, _, rfl⟩ := h.draws
  exact ⟨rfl, rfl, rfl⟩

/-- A change that leaves the draws, the configuration and the transport alone keeps twins. -/
theorem Twin.map {u : State → State} (h : Twin req o s s₀) (hw : ∀ l, u (withDraws l s) = withDraws l (u s))
    (hc : (u s).cfg = s.cfg) (hb : (u s).transportBound = s.transportBound) (hd : (u s).draws = s.draws)
    (ht : (u s).tail = s.tail) : Twin req o (u s) (u s₀) := by
  obtain ⟨l, hl, rfl⟩ := h.draws
  exact ⟨hc.trans h.cfg, hb.trans h.bound, l, by rwa [hd, ht], hw l⟩

theorem Meets.bind (hf : Meets req o f) (hg : ∀ a, Meets req o (g a)) : Meets req o fun s => (f s).bind g := by
  intro s s₀ h
  have hm := hf s s₀ h
  revert hm
  show Met req o (f s) (f s₀) → Met req o ((f s).bind g) ((f s₀).bind g)
  generalize f s = x
  generalize f s₀ = y
  intro hm
  cases hm with
  | ok h => exact hg _ _ _ h
  | raise h => exact .raise h
  | early h => exact .early h
  | earlyFault h => exact .earlyFault h
  | failed hev hc hb => exact .failed hev hc hb
  | faulted hf hc hb => exact .faulted hf hc hb

theorem envAct_withDraws (l : List Draw) (s : State) (e : EnvAct) :
    envAct (withDraws l s) e = withDraws l (envAct s e) := by
  cases e with
  | write a v =>
    by_cases h : (s.cfg.exclusive && s.w.touched.contains a) = true <;>
      by_cases hx : registerExists s.cfg (regimeOf s.cfg a) a = true <;>
      simp only [envAct, otherWrite, withDraws, doTxn, h, hx, if_true, if_false, Bool.false_eq_true]
  | lock => by_cases h : s.pllState = .updated <;> simp [envAct, withDraws, h]

/-- The other agents act the same way whatever the later draws are. -/
theorem beforeTxn_withDraws (d : Draw) (l : List Draw) (s : State) (hd : d.acts = (nextDraw s).acts) :
    beforeTxn (withDraws (d :: l) s) = withDraws l (beforeTxn s) := by
  have fold : ∀ (acts : List EnvAct) (s : State),
      acts.foldl envAct (withDraws l s) = withDraws l (acts.foldl envAct s) := by
    intro acts
    induction acts with
    | nil => exact fun s => rfl
    | cons e acts ih => exact fun s => by rw [List.foldl_cons, List.foldl_cons, envAct_withDraws, ih]
  have := fold (nextDraw s).acts (dropDraw s)
  rw [← hd] at this
  show d.acts.foldl envAct (withDraws l (dropDraw s)) = withDraws l ((nextDraw s).acts.foldl envAct (dropDraw s))
  rw [this, hd]

/-- The fault of an issue carries the state of the issue. -/
theorem issueFault_stopped {r : Regime} {a : Word} {s : State} {f : Fault} (h : issueFault r a s = some f) :
    f.stopped = s := by
  unfold issueFault at h
  split at h <;> repeat' split at h
  all_goals first
    | (obtain rfl := Option.some.inj h; rfl)
    | cases h

/-- A transaction: what follows its issue fails with the draw's code, or goes on in the same way in both runs. -/
theorem meets_transaction (r : Regime) (a : Word) {k : Draw → State → Res α}
    (hk : ∀ d, Meets req o (k d)) (hfail : ∀ d u, d.code ≠ 0#32 → ∃ e ev, ev.isEngine = true ∧
      ∀ l, k d (withDraws l u) = .raise e (withDraws l (logTxn ev u))) :
    Meets req o fun s => (issue r a s).bind k := by
  intro s s₀ h
  obtain ⟨l, hl, rfl⟩ := h.draws
  have hc : (beforeTxn s).cfg = o.cfg := by rw [beforeTxn_cfg, h.cfg]
  have hb : (beforeTxn s).transportBound = o.transportBound := by rw [beforeTxn_transportBound, h.bound]
  generalize hdr : s.draws = draws at hl
  cases hl with
  | here hr =>
    have hn : nextDraw s = draws.headD s.tail := by rw [← hdr]; rfl
    have hs : issue r a s = .abandoned (resetEngine req (beforeTxn s)) := by
      unfold issue
      rw [hn, hr]
    have hs₀ := beforeTxn_withDraws { draws.headD s.tail with reset := none, code := 1#32 } [] s (by rw [hn])
    show Met req o ((issue r a s).bind k) ((issue r a (withDraws _ s)).bind k)
    rw [hs]
    unfold issue
    rw [hs₀, show (nextDraw (withDraws [{ draws.headD s.tail with reset := none, code := 1#32 }] s)).reset = none from rfl]
    cases hf : issueFault r a (withDraws [] (beforeTxn s)) with
    | some f => exact .faulted (issueFault_stopped hf) hc hb
    | none =>
      obtain ⟨e, ev, hev, hke⟩ := hfail { draws.headD s.tail with reset := none, code := 1#32 } (beforeTxn s) (by simp)
      show Met req o _ (k { draws.headD s.tail with reset := none, code := 1#32 } (withDraws [] (beforeTxn s)))
      rw [hke]
      exact .failed hev hc hb
  | @later _ l hl =>
    have hn : nextDraw s = draws.headD s.tail := by rw [← hdr]; rfl
    have hs₀ := beforeTxn_withDraws (draws.headD s.tail) l s (by rw [hn])
    have ht : Twin req o (beforeTxn s) (withDraws l (beforeTxn s)) :=
      ⟨hc, hb, l, by rwa [beforeTxn_tail, beforeTxn_draws, hdr], rfl⟩
    show Met req o ((issue r a s).bind k) ((issue r a (withDraws _ s)).bind k)
    unfold issue
    rw [hs₀, show nextDraw (withDraws (draws.headD s.tail :: l) s) = nextDraw s from hn.symm]
    cases (nextDraw s).reset with
    | some q => exact .early hl.ne_nil
    | none =>
      cases hf₀ : issueFault r a (withDraws l (beforeTxn s)) with
      | some f => exact .earlyFault (by rw [issueFault_stopped hf₀]; exact hl.ne_nil)
      | none =>
        cases hf : issueFault r a (beforeTxn s) with
        | none => exact hk _ _ _ ht
        | some f =>
          exfalso
          unfold issueFault at hf hf₀
          rw [show (withDraws l (beforeTxn s)).cfg = (beforeTxn s).cfg from rfl] at hf₀
          generalize (beforeTxn s).cfg = c at hf hf₀
          cases r <;> by_cases hw : inByteWindow c a = true <;> by_cases h4 : a.toNat % 4 = 0 <;>
            simp [hw, h4] at hf hf₀

theorem memRead_meets (r : Regime) (a : Word) : Meets req o (memRead r a) := by
  refine meets_transaction r a (fun d s s₀ h => ?_) fun d u hd => ⟨.transportError d.code, .readFailed r a d.code, rfl,
    fun l => if_neg hd⟩
  obtain ⟨l, hl, rfl⟩ := h.draws
  by_cases hd : d.code = 0#32 <;> simp only [hd, if_true, if_false]
  · exact .ok ⟨h.cfg, h.bound, l, hl, rfl⟩
  · exact .raise ⟨h.cfg, h.bound, l, hl, rfl⟩

theorem memWrite_meets (r : Regime) (a v : Word) : Meets req o (memWrite r a v) := by
  refine meets_transaction r a (fun d s s₀ h => ?_) fun d u hd => ⟨.transportError d.code, .writeFailed r a (clip r v) d.code,
    rfl, fun l => if_neg hd⟩
  obtain ⟨l, hl, rfl⟩ := h.draws
  by_cases hd : d.code = 0#32 <;> simp only [hd, if_true, if_false]
  · exact .ok ⟨h.cfg, h.bound, l, hl, rfl⟩
  · exact .raise ⟨h.cfg, h.bound, l, hl, rfl⟩

theorem readBytes_meets (a : Word) (i k : Nat) : Meets req o (readBytes a i k) := by
  induction k generalizing i with
  | zero => exact fun s s₀ h => .ok h
  | succ k ih =>
    refine (memRead_meets .byte (addrAt a i)).bind fun b s s₀ h => ?_
    simp only [h.same.2.1]
    exact ih (i + 1) _ _ (h.map (u := setAcc (accumulate s.w.acc i b)) (fun _ => rfl) rfl rfl rfl rfl)

theorem writeBytes_meets (a : Word) (i k : Nat) : Meets req o (writeBytes a i k) := by
  induction k generalizing i with
  | zero => exact fun s s₀ h => .ok h
  | succ k ih =>
    intro s s₀ h
    unfold writeBytes
    rw [h.same.2.1]
    exact (memWrite_meets .byte (addrAt a i) (accByte s.w.acc i)).bind (fun _ => ih (i + 1)) s s₀ h

theorem readField_meets (a : Word) (bs bc : Nat) : Meets req o (readField a bs bc) := by
  intro s s₀ h
  unfold readField
  rw [h.same.1]
  have hr : ∀ r, Twin req o (setRegime r s) (setRegime r s₀) := fun r => h.map (fun _ => rfl) rfl rfl rfl rfl
  cases regimeOf s.cfg a with
  | byte =>
    refine (readBytes_meets a 0 (regCount bs bc)).bind (g := fun _ s => .ok (fieldOfAcc s.w.acc bs bc) s) (fun _ t t₀ ht => ?_)
      _ _ ((hr .byte).map (u := startBytes (regCount bs bc)) (fun _ => rfl) rfl rfl rfl rfl)
    simp only [ht.same.2.1]
    exact .ok ht
  | word =>
    by_cases hsp : bs + bc ≤ 32 <;> simp only [hsp, if_true, if_false]
    · exact (memRead_meets .word a).bind (g := fun w s => .ok (fieldOfWord w bs bc) (setW0 w s))
        (fun w t t₀ ht => .ok (ht.map (u := setW0 w) (fun _ => rfl) rfl rfl rfl rfl)) _ _ (hr .word)
    · refine (memRead_meets .word a).bind (g := fun w0 s => (memRead .word (addrAt a 4) (setW0 w0 s)).bind fun w1 s =>
        .ok (fieldOfSpan s.cfg.spanCombine w0 w1 bs bc) (setW1 w1 s)) (fun w0 t t₀ ht => ?_) _ _ (hr .word)
      refine (memRead_meets .word (addrAt a 4)).bind
        (g := fun w1 s => .ok (fieldOfSpan s.cfg.spanCombine w0 w1 bs bc) (setW1 w1 s)) (fun w1 t t₀ ht => ?_) _ _
        (ht.map (u := setW0 w0) (fun _ => rfl) rfl rfl rfl rfl)
      simp only [ht.same.1]
      exact .ok (ht.map (u := setW1 w1) (fun _ => rfl) rfl rfl rfl rfl)

theorem writeField_meets (a : Word) (bs bc : Nat) (v : Word) : Meets req o (writeField a bs bc v) := by
  intro s s₀ h
  unfold writeField
  rw [h.same.1]
  have hr : ∀ r, Twin req o (setRegime r s) (setRegime r s₀) := fun r => h.map (fun _ => rfl) rfl rfl rfl rfl
  cases regimeOf s.cfg a with
  | byte =>
    by_cases hf : bs = 0 ∧ bc = 8 <;> simp only [hf, and_self, if_true, if_false]
    · exact memWrite_meets .byte a _ _ _ (hr .byte)
    · refine (readBytes_meets a 0 (regCount bs bc)).bind
        (g := fun _ s => writeBytes a 0 (regCount bs bc) (setAcc (accWithField s.w.acc bs bc (v &&& mask bc)) s))
        (fun _ t t₀ ht => ?_) _ _ ((hr .byte).map (u := startBytes (regCount bs bc)) (fun _ => rfl) rfl rfl rfl rfl)
      simp only [ht.same.2.1]
      exact writeBytes_meets a 0 (regCount bs bc) _ _
        (ht.map (u := setAcc (accWithField t.w.acc bs bc (v &&& mask bc))) (fun _ => rfl) rfl rfl rfl rfl)
  | word =>
    by_cases hsp : bs + bc ≤ 32 <;> simp only [hsp, if_true, if_false]
    · by_cases hf : bs = 0 ∧ bc = 32 <;> simp only [hf, and_self, if_true, if_false]
      · exact memWrite_meets .word a _ _ _ (hr .word)
      · exact (memRead_meets .word a).bind (g := fun w s => memWrite .word a (wordWithField w bs bc (v &&& mask bc)) (setW0 w s))
          (fun w t t₀ ht => memWrite_meets .word a _ _ _ (ht.map (u := setW0 w) (fun _ => rfl) rfl rfl rfl rfl)) _ _ (hr .word)
    · refine (memRead_meets .word a).bind (g := fun w0 s => (memRead .word (addrAt a 4) (setW0 w0 s)).bind fun w1 s =>
        (memWrite .word a (spanFirst w0 bs (v &&& mask bc)) (setW1 w1 s)).bind fun _ s =>
          memWrite .word (addrAt a 4) (spanSecond w1 bs bc (v &&& mask bc)) s) (fun w0 t t₀ ht => ?_) _ _ (hr .word)
      refine (memRead_meets .word (addrAt a 4)).bind (g := fun w1 s =>
        (memWrite .word a (spanFirst w0 bs (v &&& mask bc)) (setW1 w1 s)).bind fun _ s =>
          memWrite .word (addrAt a 4) (spanSecond w1 bs bc (v &&& mask bc)) s) (fun w1 t t₀ ht => ?_) _ _
        (ht.map (u := setW0 w0) (fun _ => rfl) rfl rfl rfl rfl)
      exact (memWrite_meets .word a _).bind (g := fun _ s => memWrite .word (addrAt a 4) _ s)
        (fun _ => memWrite_meets .word (addrAt a 4) _) _ _ (ht.map (u := setW1 w1) (fun _ => rfl) rfl rfl rfl rfl)

theorem runSteps_meets (steps : List (Fin 15 × Descriptor × Word)) : Meets req o (runSteps steps) := by
  induction steps with
  | nil => exact fun s s₀ h => .ok h
  | cons x rest ih =>
    obtain ⟨n, d, v⟩ := x
    exact fun s s₀ h => (writeField_meets d.addr d.bs d.bc v).bind (g := fun _ s => runSteps rest s) (fun _ => ih) _ _
      (h.map (u := setStep n) (fun _ => rfl) rfl rfl rfl rfl)

theorem solveAndStart_meets (xm src sync : Byte) (fin fout : Word) :
    Meets req o (solveAndStart xm src sync fin fout) := by
  intro s s₀ h
  unfold solveAndStart
  simp only [h.same.1, h.same.2.1]
  have hw := h.map (u := setWork (solveWork s.cfg fin.toNat fout.toNat s.w)) (fun _ => rfl) rfl rfl rfl rfl
  cases (solveWork s.cfg fin.toNat fout.toNat s.w).best with
  | none => exact .raise hw
  | some k =>
    exact (runSteps_meets _).bind (g := fun _ s => .ok 0#32 (setStep 0 (setPllState .updated s)))
      (fun _ t t₀ ht => .ok (ht.map (u := fun s => setStep 0 (setPllState .updated s)) (fun _ => rfl) rfl rfl rfl rfl)) _ _
      (hw.map (u := setPllState .configuring) (fun _ => rfl) rfl rfl rfl rfl)

theorem withTransport_meets {body : State → Res Word} (h : Meets req o body) : Meets req o (withTransport body) := by
  intro s s₀ hs
  unfold withTransport
  rw [hs.same.2.2]
  split
  · exact h _ _ hs
  · exact .raise hs

theorem withBitCount_meets {body : State → Res Word} (bc : Nat) (h : Meets req o body) :
    Meets req o (withBitCount bc body) := by
  intro s s₀ hs
  unfold withBitCount
  split
  · exact .raise hs
  · exact h _ _ hs

theorem withFrequencies_meets {body : State → Res Word} (fin fout : Word) (h : Meets req o body) :
    Meets req o (withFrequencies fin fout body) := by
  intro s s₀ hs
  unfold withFrequencies
  rw [hs.same.1]
  split
  · split
    · exact .raise hs
    · exact h _ _ hs
  · exact .raise hs

/-- The draws of `failedAt` lead to the draw at which the reset comes. -/
theorem failedAt_ahead (s : State) (k : Nat) (h : (drawAt s k).reset = some req) :
    Ahead req s.tail s.draws (failedAt s k).draws := by
  have all : ∀ (k : Nat) (draws : List Draw), (draws.getD k s.tail).reset = some req →
      Ahead req s.tail draws ((List.range k).map (fun j => draws.getD j s.tail) ++
        [{ draws.getD k s.tail with reset := none, code := 1#32 }]) := by
    intro k
    induction k with
    | zero =>
      intro draws h
      have hd : draws.getD 0 s.tail = draws.headD s.tail := by cases draws <;> rfl
      rw [hd] at h ⊢
      exact .here h
    | succ k ih =>
      intro draws h
      have hd : ∀ j, draws.getD (j + 1) s.tail = draws.tail.getD j s.tail := by
        intro j
        cases draws with
        | nil => simp
        | cons d rest => rfl
      have hd0 : draws.getD 0 s.tail = draws.headD s.tail := by cases draws <;> rfl
      rw [hd] at h
      have := Ahead.later (ih draws.tail h)
      rwa [List.range_succ_eq_map, List.map_cons, List.map_map, List.cons_append, hd0, hd k,
        show (fun j => draws.getD j s.tail) ∘ Nat.succ = fun j => draws.tail.getD j s.tail from funext hd]
  exact all k s.draws h

/-- A command that a reset abandons before a transaction, by comparison with the run in which the transport fails that
transaction, or which faults at that access. -/
theorem command_meets {touched : List Word} {body : State → Res Word} {k : Nat}
    (hb : ∀ o, Meets req o body) (hr : (drawAt s k).reset = some req) :
    (∀ t, command touched body (failedAt s k) = .next t → t.draws = [] →
      ∃ u ev, command touched body s = .next (resetEngine req u) ∧ u.cfg = s.cfg ∧ u.transportBound = s.transportBound ∧
        ev.isEngine = true ∧ t.trace = u.trace ++ [ev] ∧ t.mem = u.mem) ∧
    (∀ f, command touched body (failedAt s k) = .fault f → f.stopped.draws = [] →
      ∃ u, command touched body s = .next (resetEngine req u) ∧ u.cfg = s.cfg ∧ u.transportBound = s.transportBound ∧
        f.stopped = withDraws [] u) := by
  have ht : Twin req s (beginCommand touched s) (beginCommand touched (failedAt s k)) :=
    ⟨rfl, rfl, _, failedAt_ahead s k hr, rfl⟩
  have hm := hb s _ _ ht
  unfold command
  rw [show (failedAt s k).cfg = s.cfg from rfl]
  split
  · generalize body (beginCommand touched s) = x at hm ⊢
    generalize body (beginCommand touched (failedAt s k)) = y at hm ⊢
    cases hm with
    | ok h =>
      refine ⟨fun t h₀ hd => ?_, fun f h₀ => by simp [endCommand] at h₀⟩
      simp only [endCommand, Host.Outcome.next.injEq] at h₀
      rw [← h₀, conclude_draws] at hd
      exact absurd hd h.draws_ne_nil
    | raise h =>
      refine ⟨fun t h₀ hd => ?_, fun f h₀ => by simp [endCommand] at h₀⟩
      simp only [endCommand, raiseError, Host.Outcome.next.injEq] at h₀
      rw [← h₀, conclude_draws] at hd
      exact absurd hd h.draws_ne_nil
    | early h =>
      refine ⟨fun t h₀ hd => ?_, fun f h₀ => by simp [endCommand] at h₀⟩
      simp only [endCommand, Host.Outcome.next.injEq] at h₀
      rw [← h₀] at hd
      exact absurd hd h
    | earlyFault h =>
      refine ⟨fun t h₀ => by simp [endCommand] at h₀, fun f h₀ hd => ?_⟩
      simp only [endCommand, Host.Outcome.fault.injEq] at h₀
      rw [← h₀] at hd
      exact absurd hd h
    | @failed u e ev hev hc hb =>
      refine ⟨fun t h₀ _ => ?_, fun f h₀ => by simp [endCommand] at h₀⟩
      simp only [endCommand, raiseError, Host.Outcome.next.injEq] at h₀
      refine ⟨u, ev, rfl, hc, hb, hev, ?_, ?_⟩
      · rw [← h₀, conclude_trace]; rfl
      · rw [← h₀, conclude_mem]; rfl
    | @faulted u g hf hc hb =>
      refine ⟨fun t h₀ => by simp [endCommand] at h₀, fun f h₀ _ => ?_⟩
      simp only [endCommand, Host.Outcome.fault.injEq] at h₀
      exact ⟨u, rfl, hc, hb, h₀ ▸ hf⟩
  · exact ⟨fun t h₀ => by simp at h₀, fun f h₀ => by simp at h₀⟩

end meets

end Sys2Proof.Machine
end

