-- ==== Sys2Proof/Tests/Slice0.lean ====
section
/-! SUPPORT. Tests. Expected values are those of spec/95_test_vectors.md (the vector's name stands in each docstring) and of
the rules named. Each runs one step, or one search, on a small state. The witnesses at the end meet the hypotheses of the
statements, each clause of them. -/

namespace Sys2Proof.Tests

open Sys2Proof Sys2Proof.Machine

/-! ## Small states -/

/-- The test profile TP (95_test_vectors.md section 0). -/
def tp : Cfg :=
  { Cfg.placeholder with
    byteWinLo := 0x00000000#32, byteWinHi := 0x0000FFFF#32
    minPllInput := 1000000, maxPllInput := 40000000
    exclusive := true
    mclkBypass := [(0x01770000#32, [(⟨0x00B0#32, 0, 2⟩, 0#32)])]
    pllPwr := ⟨0x00C0#32, 0, 1⟩, xtalPwr := ⟨0x00C0#32, 1, 1⟩, xtalMode := ⟨0x00C0#32, 2, 2⟩
    pllSrc := ⟨0x00C1#32, 0, 3⟩, pllType := ⟨0x00C1#32, 3, 1⟩, syncSrc := ⟨0x00C1#32, 4, 3⟩
    prescaler := ⟨0x00C2#32, 0, 3⟩, mult := ⟨0x00C4#32, 0, 12⟩, num := ⟨0x00C6#32, 0, 16⟩
    den := ⟨0x00C8#32, 0, 16⟩, update := ⟨0x00CA#32, 0, 1⟩ }

/-- TP with `FRACT_MODE = EXACT`. -/
def tpExact : Cfg := { tp with fractMode := .exact }

/-- TP with `SPAN_COMBINE = DOC_LITERAL`. -/
def tpDoc : Cfg := { tp with spanCombine := .docLiteral }

/-- TP with a volatile word register. -/
def tpVolatile : Cfg := { tp with volatileAddrs := [0x40000000#32] }

/-- TP where other agents may write any register. -/
def tpShared : Cfg := { tp with exclusive := false }

/-- A record that is not well-formed: `BYTE_WIN_LO > BYTE_WIN_HI` (00_scope.md R7). -/
def tpBad : Cfg := { tp with byteWinLo := 1#32, byteWinHi := 0#32 }

/-- An idle machine under TP. -/
def base : State := { State.reset with cfg := tp }

/-- `base` with byte registers. -/
def withBytes (l : List Host.Cell) : State := { base with mem := ⟨l, []⟩ }

/-- `base` with the two word registers of the word vectors, `A = 0x40000000`. -/
def withWords (w0 w1 : Word) : State :=
  { base with mem := ⟨[], (if w0 = 0#32 then [] else [(0x40000000, w0)]) ++ (if w1 = 0#32 then [] else [(0x40000004, w1)])⟩ }

/-- The state with a request placed and started. -/
def start (s : State) (words : List Word) : State := { s with req := s.req.load words, busy := true }

/-- The draw of a transaction that fails with code `0xE1`. -/
def failing : Draw := { Draw.quiet with code := 0xE1#32 }

/-- The draw of a transaction that a reset comes before. -/
def resetting : Draw := { Draw.quiet with reset := some ⟨1#32, 2#32, 3#32, 4#32⟩ }

/-- The step answers a next state with `p`. -/
def stepsTo (s : State) (p : State → Bool) : Bool :=
  match step s with
  | .next t => p t
  | .fault _ => false
  | .refused _ => false

/-- The step faults, and the fault has `p`. -/
def faultsWith (s : State) (p : Fault → Bool) : Bool :=
  match step s with
  | .next _ => false
  | .fault f => p f
  | .refused _ => false

/-! ## WellFormed: each check refuses an ill-formed term (30_encoding.md R95, log 15) -/

theorem test_wf_rd8_alias : (Instr.bfRead 0x21#32 0#5 8#6).wellFormed = false := by decide
theorem test_wf_rd32_alias : (Instr.bfRead 0x40000000#32 0#5 32#6).wellFormed = false := by decide
theorem test_wf_wr8_alias : (Instr.bfWrite 0x21#32 0#5 8#6 1#32).wellFormed = false := by decide
theorem test_wf_wr32_alias : (Instr.bfWrite 0x21#32 0#5 32#6 1#32).wellFormed = false := by decide
theorem test_wf_bset_alias : (Instr.bfWrite 0x24#32 7#5 1#6 1#32).wellFormed = false := by decide
theorem test_wf_bclr_alias : (Instr.bfWrite 0x20#32 0#5 1#6 0#32).wellFormed = false := by decide

/-! ## Decoding (95_test_vectors.md section 2; words written out from 30_encoding.md R83 to R85) -/

/-- ENC-1. -/
theorem test_decode_bfRead :
    decode ⟨0b00000000000000000001000001000001#32, 0x10#32, 0#32, 0#32⟩ = .instr (.bfRead 0x10#32 4#5 8#6) := by decide
/-- ENC-2. -/
theorem test_decode_bfWrite :
    decode ⟨0b00000000000000000010000110000010#32, 0x40001000#32, 0xBEEF#32, 0#32⟩ =
      .instr (.bfWrite 0x40001000#32 24#5 16#6 0xBEEF#32) := by decide
/-- ENC-4. -/
theorem test_decode_pllStart :
    decode ⟨0b00000000000000000000000000000011#32, 0x00030201#32, 0x00BB8000#32, 0x01770000#32⟩ =
      .instr (.pllStart 1#8 2#8 3#8 (BitVec.ofNat 32 12288000) (BitVec.ofNat 32 24576000)) := by decide
/-- ENC-5. -/
theorem test_decode_rd8 : decode ⟨0x00001001#32, 0x21#32, 0#32, 0#32⟩ = .instr (.rd8 0x21#32) := by decide
/-- ENC-6. -/
theorem test_decode_rd32 : decode ⟨0x00004001#32, 0x40000000#32, 0#32, 0#32⟩ = .instr (.rd32 0x40000000#32) := by decide
/-- 30_encoding.md R95, the words of `BF_WRITE 0x10, 0, 8, 0x1A5`. -/
theorem test_decode_wr8 :
    decode ⟨0b00000000000000000001000000000010#32, 0x10#32, 0x1A5#32, 0#32⟩ = .instr (.wr8 0x10#32 0x1A5#32) := by decide
/-- ENC-3. -/
theorem test_decode_wr32 :
    decode ⟨0x00004002#32, 0x40002000#32, 0x12345678#32, 0#32⟩ = .instr (.wr32 0x40002000#32 0x12345678#32) := by decide
/-- ENC-7. -/
theorem test_decode_bset : decode ⟨0x00000272#32, 0x24#32, 1#32, 0#32⟩ = .instr (.bset 0x24#32 7#5) := by decide
/-- ENC-8. -/
theorem test_decode_bclr : decode ⟨0x00000202#32, 0x20#32, 0#32, 0#32⟩ = .instr (.bclr 0x20#32 0#5) := by decide
/-- ENC-9: it encodes, and fails at run time. -/
theorem test_decode_bc33 : decode ⟨0x00004201#32, 0x20#32, 0#32, 0#32⟩ = .instr (.bfRead 0x20#32 0#5 33#6) := by decide
/-- ENC-10. -/
theorem test_encode_bfWrite : encode (.bfWrite 0x20#32 28#5 8#6 0xA5#32) = [0x000011C2#32, 0x20#32, 0xA5#32] := by decide
/-- ENC-11. -/
theorem test_encode_pllStart :
    encode (.pllStart 2#8 5#8 3#8 (BitVec.ofNat 32 19200000) (BitVec.ofNat 32 24576000)) =
      [0x00000003#32, 0x00030502#32, 0x0124F800#32, 0x01770000#32] := by decide
/-- The decoding corner cases of 95_test_vectors.md section 2. -/
theorem test_decode_reserved :
    decode ⟨0x00000005#32, 0#32, 0#32, 0#32⟩ = .illegalOp ∧ decode ⟨0x00000000#32, 0#32, 0#32, 0#32⟩ = .illegalOp ∧
    decode ⟨0x00009001#32, 0x20#32, 0#32, 0#32⟩ = .reservedBits ∧
    decode ⟨0x00000013#32, 0#32, 0#32, 0#32⟩ = .reservedBits ∧
    decode ⟨0x00000003#32, 0x01000000#32, 0#32, 0#32⟩ = .reservedBits := by decide

/-- A table word with no operand words (nbits 32) is the instruction with operand words of zeros. -/
theorem test_decodeTableWord :
    decodeTableWord 32 0x00001001 = some (.rd8 0#32) ∧ decodeTableWord 32 0x00000003 = some (.pllStart 0#8 0#8 0#8 0#32 0#32) ∧
    decodeTableWord 96 (0x00000272 + 0x24 * 2 ^ 32 + 1 * 2 ^ 64) = some (.bset 0x24#32 7#5) := by decide

/-! ## Bit-field steps (95_test_vectors.md sections 3 to 5) -/

/-- BB-1, and BB-3 (eight byte registers, the 64-bit accumulator). -/
theorem test_bfRead_byte :
    stepsTo (start (withBytes [(0x10, 0xAB#8), (0x11, 0xCD#8)]) [0x00001041#32, 0x10#32])
      (fun t => t.rsp0 == 0#32 && t.rsp1 == 0xDA#32 && t.trace.length == 2 && !t.busy) = true ∧
    stepsTo (start (withBytes [(0x13, 0x80#8), (0x14, 0xFF#8), (0x15, 0xFF#8), (0x16, 0xFF#8), (0x17, 0x7F#8)])
        (encode (.bfRead 0x10#32 31#5 32#6)))
      (fun t => t.rsp1 == 0xFFFFFFFF#32 && t.trace.length == 8) = true := by decide
/-- BS-4: the spanning read in both modes. -/
theorem test_bfRead_span :
    stepsTo (start (withWords 0x80000000#32 0x7FFFFFFF#32) (encode (.bfRead 0x40000000#32 31#5 32#6)))
      (fun t => t.rsp1 == 0xFFFFFFFF#32) = true ∧
    stepsTo (start { withWords 0x80000000#32 0x7FFFFFFF#32 with cfg := tpDoc } (encode (.bfRead 0x40000000#32 31#5 32#6)))
      (fun t => t.rsp1 == 0x80000001#32) = true := by decide
/-- `RD8` of one byte register (R95, R114). -/
theorem test_rd8 :
    stepsTo (start (withBytes [(0x21, 0x5A#8), (0x22, 0xFF#8)]) [0x00001001#32, 0x21#32])
      (fun t => t.rsp1 == 0x5A#32 && t.trace == [.read .byte 0x21#32 0x5A#32]) = true := by decide
/-- BW-2. -/
theorem test_rd32 :
    stepsTo (start (withWords 0x12345678#32 0#32) [0x00004001#32, 0x40000000#32])
      (fun t => t.rsp1 == 0x12345678#32 && t.trace.length == 1) = true := by decide
/-- BB-4, by its pseudo-instruction. -/
theorem test_rd32_byte_regime :
    stepsTo (start (withBytes [(0x10, 0x78#8), (0x11, 0x56#8), (0x12, 0x34#8), (0x13, 0x12#8)]) [0x00004001#32, 0x10#32])
      (fun t => t.rsp1 == 0x12345678#32 && t.trace.length == 4) = true := by decide
/-- BB-7: the transactions, in order, with their values. -/
theorem test_bfWrite_byte :
    stepsTo (start (withBytes [(0x20, 0x11#8), (0x21, 0x22#8), (0x22, 0x33#8)]) (encode (.bfWrite 0x20#32 12#5 8#6 0xAB#32)))
      (fun t => t.rsp0 == 0#32 && t.trace ==
        [.read .byte 0x20#32 0x11#32, .read .byte 0x21#32 0x22#32, .read .byte 0x22#32 0x33#32,
         .write .byte 0x20#32 0x11#32, .write .byte 0x21#32 0xB2#32, .write .byte 0x22#32 0x3A#32]) = true := by decide
/-- BS-2. -/
theorem test_bfWrite_span :
    stepsTo (start (withWords 0#32 0#32) (encode (.bfWrite 0x40000000#32 24#5 16#6 0xCDAB#32)))
      (fun t => t.mem == ⟨[], [(0x40000000, 0xAB000000#32), (0x40000004, 0xCD#32)]⟩ && t.trace.length == 4) = true := by
  decide
/-- BB-5: the byte fast path. -/
theorem test_wr8_fast :
    stepsTo (start (withBytes [(0x10, 0x33#8)]) [0x00001002#32, 0x10#32, 0x1A5#32])
      (fun t => t.trace == [.write .byte 0x10#32 0xA5#32] && t.mem == ⟨[(0x10, 0xA5#8)], []⟩) = true := by decide
/-- BW-6: `WR8` in the word regime reads first. -/
theorem test_wr8_word :
    stepsTo (start (withWords 0xAABBCCDD#32 0#32) [0x00001002#32, 0x40000000#32, 0x12#32])
      (fun t => t.trace == [.read .word 0x40000000#32 0xAABBCCDD#32, .write .word 0x40000000#32 0xAABBCC12#32]) = true := by
  decide
/-- BW-4: the word fast path. -/
theorem test_wr32_fast :
    stepsTo (start (withWords 0x11111111#32 0#32) [0x00004002#32, 0x40000000#32, 0xCAFEF00D#32])
      (fun t => t.trace == [.write .word 0x40000000#32 0xCAFEF00D#32]) = true := by decide
/-- BB-11: `WR32` in the byte regime is no fast path. -/
theorem test_wr32_byte_regime :
    stepsTo (start (withBytes [(0x10, 0x12#8)]) [0x00004002#32, 0x10#32, 0xA1B2C3D4#32])
      (fun t => t.trace.length == 8 && t.mem == ⟨[(0x10, 0xD4#8), (0x11, 0xC3#8), (0x12, 0xB2#8), (0x13, 0xA1#8)], []⟩) =
      true := by decide
/-- `BSET 0x24, 7` sets bit 7 alone (R95, R119). -/
theorem test_bset :
    stepsTo (start (withBytes [(0x24, 0x01#8)]) [0x00000272#32, 0x24#32, 1#32])
      (fun t => t.mem == ⟨[(0x24, 0x81#8)], []⟩ && t.trace.length == 2) = true := by decide
/-- `BCLR` of a spanning word's neighbour: bit 31 of the word at `A` (R95, R121). -/
theorem test_bclr :
    stepsTo (start (withWords 0xFFFFFFFF#32 0#32) (encode (.bclr 0x40000000#32 31#5)))
      (fun t => t.mem == ⟨[], [(0x40000000, 0x7FFFFFFF#32)]⟩ && t.trace.length == 2) = true := by decide

/-- BE-1 and BE-2. -/
theorem test_bit_count :
    stepsTo (start base [0x00000001#32, 0x20#32]) (fun t => t.rsp0 == 0x12#32 && t.trace == []) = true ∧
    stepsTo (start base [0x00004201#32, 0x20#32]) (fun t => t.rsp0 == 0x12#32 && t.trace == []) = true := by decide
/-- BE-3, and BE-4: the null check comes first. -/
theorem test_null_param :
    stepsTo (start { base with transportBound := false } [0x00001001#32, 0x20#32]) (fun t => t.rsp0 == 1#32) = true ∧
    stepsTo (start { base with transportBound := false } [0x00000001#32, 0x20#32]) (fun t => t.rsp0 == 1#32) = true := by
  decide
/-- BE-5. -/
theorem test_cross_regime_byte :
    faultsWith (start base (encode (.bfRead 0xFFFF#32 4#5 8#6)))
      (fun f => match f with
        | .crossRegime a u => a == 0x10000#32 && u.trace == [.read .byte 0xFFFF#32 0#32]
        | .misaligned _ _ => false) = true := by decide
/-- BE-7. -/
theorem test_cross_regime_word :
    faultsWith (start base (encode (.bfRead 0xFFFFFFFC#32 24#5 16#6)))
      (fun f => match f with
        | .crossRegime a u => a == 0#32 && u.trace == [.read .word 0xFFFFFFFC#32 0#32]
        | .misaligned _ _ => false) = true := by decide
/-- BE-6. -/
theorem test_misaligned :
    faultsWith (start base [0x00001001#32, 0x40000002#32])
      (fun f => match f with
        | .crossRegime _ _ => false
        | .misaligned a u => a == 0x40000002#32 && u.trace == []) = true := by decide
/-- BE-8: the sixth transaction fails. -/
theorem test_partial_write :
    stepsTo (start { withBytes [(0x20, 0x11#8), (0x21, 0x22#8), (0x22, 0x33#8)] with
        draws := List.replicate 5 Draw.quiet ++ [failing] } (encode (.bfWrite 0x20#32 12#5 8#6 0xAB#32)))
      (fun t => t.rsp0 == 3#32 && t.rsp1 == 0xE1#32 &&
        t.mem == ⟨[(0x20, 0x11#8), (0x21, 0xB2#8), (0x22, 0x33#8)], []⟩) = true := by decide
/-- BE-11 and BE-12. -/
theorem test_reserved_requests :
    stepsTo (start base [0x00009001#32, 0x20#32]) (fun t => t.rsp0 == 0x62#32 && t.trace == []) = true ∧
    stepsTo (start base [0x00000005#32]) (fun t => t.rsp0 == 0x52#32 && t.trace == []) = true := by decide
/-- A reset before the second transaction abandons the command (70_reset_and_hazards.md R260). -/
theorem test_reset_abandons :
    stepsTo (start { withWords 0#32 0#32 with draws := [Draw.quiet, resetting] }
        (encode (.bfWrite 0x40000000#32 24#5 16#6 0xCDAB#32)))
      (fun t => t.rsp0 == 0#32 && !t.busy && t.trace.length == 1 && t.mem == ⟨[], []⟩ && t.req.req3 == 4#32) = true := by
  decide
/-- Another agent's write of a byte register between its read and its write-back is lost in every bit (20_memory.md R61). -/
theorem test_lost_write_byte :
    stepsTo (start { withBytes [(0x20, 0x11#8), (0x21, 0x22#8), (0x22, 0x33#8)] with
          cfg := tpShared
          draws := List.replicate 3 Draw.quiet ++ [{ Draw.quiet with acts := [.write 0x22#32 0xFF#32] }] }
        (encode (.bfWrite 0x20#32 12#5 8#6 0xAB#32)))
      (fun t => t.mem == ⟨[(0x20, 0x11#8), (0x21, 0xB2#8), (0x22, 0x3A#8)], []⟩ && t.trace.length == 7) = true := by decide
/-- A reset where a register access would fault: the command is abandoned, no fault (70_reset_and_hazards.md R260). -/
theorem test_reset_before_fault :
    stepsTo (start { base with draws := [Draw.quiet, resetting] } (encode (.bfRead 0xFFFF#32 4#5 8#6)))
      (fun t => t.rsp0 == 0#32 && !t.busy && t.trace == [.read .byte 0xFFFF#32 0#32] && t.req.req0 == 1#32) = true := by
  decide
/-- A reset just before the response of a write, and of a rejected command: no response, the write in effect (R260). -/
theorem test_reset_before_response :
    stepsTo (start { withBytes [] with lateResets := [some ⟨1#32, 2#32, 3#32, 4#32⟩] } [0x00001002#32, 0x10#32, 0x1A5#32])
      (fun t => !t.busy && t.req.req0 == 1#32 && t.mem == ⟨[(0x10, 0xA5#8)], []⟩ && t.lateResets == []) = true ∧
    stepsTo (start { base with lateResets := [some ⟨1#32, 2#32, 3#32, 4#32⟩], pllState := .locked } [0x00000005#32])
      (fun t => t.rsp0 == 0#32 && !t.busy && t.req.req0 == 1#32 && t.pllState == .unconfigured) = true := by decide
/-- 00_scope.md R7: a record that is not well-formed. -/
theorem test_ill_formed_config :
    exec (.rd8 0#32) { base with cfg := tpBad } = .refused .illFormedConfig := by rfl

/-! ## The solver (95_test_vectors.md section 6) -/

/-- S1-1 and S1-2. -/
theorem test_phase1 :
    pllSolve tp 12288000 24576000 = some (⟨.int, 1, 2, 0, 0⟩, 0) ∧
    pllSolve tp 24576000 24576000 = some (⟨.int, 2, 2, 0, 0⟩, 0) := by decide
/-- S2-1. -/
theorem test_phase2_frac : pllSolve tp 19200000 24576000 = some (⟨.frac, 2, 2, 14, 25⟩, 0) := by decide +kernel
/-- S2-8: rescaling, and the two modes differ. -/
theorem test_phase2_modes :
    pllSolve tp 26000000 24576000 = some (⟨.frac, 7, 6, 40410, 65535⟩, 5) ∧
    pllSolve tpExact 26000000 24576000 = some (⟨.frac, 4, 3, 1269, 1625⟩, 0) := by decide +kernel
/-- S2-15: a high `fract` at `mul = 3072` is skipped. -/
theorem test_phase2_skip :
    pllSolve { tp with minPllInput := 1000 } 55982 24576000 = some (⟨.int, 1, 439, 0, 0⟩, 98) := by decide +kernel

/-! ## PLL_START -/

/-- Program P3's command (L1-1): it ends `OK` with the PLL not locked. -/
theorem test_pllStart_ok :
    stepsTo (start base [0x00000003#32, 0#32, 0x00BB8000#32, 0x01770000#32])
      (fun t => t.rsp0 == 0#32 && t.pllState == .updated && regGet t.mem .byte 0xC2#32 == 1#32 &&
        regGet t.mem .byte 0xC4#32 == 2#32) = true := by decide
/-- L1-3 and ENC-12: the rejections before any transaction, in the order of 60_exceptions.md R237. -/
theorem test_pllStart_rejections :
    stepsTo (start base [0x00000003#32, 0#32, 0#32, 0x01770000#32]) (fun t => t.rsp0 == 0x32#32 && t.trace == []) = true ∧
    stepsTo (start base [0x00000003#32, 0#32, 0#32, 0x02DC6C00#32]) (fun t => t.rsp0 == 0x22#32 && t.trace == []) = true := by
  decide
/-- A failure at step 9 (95_test_vectors.md section 2: `0x00000903`); TP has 16 transactions before it: two each for steps
1 to 8. -/
theorem test_pllStart_step9 :
    stepsTo (start { base with draws := List.replicate 16 Draw.quiet ++ [failing] }
        [0x00000003#32, 0#32, 0x00BB8000#32, 0x01770000#32])
      (fun t => t.rsp0 == 0x903#32 && t.rsp1 == 0xE1#32 && t.pllState == .configuring) = true := by decide

/-! ## Witnesses: states and operands that meet the hypotheses of the statements -/

/-- A state whose next draws are not empty, so that a draw's position matters. -/
def drawn (c : Cfg) (draws : List Draw) : State := { base with cfg := c, draws := draws }

theorem fieldExists_of {c : Cfg} {a : Word} {bs bc : Nat}
    (h : (touchedBy c a bs bc).all (registerExists c (regimeOf c a)) = true) : fieldExists c a bs bc :=
  fun x hx => List.all_eq_true.mp h x hx

theorem fieldStable_of {c : Cfg} {a : Word} {bs bc : Nat}
    (h : (touchedBy c a bs bc).all (fun x => !c.volatileAddrs.contains x) = true) : fieldStable c a bs bc :=
  fun x hx => by simpa using List.all_eq_true.mp h x hx

theorem accessReady_of {s : State} {a : Word} {bs bc : Nat} (h : engineReady s ∧ 1 ≤ bc ∧ bc ≤ 32)
    (hx : (touchedBy s.cfg a bs bc).all (registerExists s.cfg (regimeOf s.cfg a)) = true) : accessReady s a bs bc :=
  ⟨h.1, h.2.1, h.2.2, fieldExists_of hx⟩

theorem readReady_of {s : State} {a : Word} {bs bc : Nat} (h : engineReady s ∧ 1 ≤ bc ∧ bc ≤ 32)
    (hx : (touchedBy s.cfg a bs bc).all (registerExists s.cfg (regimeOf s.cfg a)) = true)
    (hv : (touchedBy s.cfg a bs bc).all (fun x => !s.cfg.volatileAddrs.contains x) = true) : readReady s a bs bc :=
  ⟨h.1, h.2.1, h.2.2, fieldExists_of hx, fieldStable_of hv⟩

theorem witness_DecodeOfEncode : (Instr.bfWrite 0xFFFFFFFF#32 31#5 32#6 0xFFFFFFFF#32).wellFormed = true := by decide
theorem witness_EncodeOfDecode :
    decode ⟨0x00007FF1#32, 0xFFFFFFFF#32, 5#32, 6#32⟩ = .instr (.bfRead 0xFFFFFFFF#32 31#5 63#6) := by decide
theorem witness_StepRunsDecodedRequest :
    ((start base [0x00001001#32, 0x21#32]).busy = true ∧
      decode (start base [0x00001001#32, 0x21#32]).req = .instr (.rd8 0x21#32)) ∧
    decodeTableWord 32 0x00004002 = some (.wr32 0#32 0#32) := by decide
theorem witness_IdleStepTakesHostAction :
    base.busy = false ∧ base.host = [] ∧
    { base with host := [.setReq 0 7#32, .start] }.host = .setReq 0 7#32 :: [.start] ∧
    { base with host := [.setReq 3 7#32] }.host = .setReq 3 7#32 :: [] ∧
    { base with host := [.start] }.host = .start :: [] ∧
    { base with host := [.bind false] }.host = .bind false :: [] ∧
    { base with host := [.reset ⟨1#32, 2#32, 3#32, 4#32⟩] }.host = .reset ⟨1#32, 2#32, 3#32, 4#32⟩ :: [] := by decide
theorem witness_ReservedOpEndsIllegalOp :
    cfgWellFormed base.cfg = true ∧ answered base ∧ (start base [0#32]).busy = true ∧ opField (start base [0#32]).req.req0 = 0#4 ∧
    4 ≤ (opField (start base [0xFFFFFFF4#32]).req.req0).toNat ∧ 4 ≤ (opField (start base [0x0000000F#32]).req.req0).toNat := by decide
theorem witness_ReservedBitsEndCommand :
    cfgWellFormed base.cfg = true ∧ answered base ∧ (start base [0x00008001#32]).busy = true ∧
    opField 0x00008001#32 = 1#4 ∧ (0x00008001#32).extractLsb' 15 17 ≠ 0#17 ∧
    opField 0x80000002#32 = 2#4 ∧ (0x80000002#32).extractLsb' 15 17 ≠ 0#17 ∧
    opField 0x00000013#32 = 3#4 ∧ (0x00000013#32).extractLsb' 4 28 ≠ 0#28 ∧
    opField 0x00000003#32 = 3#4 ∧ (0x01000000#32).extractLsb' 24 8 ≠ 0#8 := by decide

/-- Eight byte registers, and one. -/
theorem witness_ByteReadResult :
    (readOperands (.bfRead 0x10#32 31#5 32#6) = some (0x10#32, 31, 32) ∧ readReady base 0x10#32 31 32 ∧
      regimeOf base.cfg 0x10#32 = .byte ∧ (cleanFor (regCount 31 32) base ∧ answered base)) ∧
    (readOperands (.rd8 0xFFFF#32) = some (0xFFFF#32, 0, 8) ∧ readReady base 0xFFFF#32 0 8 ∧
      regimeOf base.cfg 0xFFFF#32 = .byte ∧ (cleanFor (regCount 0 8) base ∧ answered base)) :=
  ⟨⟨by decide, readReady_of (by decide) (by decide) (by decide), by decide, by decide⟩,
    by decide, readReady_of (by decide) (by decide) (by decide), by decide, by decide⟩
theorem witness_WordReadResult :
    readOperands (.rd32 0xFFFFFFFC#32) = some (0xFFFFFFFC#32, 0, 32) ∧ readReady base 0xFFFFFFFC#32 0 32 ∧
    regimeOf base.cfg 0xFFFFFFFC#32 = .word ∧ 0 + 32 ≤ 32 ∧ (cleanFor 1 base ∧ answered base) :=
  ⟨by decide, readReady_of (by decide) (by decide) (by decide), by decide, by decide, by decide⟩
/-- One bit past the word, under both readings. -/
theorem witness_SpanReadResult :
    (readOperands (.bfRead 0x10000#32 1#5 32#6) = some (0x10000#32, 1, 32) ∧ readReady base 0x10000#32 1 32 ∧
      regimeOf base.cfg 0x10000#32 = .word ∧ 32 < 1 + 32 ∧ (cleanFor 2 base ∧ answered base) ∧ base.cfg.spanCombine = .le) ∧
    (readReady (drawn tpDoc []) 0x10000#32 1 32 ∧ regimeOf tpDoc 0x10000#32 = .word ∧ (cleanFor 2 (drawn tpDoc []) ∧ answered (drawn tpDoc [])) ∧
      (drawn tpDoc []).cfg.spanCombine = .docLiteral) :=
  ⟨⟨by decide, readReady_of (by decide) (by decide) (by decide), by decide, by decide, by decide, by decide⟩,
    readReady_of (by decide) (by decide) (by decide), by decide, by decide, by decide⟩
theorem witness_ReadReturnsFieldBits :
    readOperands (.bfRead 0x10#32 31#5 32#6) = some (0x10#32, 31, 32) ∧ readReady base 0x10#32 31 32 ∧
    base.cfg.spanCombine = .le ∧ (cleanFor (readCount base.cfg 0x10#32 31 32) base ∧ answered base) :=
  ⟨by decide, readReady_of (by decide) (by decide) (by decide), by decide, by decide⟩

/-- Volatile registers of both regimes, with drawn values. -/
def volatileState : State :=
  drawn { tp with volatileAddrs := [0x22#32, 0x40000004#32] } [Draw.quiet, { Draw.quiet with fresh := 0x1FF#32 }]

/-- The command of the two frames: the second transaction fails, nothing else happens. -/
def failingState : State := drawn tp [Draw.quiet, failing]

theorem witness_ReadCommandsFrame :
    readOperands (.bfRead 0x10#32 4#5 8#6) = some (0x10#32, 4, 8) ∧ undisturbed failingState ∧
    (match exec (.bfRead 0x10#32 4#5 8#6) failingState with
      | .next t => t.rsp0 == 3#32
      | .fault _ => false
      | .refused _ => false) = true := by decide
/-- Also the witness of `ReadCommandsIssueNoWrite`: another agent writes between the two reads. -/
theorem witness_ReadCommandsIssueNoWrite :
    readOperands (.bfRead 0x10#32 4#5 8#6) = some (0x10#32, 4, 8) ∧
    (match exec (.bfRead 0x10#32 4#5 8#6)
        (drawn tpShared [Draw.quiet, { Draw.quiet with acts := [.write 0x11#32 0xCD#32] }]) with
      | .next t => t.rsp1 == 0xD0#32
      | .fault _ => false
      | .refused _ => false) = true := by decide
theorem witness_ReadDependsOnlyOnItsRegisters :
    readOperands (.rd8 0x10#32) = some (0x10#32, 0, 8) ∧ readReady (withBytes [(0x10, 1#8)]) 0x10#32 0 8 ∧
    readReady (withBytes [(0x10, 1#8), (0x11, 2#8)]) 0x10#32 0 8 ∧
    (withBytes [(0x10, 1#8), (0x11, 2#8)]).cfg = (withBytes [(0x10, 1#8)]).cfg ∧
    (cleanFor (readCount tp 0x10#32 0 8) (withBytes [(0x10, 1#8)]) ∧ answered (withBytes [(0x10, 1#8)])) ∧
    (cleanFor (readCount tp 0x10#32 0 8) (withBytes [(0x10, 1#8), (0x11, 2#8)]) ∧ answered (withBytes [(0x10, 1#8), (0x11, 2#8)])) ∧
    (∀ x ∈ touchedBy tp 0x10#32 0 8, regGet (withBytes [(0x10, 1#8), (0x11, 2#8)]).mem (regimeOf tp 0x10#32) x =
      regGet (withBytes [(0x10, 1#8)]).mem (regimeOf tp 0x10#32) x) :=
  ⟨by decide, readReady_of (by decide) (by decide) (by decide),
    readReady_of (by decide) (by decide) (by decide), by decide, by decide, by decide,
    fun x hx => by
      have h : x = 0x10#32 := by simpa [touchedBy, regimeOf, inByteWindow, tp, regCount, addrAt] using hx
      rw [h]
      decide⟩
/-- Each clause: a transaction that succeeds, of a stable and of a volatile register, and one that fails. -/
theorem witness_TransactionEffects :
    (registerExists base.cfg .byte 0xFFFF#32 = true ∧ (nextDraw base).reset = none ∧ base.mem.wf ∧
      (nextDraw base).code = 0#32 ∧ 0xFFFF#32 ∉ base.cfg.volatileAddrs) ∧
    (registerExists tpVolatile .word 0x40000000#32 = true ∧ (nextDraw (drawn tpVolatile [])).reset = none ∧
      0x40000000#32 ∈ tpVolatile.volatileAddrs) ∧
    (nextDraw (drawn tp [failing])).reset = none ∧ (nextDraw (drawn tp [failing])).code ≠ 0#32 := by decide
/-- A volatile and a stable byte register; one word; two words, the second volatile, under both readings. -/
theorem witness_ReadReturnsDrawnValues :
    (readOperands (.bfRead 0x21#32 4#5 8#6) = some (0x21#32, 4, 8) ∧ accessReady volatileState 0x21#32 4 8 ∧
      (cleanFor (readCount volatileState.cfg 0x21#32 4 8) volatileState ∧ answered volatileState) ∧
      regimeOf volatileState.cfg 0x21#32 = .byte ∧ 0x21#32 ∉ volatileState.cfg.volatileAddrs ∧
      0x22#32 ∈ volatileState.cfg.volatileAddrs) ∧
    (readOperands (.rd32 0x40000004#32) = some (0x40000004#32, 0, 32) ∧ accessReady volatileState 0x40000004#32 0 32 ∧
      regimeOf volatileState.cfg 0x40000004#32 = .word) ∧
    (readOperands (.bfRead 0x40000000#32 31#5 2#6) = some (0x40000000#32, 31, 2) ∧
      accessReady volatileState 0x40000000#32 31 2 ∧ cleanFor (readCount volatileState.cfg 0x40000000#32 31 2) volatileState ∧
      regimeOf volatileState.cfg 0x40000000#32 = .word ∧ 32 < 31 + 2 ∧ volatileState.cfg.spanCombine = .le) ∧
    (let s := { volatileState with cfg := { volatileState.cfg with spanCombine := .docLiteral } }
    accessReady s 0x40000000#32 31 2 ∧ (cleanFor (readCount s.cfg 0x40000000#32 31 2) s ∧ answered s) ∧
      regimeOf s.cfg 0x40000000#32 = .word ∧ s.cfg.spanCombine = .docLiteral) :=
  ⟨⟨by decide, accessReady_of (by decide) (by decide), by decide, by decide, by decide, by decide⟩,
    ⟨by decide, accessReady_of (by decide) (by decide), by decide⟩,
    ⟨by decide, accessReady_of (by decide) (by decide), by decide, by decide, by decide, by decide⟩,
    accessReady_of (by decide) (by decide), by decide, by decide, by decide⟩
/-- The last of eight reads fails. -/
theorem witness_ReadFailsAtTransaction :
    readOperands (.bfRead 0x10#32 31#5 32#6) = some (0x10#32, 31, 32) ∧
    readReady (drawn tp (List.replicate 7 Draw.quiet ++ [failing])) 0x10#32 31 32 ∧ 7 < readCount tp 0x10#32 31 32 ∧
    (cleanFor 7 (drawn tp (List.replicate 7 Draw.quiet ++ [failing])) ∧ answered (drawn tp (List.replicate 7 Draw.quiet ++ [failing]))) ∧
    (drawAt (drawn tp (List.replicate 7 Draw.quiet ++ [failing])) 7).undisturbed ∧
    (drawAt (drawn tp (List.replicate 7 Draw.quiet ++ [failing])) 7).code ≠ 0#32 :=
  ⟨by decide, readReady_of (by decide) (by decide) (by decide), by decide, by decide, by decide, by decide⟩

/-- Every path of a field write: byte fast path, byte registers, word fast path, word, spanning. -/
theorem witness_WriteTransactions :
    (writeOperands (.wr8 0xFFFF#32 1#32) = some (0xFFFF#32, 0, 8, 1#32) ∧ accessReady base 0xFFFF#32 0 8 ∧
      fieldStable base.cfg 0xFFFF#32 0 8 ∧ (cleanFor (writeCount base.cfg 0xFFFF#32 0 8) base ∧ answered base)) ∧
    (writeOperands (.bfWrite 0x10#32 31#5 32#6 1#32) = some (0x10#32, 31, 32, 1#32) ∧ accessReady base 0x10#32 31 32 ∧
      fieldStable base.cfg 0x10#32 31 32 ∧ (cleanFor (writeCount base.cfg 0x10#32 31 32) base ∧ answered base)) ∧
    (writeOperands (.wr32 0x40000000#32 1#32) = some (0x40000000#32, 0, 32, 1#32) ∧ accessReady base 0x40000000#32 0 32 ∧
      fieldStable base.cfg 0x40000000#32 0 32 ∧ (cleanFor (writeCount base.cfg 0x40000000#32 0 32) base ∧ answered base)) ∧
    (writeOperands (.bset 0x40000000#32 31#5) = some (0x40000000#32, 31, 1, 1#32) ∧ accessReady base 0x40000000#32 31 1 ∧
      fieldStable base.cfg 0x40000000#32 31 1 ∧ (cleanFor (writeCount base.cfg 0x40000000#32 31 1) base ∧ answered base)) ∧
    (writeOperands (.bfWrite 0x40000000#32 31#5 2#6 1#32) = some (0x40000000#32, 31, 2, 1#32) ∧
      accessReady base 0x40000000#32 31 2 ∧ fieldStable base.cfg 0x40000000#32 31 2 ∧
      (cleanFor (writeCount base.cfg 0x40000000#32 31 2) base ∧ answered base)) :=
  ⟨⟨by decide, accessReady_of (by decide) (by decide), fieldStable_of (by decide), by decide⟩,
    ⟨by decide, accessReady_of (by decide) (by decide), fieldStable_of (by decide), by decide⟩,
    ⟨by decide, accessReady_of (by decide) (by decide), fieldStable_of (by decide), by decide⟩,
    ⟨by decide, accessReady_of (by decide) (by decide), fieldStable_of (by decide), by decide⟩,
    by decide, accessReady_of (by decide) (by decide), fieldStable_of (by decide), by decide⟩
/-- Also for `WriteIsNonDestructive` and the write half of `TransactionCounts`. -/
theorem witness_WriteStoresFieldBits :
    writeOperands (.bclr 0xFFFF#32 7#5) = some (0xFFFF#32, 7, 1, 0#32) ∧ accessReady base 0xFFFF#32 7 1 ∧ base.mem.wf ∧
    fieldStable base.cfg 0xFFFF#32 7 1 ∧ (cleanFor (writeCount base.cfg 0xFFFF#32 7 1) base ∧ answered base) ∧
    (∃ j, j < 1 ∧ (regimeOf base.cfg 0xFFFF#32, bitPlace base.cfg 0xFFFF#32 7 j) = (.byte, 0xFFFF#32, 7)) ∧
    (∀ j, j < 1 → (regimeOf base.cfg 0xFFFF#32, bitPlace base.cfg 0xFFFF#32 7 j) ≠ (.byte, 0xFFFF#32, 6)) :=
  ⟨by decide, accessReady_of (by decide) (by decide), by decide, fieldStable_of (by decide), by decide, by decide, by decide⟩
theorem witness_TransactionCounts :
    readOperands (.bfRead 0x40000000#32 31#5 32#6) = some (0x40000000#32, 31, 32) ∧ accessReady base 0x40000000#32 31 32 ∧
    (cleanFor (readCount base.cfg 0x40000000#32 31 32) base ∧ answered base) :=
  ⟨by decide, accessReady_of (by decide) (by decide), by decide⟩
theorem witness_FastPathEqualsReadModifyWrite :
    base.mem.wf ∧ 0xFFFF#32 ∉ base.cfg.volatileAddrs ∧ 0x10000#32 ∉ base.cfg.volatileAddrs ∧ cleanFor 2 base ∧
    registerExists base.cfg .byte 0xFFFF#32 = true ∧ registerExists base.cfg .word 0x10000#32 = true := by decide
theorem witness_WordWriteResult :
    writeOperands (.bfWrite 0x40000000#32 1#5 31#6 1#32) = some (0x40000000#32, 1, 31, 1#32) ∧
    accessReady base 0x40000000#32 1 31 ∧ base.mem.wf ∧ fieldStable base.cfg 0x40000000#32 1 31 ∧
    regimeOf base.cfg 0x40000000#32 = .word ∧ 1 + 31 ≤ 32 ∧ ¬ (1 = 0 ∧ 31 = 32) ∧ (cleanFor 2 base ∧ answered base) :=
  ⟨by decide, accessReady_of (by decide) (by decide), by decide, fieldStable_of (by decide), by decide, by decide, by decide, by decide⟩
theorem witness_SpanWriteResult :
    writeOperands (.bfWrite 0x40000000#32 31#5 2#6 2#32) = some (0x40000000#32, 31, 2, 2#32) ∧
    accessReady base 0x40000000#32 31 2 ∧ base.mem.wf ∧ fieldStable base.cfg 0x40000000#32 31 2 ∧
    regimeOf base.cfg 0x40000000#32 = .word ∧ 32 < 31 + 2 ∧ (cleanFor 4 base ∧ answered base) :=
  ⟨by decide, accessReady_of (by decide) (by decide), by decide, fieldStable_of (by decide), by decide, by decide, by decide⟩
theorem witness_WriteThenReadReturnsValue :
    accessReady base 0x40000000#32 (31#5).toNat (32#6).toNat ∧ base.mem.wf ∧
    fieldStable base.cfg 0x40000000#32 (31#5).toNat (32#6).toNat ∧ base.cfg.spanCombine = .le ∧
    (0xFFFFFFFF#32).toNat < 2 ^ (32#6).toNat ∧
    cleanFor (writeCount base.cfg 0x40000000#32 31 32 + readCount base.cfg 0x40000000#32 31 32) base ∧
    base.lateResets.getD 0 none = none ∧ base.lateResets.getD 1 none = none :=
  ⟨accessReady_of (by decide) (by decide), by decide, fieldStable_of (by decide), by decide, by decide, by decide⟩
theorem witness_WriteCommandsFrame :
    writeOperands (.bset 0x10#32 7#5) = some (0x10#32, 7, 1, 1#32) ∧ undisturbed failingState ∧
    (match exec (.bset 0x10#32 7#5) failingState with
      | .next t => t.rsp0 == 3#32
      | .fault _ => false
      | .refused _ => false) = true ∧
    (Regime.byte, 0x11#32) ∉ (touchedBy failingState.cfg 0x10#32 7 1).map (fun y => (regimeOf failingState.cfg 0x10#32, y)) := by decide
/-- Another agent acts, on a register of the field and on one next to it. -/
theorem witness_ExclusiveWriteHolds :
    writeOperands (.bset 0x10#32 7#5) = some (0x10#32, 7, 1, 1#32) ∧
    accessReady (drawn tp [Draw.quiet, { Draw.quiet with acts := [.write 0x10#32 0#32, .write 0x11#32 9#32] }]) 0x10#32 7 1 ∧
    base.mem.wf ∧ tp.exclusive = true ∧
    answered (drawn tp [Draw.quiet, { Draw.quiet with acts := [.write 0x10#32 0#32, .write 0x11#32 9#32] }]) ∧
    grantedFor (writeCount tp 0x10#32 7 1)
      (drawn tp [Draw.quiet, { Draw.quiet with acts := [.write 0x10#32 0#32, .write 0x11#32 9#32] }]) :=
  ⟨by decide, accessReady_of (by decide) (by decide), by decide, by decide, by decide, by decide⟩
/-- The first clause. -/
theorem witness_InterleavedWriteIsLost :
    let s := drawn tpShared [Draw.quiet, { Draw.quiet with acts := [.write 0x40000000#32 9#32] }]
    writeOperands (.bset 0x40000000#32 31#5) = some (0x40000000#32, 31, 1, 1#32) ∧ accessReady s 0x40000000#32 31 1 ∧
    s.mem.wf ∧ fieldStable s.cfg 0x40000000#32 31 1 ∧ s.cfg.exclusive = false ∧ regimeOf s.cfg 0x40000000#32 = .word ∧
    31 + 1 ≤ 32 ∧ ¬ (31 = 0 ∧ 1 = 32) ∧ (drawAt s 0).clean ∧ (drawAt s 1).acts = [.write 0x40000000#32 9#32] ∧
    (drawAt s 1).reset = none ∧ (drawAt s 1).code = 0#32 ∧ answered s :=
  ⟨by decide, accessReady_of (by decide) (by decide), by decide, fieldStable_of (by decide), by decide, by decide, by decide, by decide, by decide, by decide, by decide, by decide⟩
/-- The second clause of `InterleavedWriteIsLost`: the last of two byte registers, just before its own write-back; the first
of two words, just after its read. -/
theorem witness_InterleavedWriteIsLost_everyRegime :
    (let s := drawn tpShared (List.replicate 3 Draw.quiet ++ [{ Draw.quiet with acts := [.write 0x11#32 9#32] }])
    writeOperands (.bfWrite 0x10#32 4#5 8#6 5#32) = some (0x10#32, 4, 8, 5#32) ∧ accessReady s 0x10#32 4 8 ∧
      fieldStable s.cfg 0x10#32 4 8 ∧
      (s.mem.wf ∧ s.cfg.exclusive = false ∧ ¬ (regimeOf s.cfg 0x10#32 = .byte ∧ 4 = 0 ∧ 8 = 8) ∧
        ¬ (regimeOf s.cfg 0x10#32 = .word ∧ 4 = 0 ∧ 8 = 32) ∧ (touchedBy s.cfg 0x10#32 4 8)[1]? = some 0x11#32 ∧ 1 < 3 ∧
        3 ≤ (touchedBy s.cfg 0x10#32 4 8).length + 1 ∧
        (∀ k, k < writeCount s.cfg 0x10#32 4 8 → k ≠ 3 → (drawAt s k).clean) ∧
        (drawAt s 3).acts = [.write 0x11#32 9#32] ∧ (drawAt s 3).reset = none ∧ (drawAt s 3).code = 0#32 ∧ answered s)) ∧
    (let s := drawn tpShared [Draw.quiet, { Draw.quiet with acts := [.write 0x40000000#32 9#32] }]
    writeOperands (.bfWrite 0x40000000#32 31#5 2#6 2#32) = some (0x40000000#32, 31, 2, 2#32) ∧
      accessReady s 0x40000000#32 31 2 ∧ fieldStable s.cfg 0x40000000#32 31 2 ∧
      (s.mem.wf ∧ s.cfg.exclusive = false ∧ ¬ (regimeOf s.cfg 0x40000000#32 = .byte ∧ 31 = 0 ∧ 2 = 8) ∧
        ¬ (regimeOf s.cfg 0x40000000#32 = .word ∧ 31 = 0 ∧ 2 = 32) ∧
        (touchedBy s.cfg 0x40000000#32 31 2)[0]? = some 0x40000000#32 ∧ 0 < 1 ∧
        1 ≤ (touchedBy s.cfg 0x40000000#32 31 2).length + 0 ∧
        (∀ k, k < writeCount s.cfg 0x40000000#32 31 2 → k ≠ 1 → (drawAt s k).clean) ∧
        (drawAt s 1).acts = [.write 0x40000000#32 9#32] ∧ (drawAt s 1).reset = none ∧ (drawAt s 1).code = 0#32 ∧
        answered s)) :=
  ⟨⟨by decide, accessReady_of (by decide) (by decide), fieldStable_of (by decide), by decide⟩,
    by decide, accessReady_of (by decide) (by decide), fieldStable_of (by decide), by decide⟩
theorem witness_WriteFailsAtTransaction :
    let s := drawn tp (List.replicate 3 Draw.quiet ++ [failing])
    writeOperands (.bfWrite 0x40000000#32 31#5 2#6 2#32) = some (0x40000000#32, 31, 2, 2#32) ∧
    accessReady s 0x40000000#32 31 2 ∧ fieldStable s.cfg 0x40000000#32 31 2 ∧ 3 < writeCount s.cfg 0x40000000#32 31 2 ∧
    (cleanFor 3 s ∧ answered s) ∧ (drawAt s 3).undisturbed ∧ (drawAt s 3).code ≠ 0#32 :=
  ⟨by decide, accessReady_of (by decide) (by decide), fieldStable_of (by decide), by decide, by decide, by decide, by decide⟩
/-- Each clause: the last read of eight; the last write of four; the last transaction of a PLL_START; any transaction (here
the first write, of a register that is volatile, another agent having written it, in the tail of the draws); a fault at the
second register; a response whose free value is consumed. -/
theorem witness_ResetAbandonsCommand :
    (let s := drawn tp (List.replicate 7 Draw.quiet ++ [resetting])
    readOperands (.bfRead 0x10#32 31#5 32#6) = some (0x10#32, 31, 32) ∧ readReady s 0x10#32 31 32 ∧
      7 < readCount s.cfg 0x10#32 31 32 ∧
      cleanFor 7 s ∧ (drawAt s 7).acts = [] ∧ (drawAt s 7).reset = some ⟨1#32, 2#32, 3#32, 4#32⟩) ∧
    (let s := drawn tp (List.replicate 3 Draw.quiet ++ [resetting])
    writeOperands (.bfWrite 0x40000000#32 31#5 2#6 2#32) = some (0x40000000#32, 31, 2, 2#32) ∧
      accessReady s 0x40000000#32 31 2 ∧ fieldStable s.cfg 0x40000000#32 31 2 ∧ 3 < writeCount s.cfg 0x40000000#32 31 2 ∧
      cleanFor 3 s ∧ (drawAt s 3).acts = [] ∧ (drawAt s 3).reset = some ⟨1#32, 2#32, 3#32, 4#32⟩) ∧
    (let s := drawn tp (List.replicate 33 Draw.quiet ++ [resetting])
    pllReady s 0x00BB8000#32 0x01770000#32 ⟨.int, 1, 2, 0, 0⟩ ∧
      instrExists s.cfg (.pllStart 1#8 2#8 3#8 0x00BB8000#32 0x01770000#32) ∧ pllStable s.cfg 0x01770000#32 ∧
      33 < stepsCount s.cfg (startupSteps s.cfg 1#8 2#8 3#8 0x01770000#32 ⟨.int, 1, 2, 0, 0⟩) ∧
      cleanFor 33 s ∧ (drawAt s 33).acts = [] ∧ (drawAt s 33).reset = some ⟨1#32, 2#32, 3#32, 4#32⟩) ∧
    (let s := { start (drawn { tpShared with volatileAddrs := [0x24#32] } [{ Draw.quiet with acts := [.write 0x24#32 9#32] }])
        (encode (.bset 0x24#32 7#5)) with tail := resetting }
    s.busy = true ∧ (drawAt s 1).reset = some ⟨1#32, 2#32, 3#32, 4#32⟩ ∧
      stepsTo (failedAt s 1) (fun t => t.draws == []) = true) ∧
    (let s := start (drawn tp [Draw.quiet, resetting]) (encode (.bfRead 0xFFFF#32 4#5 8#6))
    s.busy = true ∧ (drawAt s 1).reset = some ⟨1#32, 2#32, 3#32, 4#32⟩ ∧
      faultsWith (failedAt s 1) (fun f => f.stopped.draws == []) = true) ∧
    (let s := { start base [0x00000001#32, 0x20#32] with lateResets := none :: [none] }
    s.busy = true ∧ stepsTo s (fun t => t.lateResets == [none]) = true) :=
  ⟨⟨by decide, readReady_of (by decide) (by decide) (by decide), by decide, by decide, by decide, by decide⟩,
    ⟨by decide, accessReady_of (by decide) (by decide), fieldStable_of (by decide), by decide, by decide, by decide, by decide⟩,
    ⟨by decide, by decide, fun x hx => List.not_mem_nil, by decide, by decide, by decide, by decide⟩, by decide, by decide, by decide⟩


theorem witness_UnboundTransportEndsNullParam :
    cfgWellFormed base.cfg = true ∧ answered base ∧ { base with transportBound := false }.transportBound = false := by decide
theorem witness_BitCountOutOfRangeEnds :
    engineReady base ∧ answered base ∧ (0#6).toNat = 0 ∧ (33#6).toNat > 32 ∧ (63#6).toNat > 32 := by decide
/-- `fout` not in the set; in the set with `fin = 0`; in the set with no configuration (95_test_vectors.md: the largest `fin`,
whose every prescaler is out of bounds). -/
theorem witness_PllStartRejections :
    engineReady base ∧ answered base ∧ (outSet base.cfg.profile).contains (0x02DC6C00#32).toNat = false ∧
    (outSet base.cfg.profile).contains (0x01770000#32).toNat = true ∧
    (0xFFFFFFFF#32) ≠ 0#32 ∧ pllSolve base.cfg (0xFFFFFFFF#32).toNat (0x01770000#32).toNat = none := by decide
theorem witness_MisalignedWordFaults :
    readOperands (.rd8 0x40000001#32) = some (0x40000001#32, 0, 8) ∧ engineReady base ∧
    regimeOf base.cfg 0x40000001#32 = .word ∧ (0x40000001#32).toNat % 4 ≠ 0 ∧
    writeOperands (.wr32 0xFFFFFFFF#32 0#32) = some (0xFFFFFFFF#32, 0, 32, 0#32) ∧
    regimeOf base.cfg 0xFFFFFFFF#32 = .word ∧ (0xFFFFFFFF#32).toNat % 4 ≠ 0 ∧ (drawAt base 0).undisturbed := by decide

/-- TP with another descriptor for `F_PLL_PWR` (the second write of the sequence). -/
def tpPwr (d : Descriptor) : Cfg := { tp with pllPwr := d }

theorem stepsReady_single {c : Cfg} {x : Fin 15 × Descriptor × Word}
    (hx : (touchedBy c x.2.1.addr x.2.1.bs x.2.1.bc).all (registerExists c (regimeOf c x.2.1.addr)) = true)
    (hv : (touchedBy c x.2.1.addr x.2.1.bs x.2.1.bc).all (fun a => !c.volatileAddrs.contains a) = true) : stepsReady c [x] := by
  intro y hy
  obtain rfl := List.mem_singleton.mp hy
  exact ⟨fieldExists_of hx, fieldStable_of hv⟩

/-- The PLL_START clause, at the second write of the sequence. -/
theorem witness_MisalignedWordFaults_pllStart :
    let d : Descriptor := ⟨0xFFFFFFFF#32, 0, 1⟩
    let s := drawn (tpPwr d) []
    let pre : List (Fin 15 × Descriptor × Word) := [(1, ⟨0x00B0#32, 0, 2⟩, 0#32)]
    pllReady s 0x00BB8000#32 0x01770000#32 ⟨.int, 1, 2, 0, 0⟩ ∧
    startupSteps s.cfg 0#8 0#8 0#8 0x01770000#32 ⟨.int, 1, 2, 0, 0⟩ =
      pre ++ (2, d, s.cfg.pllPwrOff) :: (startupSteps s.cfg 0#8 0#8 0#8 0x01770000#32 ⟨.int, 1, 2, 0, 0⟩).drop 2 ∧
    stepsReady s.cfg pre ∧
    (cleanFor (stepsCount s.cfg pre) s ∧ (drawAt s (stepsCount s.cfg pre)).undisturbed ∧ regimeOf s.cfg d.addr = .word ∧
      d.addr.toNat % 4 ≠ 0) :=
  ⟨by decide, by decide, stepsReady_single (by decide) (by decide), by decide⟩
/-- The PLL_START clauses of `CrossRegimeFaults`, at the second write of the sequence. -/
theorem witness_CrossRegimeFaults_pllStart :
    (let d : Descriptor := ⟨0xFFFF#32, 7, 2⟩
    let s := drawn (tpPwr d) []
    let pre : List (Fin 15 × Descriptor × Word) := [(1, ⟨0x00B0#32, 0, 2⟩, 0#32)]
    pllReady s 0x00BB8000#32 0x01770000#32 ⟨.int, 1, 2, 0, 0⟩ ∧
      startupSteps s.cfg 0#8 0#8 0#8 0x01770000#32 ⟨.int, 1, 2, 0, 0⟩ =
        pre ++ (2, d, s.cfg.pllPwrOff) :: (startupSteps s.cfg 0#8 0#8 0#8 0x01770000#32 ⟨.int, 1, 2, 0, 0⟩).drop 2 ∧
      stepsReady s.cfg pre ∧
      (regimeOf s.cfg d.addr = .byte ∧ 1 < regCount d.bs d.bc ∧ inByteWindow s.cfg (addrAt d.addr 1) = false ∧
        inByteWindow s.cfg (addrAt d.addr 0) = true ∧ addrAt d.addr 0 ∉ s.cfg.volatileAddrs ∧
        cleanFor (stepsCount s.cfg pre + 1) s ∧ (drawAt s (stepsCount s.cfg pre + 1)).undisturbed)) ∧
    (let d : Descriptor := ⟨0xFFFFFFFC#32, 31, 2⟩
    let s := drawn (tpPwr d) []
    let pre : List (Fin 15 × Descriptor × Word) := [(1, ⟨0x00B0#32, 0, 2⟩, 0#32)]
    pllReady s 0x00BB8000#32 0x01770000#32 ⟨.int, 1, 2, 0, 0⟩ ∧
      startupSteps s.cfg 0#8 0#8 0#8 0x01770000#32 ⟨.int, 1, 2, 0, 0⟩ =
        pre ++ (2, d, s.cfg.pllPwrOff) :: (startupSteps s.cfg 0#8 0#8 0#8 0x01770000#32 ⟨.int, 1, 2, 0, 0⟩).drop 2 ∧
      stepsReady s.cfg pre ∧
      (regimeOf s.cfg d.addr = .word ∧ d.addr.toNat % 4 = 0 ∧ 32 < d.bs + d.bc ∧
        inByteWindow s.cfg (d.addr + 4#32) = true ∧ d.addr ∉ s.cfg.volatileAddrs ∧
        cleanFor (stepsCount s.cfg pre + 1) s ∧ (drawAt s (stepsCount s.cfg pre + 1)).undisturbed)) :=
  ⟨⟨by decide, by decide, stepsReady_single (by decide) (by decide), by decide⟩,
    by decide, by decide, stepsReady_single (by decide) (by decide), by decide⟩
/-- Both clauses, a read and a write in each, at the window's two ends. -/
theorem witness_CrossRegimeFaults :
    ((readOperands (.bfRead 0xFFFF#32 4#5 8#6) = some (0xFFFF#32, 4, 8) ∧
        ∃ v, writeOperands (.bfWrite 0xFFFF#32 4#5 8#6 5#32) = some (0xFFFF#32, 4, 8, v)) ∧
      engineReady base ∧ regimeOf base.cfg 0xFFFF#32 = .byte ∧ 1 < regCount 4 8 ∧
      inByteWindow base.cfg (addrAt 0xFFFF#32 1) = false ∧
      (∀ k, k < 1 → inByteWindow base.cfg (addrAt 0xFFFF#32 k) = true ∧ addrAt 0xFFFF#32 k ∉ base.cfg.volatileAddrs) ∧
      cleanFor 1 base ∧ (drawAt base 1).undisturbed) ∧
    ((readOperands (.bfRead 0xFFFFFFFC#32 24#5 16#6) = some (0xFFFFFFFC#32, 24, 16) ∧
        ∃ v, writeOperands (.bfWrite 0xFFFFFFFC#32 24#5 16#6 5#32) = some (0xFFFFFFFC#32, 24, 16, v)) ∧
      regimeOf base.cfg 0xFFFFFFFC#32 = .word ∧ (0xFFFFFFFC#32).toNat % 4 = 0 ∧ 32 < 24 + 16 ∧
      inByteWindow base.cfg (0xFFFFFFFC#32 + 4#32) = true ∧ 0xFFFFFFFC#32 ∉ base.cfg.volatileAddrs) :=
  ⟨⟨⟨rfl, _, rfl⟩, by decide⟩, ⟨rfl, _, rfl⟩, by decide +kernel⟩
theorem witness_IllFormedConfigRefused :
    cfgWellFormed (start { base with cfg := tpBad } [0#32]).cfg = false ∧ (start { base with cfg := tpBad } [0#32]).busy = true := by decide
theorem witness_EveryCommandEnds :
    cfgWellFormed base.cfg = true ∧ instrExists base.cfg (.bfRead 0x10#32 31#5 0#6) ∧ instrExists base.cfg (.wr8 0xFFFF#32 1#32) ∧
    instrExists base.cfg (.pllStart 0#8 0#8 0#8 0#32 0x01770000#32) := by decide

/-- Both clauses: a configuration found, and none (no `q` makes `q * 24576000` a multiple of 19200000 for `q` up to 7). -/
theorem witness_Phase1IsFirstFit :
    phase1 tp 24576000 24576000 = some ⟨.int, 2, 2, 0, 0⟩ ∧ phase1 tp 19200000 24576000 = none := by decide
theorem witness_SearchPrefersPhase1 :
    phase1 tp 12288000 24576000 = some ⟨.int, 1, 2, 0, 0⟩ ∧ phase1 tp 40000001 24576000 = none := by decide
/-- Every clause, in both modes. -/
theorem witness_Phase2IsBestFit :
    phase1 tp 26000000 24576000 = none ∧ pllSolve tp 26000000 24576000 = some (⟨.frac, 7, 6, 40410, 65535⟩, 5) ∧
    phase1 tpExact 26000000 24576000 = none ∧ pllSolve tpExact 26000000 24576000 = some (⟨.frac, 4, 3, 1269, 1625⟩, 0) ∧
    phase1 tp 4000000000 24576000 = none ∧ pllSolve tp 4000000000 24576000 = none := by decide +kernel
/-- What a prescaler's candidate is, each clause in both modes: a fraction, rescaled and not; an integer type; the skips
(mul below 2; fin/p out of bounds; mul + 1 above 3072). -/
theorem witness_Phase2IsBestFit_candidate :
    (candidate tp 26000000 24576000 (f64Div (f64OfNat 24576000) (f64OfNat 26000000)) 7 = some ⟨.frac, 7, 6, 40410, 65535⟩ ∧
      candidate tpExact 26000000 24576000 0#64 4 = some ⟨.frac, 4, 3, 1269, 1625⟩) ∧
    (candidate tp 24000000 49152000 (f64Div (f64OfNat 49152000) (f64OfNat 24000000)) 2 = some ⟨.int, 2, 4, 0, 0⟩ ∧
      candidate tpExact 24000000 49152000 0#64 2 = some ⟨.int, 2, 4, 0, 0⟩) ∧
    (candidate tp 26000000 24576000 (f64Div (f64OfNat 24576000) (f64OfNat 26000000)) 1 = none ∧
      candidate tpExact 26000000 24576000 0#64 1 = none) ∧
    (candidate tpExact 4000000 24576000 0#64 5 = none ∧
      candidate { tpExact with minPllInput := 1000 } 55982 24576000 0#64 7 = none) ∧
    (1 ≤ 26000000 ∧ tp.fractMode = .binary64 ∧ tpExact.fractMode = .exact) := by decide +kernel
/-- Also for `Binary64FractionBounds` (with a rescaled fraction). -/
theorem witness_FoundConfigurationBounds :
    1 ≤ 26000000 ∧ 26000000 < 2 ^ 32 ∧ 24576000 ∈ outSet .full ∧ tp.fractMode = .binary64 ∧
    pllSolve tp 26000000 24576000 = some (⟨.frac, 7, 6, 40410, 65535⟩, 5) ∧
    pllSolve tp 12288000 24576000 = some (⟨.int, 1, 2, 0, 0⟩, 0) := by decide +kernel
theorem witness_ExactFractionBounds :
    tpExact.fractMode = .exact ∧ pllSolve tpExact 26000000 24576000 = some (⟨.frac, 4, 3, 1269, 1625⟩, 0) := by decide
/-- The rounding: a tie (2^53 + 1, between two even neighbours' values) and a subnormal result. The operations: 1/3 (inexact),
0.1 times 3, 1 less 0.1; each with its exact result below 2^1023. -/
theorem witness_RoundingIsNearestEven :
    f64Finite (f64Round (2 ^ 53 + 1) 1 0) ∧ f64Finite (f64Round 1 3 (-1073)) ∧ f64Finite 0x4340000000000001#64 ∧
    0x4340000000000001#64 ≠ f64Round (2 ^ 53 + 1) 1 0 ∧
    f64Finite 0x3FF0000000000000#64 ∧ f64Finite 0x4008000000000000#64 ∧ f64Finite 0x3FB999999999999A#64 := by decide
theorem witness_RoundingIsNearestEven_operations :
    f64Value 0x4008000000000000#64 ≠ 0 ∧ f64Value 0x3FF0000000000000#64 / f64Value 0x4008000000000000#64 < 2 ^ 1023 ∧
    f64Value 0x3FB999999999999A#64 * f64Value 0x4008000000000000#64 < 2 ^ 1023 ∧
    f64Value 0x3FB999999999999A#64 ≤ f64Value 0x3FF0000000000000#64 ∧
    f64Value 0x3FF0000000000000#64 - f64Value 0x3FB999999999999A#64 < 2 ^ 1023 := by
  have h3 : f64Value 0x4008000000000000#64 = 3 := by
    rw [f64Value, show f64Mant 0x4008000000000000#64 = 3 * 2 ^ 51 by decide, show f64Expo 0x4008000000000000#64 = -51 by decide]
    norm_num
  have h1 : f64Value 0x3FF0000000000000#64 = 1 := by
    rw [f64Value, show f64Mant 0x3FF0000000000000#64 = 2 ^ 52 by decide, show f64Expo 0x3FF0000000000000#64 = -52 by decide]
    norm_num
  have h0 : f64Value 0x3FB999999999999A#64 = 7205759403792794 / 2 ^ 56 := by
    rw [f64Value, show f64Mant 0x3FB999999999999A#64 = 7205759403792794 by decide,
      show f64Expo 0x3FB999999999999A#64 = -56 by decide]
    norm_num
  have hb : (2 : ℚ) ≤ 2 ^ 1023 := le_self_pow₀ (by norm_num) (by norm_num)
  rw [h3, h1, h0]
  exact ⟨by norm_num, lt_of_lt_of_le (by norm_num) hb, lt_of_lt_of_le (by norm_num) hb, by norm_num,
    lt_of_lt_of_le (by norm_num) hb⟩
theorem witness_Binary64Conversions : f64Finite 0#64 ∧ f64Finite 0x7FEFFFFFFFFFFFFF#64 ∧ 2 ^ 53 - 1 < 2 ^ 53 := by decide
/-- The largest binary64 below 2^53 that is no integer is below 2^52: here 2^52 - 1/2. -/
theorem witness_FractIsExact : f64Finite 0x432FFFFFFFFFFFFF#64 ∧ f64Value 0x432FFFFFFFFFFFFF#64 < 2 ^ 53 := by
  refine ⟨by decide, ?_⟩
  have hm : f64Mant 0x432FFFFFFFFFFFFF#64 = 2 ^ 53 - 1 := by decide
  have he : f64Expo 0x432FFFFFFFFFFFFF#64 = -1 := by decide
  rw [f64Value, hm, he]
  norm_num

/-- The second clause of `PllStartRunsSequence`: an `fout` that the record lists, and one that it does not. -/
theorem witness_PllStartRunsSequence_list :
    (∃ before after, tp.mclkBypass = before ++ (0x01770000#32, [(⟨0x00B0#32, 0, 2⟩, 0#32)]) :: after ∧
      ∀ e ∈ before, e.1 ≠ 0x01770000#32) ∧
    (([] : List (Descriptor × Word)) = [] ∧ ∀ e ∈ tp.mclkBypass, e.1 ≠ 0x02EE0000#32) :=
  ⟨⟨[], [], by decide⟩, rfl, by simp [tp]⟩
/-- PLL_START of TP with every transaction granted: the first clause of `PllStartRunsSequence`, and the fields of R217 disjoint as
`PllFieldsHoldConfiguration` asks. -/
theorem witness_PllStartRunsSequence :
    pllReady base 0x00BB8000#32 0x01770000#32 ⟨.int, 1, 2, 0, 0⟩ ∧
    instrExists base.cfg (.pllStart 1#8 2#8 3#8 0x00BB8000#32 0x01770000#32) ∧ pllStable base.cfg 0x01770000#32 ∧
    (cleanFor (stepsCount base.cfg (startupSteps base.cfg 1#8 2#8 3#8 0x01770000#32 ⟨.int, 1, 2, 0, 0⟩)) base ∧ answered base) :=
  ⟨by decide, by decide, fun x hx => List.not_mem_nil, by decide⟩
theorem witness_PllFieldsHoldConfiguration :
    base.mem.wf ∧
    [base.cfg.pllSrc, base.cfg.pllType, base.cfg.syncSrc, base.cfg.prescaler, base.cfg.mult, base.cfg.num, base.cfg.den,
      base.cfg.pllPwr, base.cfg.update].Pairwise (fieldsDisjoint base.cfg) := by decide
/-- The first and the last transaction of the sequence. -/
theorem witness_PllStartFailsAtTransaction :
    (let s := drawn tp (List.replicate 33 Draw.quiet ++ [failing])
    cleanFor 33 s ∧ answered s ∧ (drawAt s 33).undisturbed ∧ (drawAt s 33).code ≠ 0#32) ∧
    answered (drawn tp [failing]) ∧ (drawAt (drawn tp [failing]) 0).undisturbed ∧ (drawAt (drawn tp [failing]) 0).code ≠ 0#32 ∧
    (stepsTxns tp base.mem (startupSteps tp 0#8 0#8 0#8 0x01770000#32 ⟨.int, 1, 2, 0, 0⟩))[0]? =
      some (1, .read .byte 0xB0#32 0#32) ∧
    (stepsTxns tp base.mem (startupSteps tp 0#8 0#8 0#8 0x01770000#32 ⟨.int, 1, 2, 0, 0⟩))[33]? =
      some (14, .write .byte 0xCA#32 0#32) := by decide
theorem witness_PllStartFrame :
    undisturbed failingState ∧
    (match exec (.pllStart 0#8 0#8 0#8 0x00BB8000#32 0x01770000#32) failingState with
      | .next t => t.rsp0 == 0x103#32
      | .fault _ => false
      | .refused _ => false) = true ∧
    (Regime.byte, 0xB1#32) ∉ instrTouches failingState.cfg (.pllStart 0#8 0#8 0#8 0x00BB8000#32 0x01770000#32) := by decide
/-- A step to each PLL state: a reset, a started PLL_START that fails and one that ends `OK`, and the lock. -/
theorem witness_PllStateTransitions :
    stepsTo { base with pllState := .locked, host := [.reset ⟨0#32, 0#32, 0#32, 0#32⟩] } (fun t => t.pllState == .unconfigured) =
      true ∧
    stepsTo (start failingState [0x00000003#32, 0#32, 0x00BB8000#32, 0x01770000#32]) (fun t => t.pllState == .configuring) =
      true ∧
    stepsTo (start base [0x00000003#32, 0#32, 0x00BB8000#32, 0x01770000#32]) (fun t => t.pllState == .updated) = true ∧
    stepsTo { base with pllState := .updated, host := [.env .lock] } (fun t => t.pllState == .locked) = true := by decide
theorem witness_DeviceTakesLock :
    base.busy = false ∧ { base with host := [.env .lock] }.host = .env .lock :: [] ∧ base.pllState ≠ .updated ∧
    { base with pllState := .updated }.pllState = .updated := by decide
/-- A byte and a word register, at the window's edge. -/
theorem witness_AgentWritesRegister :
    { base with host := [.env (.write 0xFFFF#32 0x1A5#32)] }.busy = false ∧
    { base with host := [.env (.write 0xFFFF#32 0x1A5#32)] }.host = .env (.write 0xFFFF#32 0x1A5#32) :: [] ∧
    base.w = Work.idle ∧ base.mem.wf ∧ registerExists base.cfg .byte 0xFFFF#32 = true ∧
    registerExists base.cfg .word 0x10000#32 = true := by decide
/-- A step that stores, from a state with the invariant; also for `StepReplaysItsEvents`, `ConfigurationIsConstant` and
`EngineLeavesItsInputs`. -/
theorem witness_StepKeepsInvariant :
    (start base [0x00001002#32, 0x10#32, 0x1A5#32]).Inv ∧ (start base [0x00001002#32, 0x10#32, 0x1A5#32]).busy = true ∧
    noResetComing (start base [0x00001002#32, 0x10#32, 0x1A5#32]) ∧
    stepsTo (start base [0x00001002#32, 0x10#32, 0x1A5#32]) (fun t => t.mem == ⟨[(0x10, 0xA5#8)], []⟩) = true := by decide

end Sys2Proof.Tests
end

section
/-! SUPPORT. The family 00_scope.md: the refusal of a configuration that is not well-formed, and the binary64 arithmetic of
R11 as arithmetic of rationals. -/

namespace Sys2Proof.Machine

/-! ## A configuration that is not well-formed -/

/-- A command under a configuration that is not well-formed (00_scope.md R7). -/
theorem command_of_illFormed {touched : List Word} {body : State → Res Word} {s : State}
    (h : cfgWellFormed s.cfg = false) : command touched body s = .refused .illFormedConfig := by
  simp [command, h]

/-- Every instruction's meaning is one whole command. -/
theorem exec_eq_command (i : Instr) (s : State) : ∃ touched body, exec i s = command touched body s := by
  cases i <;> exact ⟨_, _, rfl⟩

/-- Every started request, an instruction or not, is one whole command. -/
theorem runRequest_eq_command (s : State) : ∃ touched body, runRequest s = command touched body s := by
  unfold runRequest
  split
  · exact exec_eq_command _ s
  · exact ⟨_, _, rfl⟩
  · exact ⟨_, _, rfl⟩

/-- Settles O37: `exec` and the run of a request are commands, and a command refuses such a configuration. -/
theorem illFormedConfigRefused : Obligations.IllFormedConfigRefused := by
  refine ⟨fun i s h => ?_, fun s h hbusy => ?_⟩
  · obtain ⟨_, _, he⟩ := exec_eq_command i s
    rw [he, command_of_illFormed h]
  · obtain ⟨_, _, he⟩ := runRequest_eq_command s
    rw [step, if_pos hbusy, he, command_of_illFormed h]

/-! ## Shifts and powers of two -/

/-- The model multiplies by `2 ^ e`, for `e` of either sign, with a shift of the numerator or of the denominator. -/
theorem shiftLeft_div_shiftLeft (n d : ℕ) (e : ℤ) :
    ((n <<< e.toNat : ℕ) : ℚ) / (d <<< (-e).toNat : ℕ) = n / d * (2 : ℚ) ^ e := by
  have he : (2 : ℚ) ^ e = 2 ^ e.toNat / 2 ^ (-e).toNat := by
    rw [← zpow_natCast, ← zpow_natCast, ← zpow_sub₀ two_ne_zero, Int.toNat_sub_toNat_neg]
  rw [he, Nat.shiftLeft_eq, Nat.shiftLeft_eq]
  push_cast
  exact mul_div_mul_comm _ _ _ _

/-- The comparison in `log2Ratio` is that of the quotient with a power of two. -/
theorem shiftLeft_le_shiftLeft_iff {n d : ℕ} (hn : n ≠ 0) (hd : d ≠ 0) (e : ℤ) :
    d <<< e.toNat ≤ n <<< (-e).toNat ↔ (2 : ℚ) ^ e ≤ n / d := by
  have hN : (0 : ℚ) < (n <<< (-e).toNat : ℕ) := by rw [Nat.shiftLeft_eq]; positivity
  have hn0 : (0 : ℚ) < n := by positivity
  have hd0 : (0 : ℚ) < d := by positivity
  rw [← Nat.cast_le (α := ℚ), ← div_le_one hN, shiftLeft_div_shiftLeft, div_mul_eq_mul_div, div_le_one hn0,
    le_div_iff₀' hd0]

/-- `log2Ratio` is the floor of the base-two logarithm of the quotient. -/
theorem log2Ratio_spec {n d : ℕ} (hn : n ≠ 0) (hd : d ≠ 0) :
    (2 : ℚ) ^ log2Ratio n d ≤ n / d ∧ (n / d : ℚ) < 2 ^ (log2Ratio n d + 1) := by
  have hd0 : (0 : ℚ) < d := by positivity
  have hlow (k : ℕ) (hk : k ≠ 0) : (2 : ℚ) ^ (k.log2 : ℤ) ≤ k := by exact_mod_cast Nat.log2_self_le hk
  have hup (k : ℕ) : (k : ℚ) < 2 ^ ((k.log2 : ℤ) + 1) := by exact_mod_cast Nat.lt_log2_self
  simp only [log2Ratio, shiftLeft_le_shiftLeft_iff hn hd]
  split
  case isTrue h =>
    refine ⟨h, ?_⟩
    calc (n / d : ℚ) < 2 ^ ((n.log2 : ℤ) + 1) / 2 ^ (d.log2 : ℤ) :=
          div_lt_div₀ (hup n) (hlow d hd) (by positivity) (by positivity)
      _ = 2 ^ ((n.log2 : ℤ) - d.log2 + 1) := by rw [← zpow_sub₀ two_ne_zero]; ring_nf
  case isFalse h =>
    refine ⟨?_, by simpa using h⟩
    calc (2 : ℚ) ^ ((n.log2 : ℤ) - d.log2 - 1) = 2 ^ (n.log2 : ℤ) / 2 ^ ((d.log2 : ℤ) + 1) := by
          rw [← zpow_sub₀ two_ne_zero]; ring_nf
      _ ≤ n / d := div_le_div₀ (by positivity) (hlow n hn) hd0 (hup d).le

/-! ## Rounding to an integer -/

/-- The nearest integer misses the dividend by at most half the divisor; where it misses it by exactly half, it is even. -/
theorem divNearestEven_remainder {n d : ℕ} (hd : 0 < d) :
    2 * |(divNearestEven n d * d - n : ℤ)| ≤ d ∧
    (2 * |(divNearestEven n d * d - n : ℤ)| = d → divNearestEven n d % 2 = 0) := by
  have hdiv : ((n / d : ℕ) * d + (n % d : ℕ) : ℤ) = n := by exact_mod_cast Nat.div_add_mod' n d
  have hmod := Nat.mod_lt n hd
  unfold divNearestEven
  split
  case isTrue h =>
    rw [show ((n / d + 1 : ℕ) * d - n : ℤ) = d - (n % d : ℕ) by push_cast at hdiv ⊢; linarith, abs_of_nonneg (by omega)]
    omega
  case isFalse h =>
    rw [show ((n / d : ℕ) * d - n : ℤ) = -(n % d : ℕ) by linarith, abs_neg, Nat.abs_cast]
    omega

/-- `divNearestEven_remainder` as a distance from the exact quotient. -/
theorem divNearestEven_spec {n d : ℕ} (hd : 0 < d) :
    2 * |(divNearestEven n d : ℚ) - n / d| ≤ 1 ∧
    (2 * |(divNearestEven n d : ℚ) - n / d| = 1 → divNearestEven n d % 2 = 0) := by
  have hd0 : (0 : ℚ) < d := by exact_mod_cast hd
  have hscale : 2 * |(divNearestEven n d : ℚ) - n / d| = (2 * |(divNearestEven n d * d - n : ℤ)| : ℤ) / d := by
    rw [← mul_div_cancel_right₀ (divNearestEven n d : ℚ) hd0.ne', ← sub_div, abs_div, abs_of_pos hd0]
    push_cast
    ring
  rw [hscale, div_le_one hd0, div_eq_one_iff_eq hd0.ne']
  exact_mod_cast divNearestEven_remainder hd

/-- Where `m` is within one half of `t`, every other integer is at least one half away. -/
theorem half_le_abs_sub_of_ne {m j : ℕ} {t : ℚ} (hm : 2 * |(m : ℚ) - t| ≤ 1) (hj : j ≠ m) :
    1 ≤ 2 * |(j : ℚ) - t| := by
  have hone : (1 : ℚ) ≤ |(j : ℚ) - m| := by
    exact_mod_cast Int.one_le_abs (sub_ne_zero.mpr (by exact_mod_cast hj : (j : ℤ) ≠ m))
  have htri : |(j : ℚ) - m| ≤ |(j : ℚ) - t| + |(m : ℚ) - t| := by
    rw [abs_sub_comm (m : ℚ) t]
    exact abs_sub_le _ _ _
  linarith

/-! ## The value of a pattern -/

/-- The exponent and the significand put together again: one formula for subnormal and normal patterns. -/
theorem f64_toNat (x : Binary64) : (x.toNat : ℤ) = (f64Expo x + 1074) * 2 ^ 52 + f64Mant x := by
  unfold f64Expo f64Mant
  split <;> omega

theorem f64Mant_lt (x : Binary64) : f64Mant x < 2 ^ 53 := by
  unfold f64Mant
  split <;> omega

theorem neg_1074_le_f64Expo (x : Binary64) : -1074 ≤ f64Expo x := by
  unfold f64Expo
  split <;> omega

theorem two_pow_52_le_f64Mant {x : Binary64} (h : f64Expo x ≠ -1074) : 2 ^ 52 ≤ f64Mant x := by
  unfold f64Expo at h
  unfold f64Mant
  split <;> omega

/-- A value with an exponent below `e` is below every normal value with exponent `e`. -/
theorem f64Value_lt_of_f64Expo_lt {x : Binary64} {e : ℤ} (h : f64Expo x < e) : f64Value x < 2 ^ 52 * (2 : ℚ) ^ e := by
  calc f64Value x < 2 ^ 53 * (2 : ℚ) ^ f64Expo x := by rw [f64Value]; gcongr; exact_mod_cast f64Mant_lt x
    _ = 2 ^ 52 * (2 : ℚ) ^ (f64Expo x + 1) := by rw [zpow_add_one₀ two_ne_zero]; ring
    _ ≤ 2 ^ 52 * (2 : ℚ) ^ e := by
      gcongr
      · norm_num
      · omega

/-- The larger pattern has the larger value: its exponent is the same and its significand larger, or its exponent is larger
and its significand normal. -/
theorem f64Value_lt_of_lt {x y : Binary64} (h : x.toNat < y.toNat) : f64Value x < f64Value y := by
  have hx := f64_toNat x
  have hy := f64_toNat y
  have hmx := f64Mant_lt x
  have hmy := f64Mant_lt y
  have hgx := neg_1074_le_f64Expo x
  have hgy := neg_1074_le_f64Expo y
  have hnx := @two_pow_52_le_f64Mant x
  have hny := @two_pow_52_le_f64Mant y
  obtain heq | hlt : f64Expo x = f64Expo y ∧ f64Mant x < f64Mant y ∨
      f64Expo x < f64Expo y ∧ 2 ^ 52 ≤ f64Mant y := by omega
  · obtain ⟨he, hm⟩ := heq
    rw [f64Value, f64Value, he]
    gcongr
  · obtain ⟨he, hm⟩ := hlt
    refine (f64Value_lt_of_f64Expo_lt he).trans_le ?_
    rw [f64Value]
    gcongr
    exact_mod_cast hm

theorem f64Value_lt_iff {x y : Binary64} : f64Value x < f64Value y ↔ x.toNat < y.toNat := by
  refine ⟨fun h => lt_of_not_ge fun hle => ?_, f64Value_lt_of_lt⟩
  obtain hlt | heq := hle.lt_or_eq
  · exact (f64Value_lt_of_lt hlt).not_gt h
  · exact h.ne (by rw [BitVec.eq_of_toNat_eq heq])

theorem f64Value_injective : Function.Injective f64Value := fun _ _ h =>
  BitVec.eq_of_toNat_eq (le_antisymm (not_lt.mp fun hlt => (f64Value_lt_of_lt hlt).ne' h)
    (not_lt.mp fun hlt => (f64Value_lt_of_lt hlt).ne h))

/-- A value is a whole number of units `2 ^ e` for every `e` up to its exponent. -/
theorem f64Value_eq_shiftLeft {x : Binary64} {e : ℤ} (h : e ≤ f64Expo x) :
    f64Value x = (f64Mant x <<< (f64Expo x - e).toNat : ℕ) * (2 : ℚ) ^ e := by
  have he : f64Expo x = (f64Expo x - e).toNat + e := by omega
  conv_lhs => rw [f64Value, he, zpow_add₀ two_ne_zero, zpow_natCast, ← mul_assoc]
  rw [Nat.shiftLeft_eq]
  push_cast
  rfl

/-- The value of the pattern that `f64Round` builds from an exponent `q` and a rounded significand `m`. The rounding can carry:
for `m = 2 ^ 53` the pattern is that of the next exponent, of the same value. -/
theorem f64_of_toNat {y : Binary64} {q : ℤ} {m : ℕ} (hy : (y.toNat : ℤ) = (q + 1074) * 2 ^ 52 + m) (hq : -1074 ≤ q)
    (hm : m ≤ 2 ^ 53) (hnorm : q ≠ -1074 → 2 ^ 52 ≤ m) : f64Value y = m * (2 : ℚ) ^ q ∧ f64Mant y % 2 = m % 2 := by
  have hpat := f64_toNat y
  have hmy := f64Mant_lt y
  have hgy := neg_1074_le_f64Expo y
  have hny := @two_pow_52_le_f64Mant y
  obtain heq | hcarry : f64Expo y = q ∧ f64Mant y = m ∨ f64Expo y = q + 1 ∧ f64Mant y = 2 ^ 52 ∧ m = 2 ^ 53 := by omega
  · obtain ⟨he, hm⟩ := heq
    rw [f64Value, he, hm]
    exact ⟨rfl, rfl⟩
  · obtain ⟨he, hmant, hm⟩ := hcarry
    rw [f64Value, he, hmant, hm, zpow_add_one₀ two_ne_zero]
    refine ⟨?_, rfl⟩
    push_cast
    ring

/-! ## The rounding -/

/-- The rounded significand of `f64Round`, in units of `2 ^ f64Ulp n d x` (`f64Round_eq`). -/
def f64Sig (n d : ℕ) (x : ℤ) : ℕ :=
  divNearestEven (n <<< (x - f64Ulp n d x).toNat) (d <<< (f64Ulp n d x - x).toNat)

/-- The exact value in the same units (`f64Scaled_mul_ulp`). -/
def f64Scaled (n d : ℕ) (x : ℤ) : ℚ := n / d * (2 : ℚ) ^ (x - f64Ulp n d x)

section rounding

variable {n d : ℕ} {x : ℤ}

theorem f64Round_eq (hn : n ≠ 0) :
    f64Round n d x = BitVec.ofNat 64 (min ((f64Ulp n d x + 1074).toNat * 2 ^ 52 + f64Sig n d x) (2047 * 2 ^ 52)) := by
  simp only [f64Round, hn, if_false, f64Sig]

theorem neg_1074_le_f64Ulp : -1074 ≤ f64Ulp n d x := le_max_right _ _

theorem f64Scaled_mul_ulp : f64Scaled n d x * (2 : ℚ) ^ f64Ulp n d x = n / d * (2 : ℚ) ^ x := by
  rw [f64Scaled, mul_assoc, ← zpow_add₀ two_ne_zero, sub_add_cancel]

theorem f64Scaled_lt (hn : n ≠ 0) (hd : d ≠ 0) : f64Scaled n d x < 2 ^ 53 := by
  obtain ⟨-, hlt⟩ := log2Ratio_spec hn hd
  have hu : log2Ratio n d + x - 52 ≤ f64Ulp n d x := le_max_left _ _
  calc f64Scaled n d x < (2 : ℚ) ^ (log2Ratio n d + 1) * 2 ^ (x - f64Ulp n d x) := by rw [f64Scaled]; gcongr
    _ = (2 : ℚ) ^ (log2Ratio n d + 1 + (x - f64Ulp n d x)) := (zpow_add₀ two_ne_zero _ _).symm
    _ ≤ 2 ^ (53 : ℤ) := zpow_le_zpow_right₀ one_le_two (by omega)

theorem le_f64Scaled (hn : n ≠ 0) (hd : d ≠ 0) (hu : f64Ulp n d x ≠ -1074) : 2 ^ 52 ≤ f64Scaled n d x := by
  obtain ⟨hle, -⟩ := log2Ratio_spec hn hd
  have hu : log2Ratio n d + x - 52 = f64Ulp n d x := by unfold f64Ulp at hu ⊢; omega
  calc (2 : ℚ) ^ 52 = (2 : ℚ) ^ (log2Ratio n d + (x - f64Ulp n d x)) := by
        rw [show log2Ratio n d + (x - f64Ulp n d x) = (52 : ℕ) by omega, zpow_natCast]
    _ = (2 : ℚ) ^ log2Ratio n d * 2 ^ (x - f64Ulp n d x) := zpow_add₀ two_ne_zero _ _
    _ ≤ f64Scaled n d x := by rw [f64Scaled]; gcongr

/-- The rounded significand is within one half of the exact one, and even where it is exactly one half away. -/
theorem f64Sig_spec (hd : d ≠ 0) :
    2 * |(f64Sig n d x : ℚ) - f64Scaled n d x| ≤ 1 ∧
    (2 * |(f64Sig n d x : ℚ) - f64Scaled n d x| = 1 → f64Sig n d x % 2 = 0) := by
  rw [f64Scaled, ← shiftLeft_div_shiftLeft, neg_sub]
  exact divNearestEven_spec (by rw [Nat.shiftLeft_eq]; positivity)

theorem f64Sig_le (hn : n ≠ 0) (hd : d ≠ 0) : f64Sig n d x ≤ 2 ^ 53 := by
  have hlt := f64Scaled_lt (x := x) hn hd
  have hdist := (f64Sig_spec (n := n) (x := x) hd).1
  have habs := le_abs_self ((f64Sig n d x : ℚ) - f64Scaled n d x)
  have : (f64Sig n d x : ℚ) < (2 ^ 53 + 1 : ℕ) := by push_cast; linarith
  exact Nat.lt_succ_iff.mp (by exact_mod_cast this)

theorem le_f64Sig (hn : n ≠ 0) (hd : d ≠ 0) (hu : f64Ulp n d x ≠ -1074) : 2 ^ 52 ≤ f64Sig n d x := by
  have hle := le_f64Scaled hn hd hu
  have hdist := (f64Sig_spec (n := n) (x := x) hd).1
  have habs := neg_abs_le ((f64Sig n d x : ℚ) - f64Scaled n d x)
  have : ((2 ^ 52 : ℕ) : ℚ) < (f64Sig n d x + 1 : ℕ) := by push_cast; linarith
  exact Nat.lt_succ_iff.mp (by exact_mod_cast this)

/-- A finite result is not cut off at infinity. -/
theorem f64Round_toNat (hn : n ≠ 0) (hfin : f64Finite (f64Round n d x)) :
    ((f64Round n d x).toNat : ℤ) = (f64Ulp n d x + 1074) * 2 ^ 52 + f64Sig n d x := by
  have hu : -1074 ≤ f64Ulp n d x := neg_1074_le_f64Ulp
  unfold f64Finite at hfin
  rw [f64Round_eq hn, BitVec.toNat_ofNat] at hfin ⊢
  omega

theorem f64Round_value (hn : n ≠ 0) (hd : d ≠ 0) (hfin : f64Finite (f64Round n d x)) :
    f64Value (f64Round n d x) = f64Sig n d x * (2 : ℚ) ^ f64Ulp n d x ∧ f64Mant (f64Round n d x) % 2 = f64Sig n d x % 2 :=
  f64_of_toNat (f64Round_toNat hn hfin) neg_1074_le_f64Ulp (f64Sig_le hn hd) (le_f64Sig hn hd)

theorem f64Round_finite (hd : d ≠ 0) (h : (n : ℚ) / d * (2 : ℚ) ^ x < 2 ^ 1023) : f64Finite (f64Round n d x) := by
  obtain rfl | hn := eq_or_ne n 0
  · simp [f64Round, f64Finite]
  have hlog : log2Ratio n d + x < 1023 := by
    refine (zpow_lt_zpow_iff_right₀ (one_lt_two (α := ℚ))).mp (lt_of_le_of_lt ?_ h)
    rw [zpow_add₀ two_ne_zero]
    have := (log2Ratio_spec hn hd).1
    gcongr
  have hu : f64Ulp n d x ≤ 970 := by unfold f64Ulp; omega
  have hm := f64Sig_le (x := x) hn hd
  rw [f64Finite, f64Round_eq hn, BitVec.toNat_ofNat]
  omega

/-- Every value is a whole number of units in the last place of the result, or has a smaller exponent: then the result is normal
and the value is below all normal values of the result's exponent. -/
theorem f64Value_on_grid (hn : n ≠ 0) (hd : d ≠ 0) (z : Binary64) :
    (∃ j : ℕ, f64Value z = j * (2 : ℚ) ^ f64Ulp n d x) ∨
    (f64Value z < 2 ^ 52 * (2 : ℚ) ^ f64Ulp n d x ∧ 2 ^ 52 ≤ f64Scaled n d x) := by
  obtain hle | hlt := le_or_gt (f64Ulp n d x) (f64Expo z)
  · exact .inl ⟨_, f64Value_eq_shiftLeft hle⟩
  · have hz := neg_1074_le_f64Expo z
    exact .inr ⟨f64Value_lt_of_f64Expo_lt hlt, le_f64Scaled hn hd (by omega)⟩

/-- Among whole numbers of units the rounded significand is the nearest, ties to even. -/
theorem abs_f64Sig_sub_le (hd : d ≠ 0) (j : ℕ) :
    |(f64Sig n d x : ℚ) - f64Scaled n d x| ≤ |(j : ℚ) - f64Scaled n d x| ∧
    (j ≠ f64Sig n d x → |(f64Sig n d x : ℚ) - f64Scaled n d x| = |(j : ℚ) - f64Scaled n d x| →
      f64Sig n d x % 2 = 0) := by
  obtain ⟨hdist, htie⟩ := f64Sig_spec (n := n) (x := x) hd
  obtain rfl | hj := eq_or_ne j (f64Sig n d x)
  · exact ⟨le_rfl, fun h => absurd rfl h⟩
  · have hhalf := half_le_abs_sub_of_ne hdist hj
    exact ⟨by linarith, fun _ heq => htie (by linarith)⟩

/-- A whole number of units is not rounded. -/
theorem f64Round_exact (hn : n ≠ 0) (hd : d ≠ 0) (hfin : f64Finite (f64Round n d x)) {j : ℕ}
    (hj : f64Scaled n d x = j) : f64Value (f64Round n d x) = n / d * (2 : ℚ) ^ x := by
  have hsig : (f64Sig n d x : ℚ) = f64Scaled n d x := by
    have h := (abs_f64Sig_sub_le (n := n) (x := x) hd j).1
    rwa [hj, sub_self, abs_zero, abs_nonpos_iff, sub_eq_zero, ← hj] at h
  rw [(f64Round_value hn hd hfin).1, hsig, f64Scaled_mul_ulp]

/-- `f64Round` is nearest even among all finite values: against a whole number `j` of units by `abs_f64Sig_sub_le`; a value of a
smaller exponent is further away than `2 ^ 52` units, which is such a number. -/
theorem f64Round_nearestEven (hd : d ≠ 0) (hfin : f64Finite (f64Round n d x)) :
    nearestEven (f64Round n d x) (n / d * (2 : ℚ) ^ x) := by
  refine ⟨hfin, fun z _ => ?_⟩
  obtain rfl | hn := eq_or_ne n 0
  · simp [f64Round, f64Value, f64Mant]
  obtain ⟨hvalue, hparity⟩ := f64Round_value hn hd hfin
  have hulp : (0 : ℚ) < 2 ^ f64Ulp n d x := by positivity
  have hscale (w : ℚ) : |w * (2 : ℚ) ^ f64Ulp n d x - n / d * 2 ^ x| = |w - f64Scaled n d x| * 2 ^ f64Ulp n d x := by
    rw [← f64Scaled_mul_ulp, ← sub_mul, abs_mul, abs_of_pos hulp]
  rw [hparity, hvalue, hscale]
  obtain ⟨j, hz⟩ | ⟨hz, ht⟩ := f64Value_on_grid (x := x) hn hd z
  · obtain ⟨hle, htie⟩ := abs_f64Sig_sub_le (n := n) (x := x) hd j
    rw [hz, hscale, mul_le_mul_iff_left₀ hulp, mul_left_inj' hulp.ne']
    refine ⟨hle, fun hne => htie fun hj => hne (f64Value_injective ?_)⟩
    rw [hz, hvalue, hj]
  · suffices hlt : |(f64Sig n d x : ℚ) - f64Scaled n d x| * 2 ^ f64Ulp n d x < |f64Value z - n / d * 2 ^ x| from
      ⟨hlt.le, fun _ heq => absurd heq hlt.ne⟩
    have hpow := (abs_f64Sig_sub_le (n := n) (x := x) hd (2 ^ 52)).1
    calc _ ≤ |((2 ^ 52 : ℕ) : ℚ) - f64Scaled n d x| * 2 ^ f64Ulp n d x := by gcongr
      _ = n / d * (2 : ℚ) ^ x - 2 ^ 52 * 2 ^ f64Ulp n d x := by
        rw [abs_sub_comm, abs_of_nonneg (by push_cast; linarith), sub_mul, f64Scaled_mul_ulp]
        push_cast
        rfl
      _ < n / d * (2 : ℚ) ^ x - f64Value z := by gcongr
      _ ≤ |f64Value z - n / d * 2 ^ x| := by rw [abs_sub_comm]; exact le_abs_self _

end rounding

/-- The form in which the operations use it: `q` is the exact result. -/
theorem nearestEven_f64Round {n d : ℕ} {x : ℤ} {q : ℚ} (hd : d ≠ 0) (hq : q = n / d * (2 : ℚ) ^ x)
    (hlt : q < 2 ^ 1023) : nearestEven (f64Round n d x) q := by
  subst hq
  exact f64Round_nearestEven hd (f64Round_finite hd hlt)

/-! ## The operations -/

section operations

variable {a b : Binary64}

theorem f64Div_nearestEven (hb : f64Value b ≠ 0) (h : f64Value a / f64Value b < 2 ^ 1023) :
    nearestEven (f64Div a b) (f64Value a / f64Value b) := by
  have hmant : f64Mant b ≠ 0 := fun h0 => hb (by simp [f64Value, h0])
  refine nearestEven_f64Round hmant ?_ h
  rw [f64Value, f64Value, mul_div_mul_comm, zpow_sub₀ two_ne_zero]

theorem f64Mul_nearestEven (h : f64Value a * f64Value b < 2 ^ 1023) :
    nearestEven (f64Mul a b) (f64Value a * f64Value b) := by
  refine nearestEven_f64Round one_ne_zero ?_ h
  rw [f64Value, f64Value, zpow_add₀ two_ne_zero]
  push_cast
  ring

theorem f64Sub_nearestEven (hle : f64Value b ≤ f64Value a) (h : f64Value a - f64Value b < 2 ^ 1023) :
    nearestEven (f64Sub a b) (f64Value a - f64Value b) := by
  have ha := f64Value_eq_shiftLeft (min_le_left (f64Expo a) (f64Expo b))
  have hb := f64Value_eq_shiftLeft (min_le_right (f64Expo a) (f64Expo b))
  refine nearestEven_f64Round one_ne_zero ?_ h
  rw [ha, hb, mul_le_mul_iff_left₀ (by positivity), Nat.cast_le] at hle
  rw [ha, hb, Nat.cast_sub hle, Nat.cast_one, div_one, sub_mul]

theorem f64OfNat_nearestEven {n : ℕ} (h : n < 2 ^ 1023) : nearestEven (f64OfNat n) n :=
  nearestEven_f64Round one_ne_zero (by simp) (by exact_mod_cast h)

end operations

/-- Settles O45: `f64Round` is nearest even, and each operation rounds its exact result once. -/
theorem roundingIsNearestEven : Obligations.RoundingIsNearestEven :=
  ⟨fun _ _ _ hd => ⟨f64Round_finite hd.ne', f64Round_nearestEven hd.ne'⟩,
    fun _ _ _ _ => ⟨f64Div_nearestEven, f64Mul_nearestEven, f64Sub_nearestEven⟩, fun _ => f64OfNat_nearestEven⟩

/-! ## The conversions -/

theorem f64Floor_eq_div (x : Binary64) : f64Floor x = (f64Mant x <<< (f64Expo x).toNat) / (1 <<< (-f64Expo x).toNat) := by
  rw [f64Floor, Nat.shiftRight_eq_div_pow, Nat.one_shiftLeft]

theorem f64RoundHalfUp_eq_div (x : Binary64) :
    f64RoundHalfUp x = (2 * f64Mant x <<< (f64Expo x).toNat + 1 <<< (-f64Expo x).toNat) / (2 * 1 <<< (-f64Expo x).toNat) := by
  rw [f64RoundHalfUp, Nat.shiftRight_eq_div_pow, Nat.one_shiftLeft, Nat.pow_succ']

theorem f64Value_eq_div (x : Binary64) :
    f64Value x = (f64Mant x <<< (f64Expo x).toNat : ℕ) / (1 <<< (-f64Expo x).toNat : ℕ) := by
  rw [shiftLeft_div_shiftLeft, Nat.cast_one, div_one, f64Value]

theorem f64Floor_eq_floor (x : Binary64) : (f64Floor x : ℤ) = ⌊f64Value x⌋ := by
  rw [f64Value_eq_div, Rat.floor_natCast_div_natCast, f64Floor_eq_div, Int.natCast_div]

theorem f64RoundHalfUp_eq_floor (x : Binary64) : (f64RoundHalfUp x : ℤ) = ⌊f64Value x + 1 / 2⌋ := by
  have hden : ((1 <<< (-f64Expo x).toNat : ℕ) : ℚ) ≠ 0 := by rw [Nat.one_shiftLeft]; positivity
  rw [f64RoundHalfUp_eq_div, Int.natCast_div, ← Rat.floor_natCast_div_natCast, f64Value_eq_div]
  congr 1
  push_cast at hden ⊢
  field_simp

/-- The last significand bit of an integer below `2 ^ 53` is at most 1. -/
theorem f64Ulp_natCast_nonpos {n : ℕ} (hn : n ≠ 0) (h : n < 2 ^ 53) : f64Ulp n 1 0 ≤ 0 := by
  have hlog : log2Ratio n 1 < 53 := by
    refine (zpow_lt_zpow_iff_right₀ (one_lt_two (α := ℚ))).mp (lt_of_le_of_lt (log2Ratio_spec hn one_ne_zero).1 ?_)
    rw [Nat.cast_one, div_one]
    exact_mod_cast h
  unfold f64Ulp
  omega

theorem f64OfNat_exact {n : ℕ} (h : n < 2 ^ 53) : f64Value (f64OfNat n) = n ∧ f64Finite (f64OfNat n) := by
  have hfin : f64Finite (f64OfNat n) := (f64OfNat_nearestEven (h.trans (pow_lt_pow_right₀ one_lt_two (by norm_num)))).1
  refine ⟨?_, hfin⟩
  obtain rfl | hn := eq_or_ne n 0
  · simp [f64OfNat, f64Round, f64Value, f64Mant]
  have hu := f64Ulp_natCast_nonpos hn h
  have hscaled : f64Scaled n 1 0 = (n <<< (0 - f64Ulp n 1 0).toNat : ℕ) := by
    rw [f64Scaled, ← shiftLeft_div_shiftLeft, Int.toNat_of_nonpos (by omega : -(0 - f64Ulp n 1 0) ≤ 0)]
    simp
  rw [f64OfNat, f64Round_exact hn one_ne_zero hfin hscaled]
  simp

/-- Settles O46: floor and half-up as floors of quotients, the order of patterns, and an integer of at most 53 bits is not
rounded. -/
theorem binary64Conversions : Obligations.Binary64Conversions :=
  ⟨fun x => ⟨f64Floor_eq_floor x, f64RoundHalfUp_eq_floor x⟩,
    fun _ _ _ _ => by rw [f64Lt, decide_eq_true_iff, f64Value_lt_iff], fun _ => f64OfNat_exact⟩

end Sys2Proof.Machine
end

section
/-! SUPPORT. The family 10_state.md: the reset state, the idle step, and what one step of the machine can do, said once
(`Replays` of every step, `EngineRun` of a command) for the whole-machine invariants. -/

namespace Sys2Proof.Machine

/-! ## The step by `BUSY` -/

theorem step_of_busy {s : State} (h : s.busy = true) : step s = runRequest s := by simp [step, h]

theorem step_of_idle {s : State} (h : s.busy = false) : step s = .next (idleStep s) := by simp [step, h]

theorem idleStep_nil {s : State} (h : s.host = []) : idleStep s = s := by simp [idleStep, h]

theorem idleStep_cons {s : State} {act : HostAct} {rest : List HostAct} (h : s.host = act :: rest) :
    idleStep s = hostAct { s with host := rest } act := by simp [idleStep, h]

theorem runRequest_of_decode {s : State} {i : Instr} (h : decode s.req = .instr i) : runRequest s = exec i s := by
  simp [runRequest, h]

theorem decode_of_decodeTableWord {nbits w : Nat} {i : Instr} (h : decodeTableWord nbits w = some i) :
    decode (tableRequest nbits w) = .instr i := by
  unfold decodeTableWord at h
  split at h
  · next hj => rw [hj, Option.some.inj h]
  · simp at h
  · simp at h

/-- Settles O5: a step with `BUSY` 1 is the run of the request, which is `exec` of what it decodes to; `withFetchWord`
places exactly the request that `decodeTableWord` decodes. -/
theorem stepRunsDecodedRequest : Obligations.StepRunsDecodedRequest := by
  have run : ∀ (s : State) (i : Instr), s.busy = true → decode s.req = .instr i → step s = exec i s :=
    fun s i hbusy hi => (step_of_busy hbusy).trans (runRequest_of_decode hi)
  exact ⟨run, fun s nbits w i h => run (s.withFetchWord nbits w) i rfl (decode_of_decodeTableWord h)⟩

/-- Settles O6: an idle step is `hostAct` of the first pending action, clause by clause. -/
theorem idleStepTakesHostAction : Obligations.IdleStepTakesHostAction := by
  intro s hidle
  rw [step_of_idle hidle]
  refine ⟨fun h => ?_, fun n v rest h => ?_, fun rest h => ?_, fun b rest h => ?_, fun req rest h => ?_⟩
  · rw [idleStep_nil h]
  · refine ⟨_, rfl, ?_⟩
    rw [idleStep_cons h]
    refine ⟨rfl, ?_, ?_, ?_, ?_⟩ <;> rintro rfl <;> rfl
  · rw [idleStep_cons h, hostAct]
  · rw [idleStep_cons h, hostAct]
  · rw [idleStep_cons h, hostAct, resetEngine]

/-! ## Another agent's write between commands -/

/-- A register exists in the regime of its address only (20_memory.md R52). -/
theorem regimeOf_of_exists {c : Cfg} {r : Regime} {a : Word} (h : registerExists c r a = true) : regimeOf c a = r := by
  cases r <;> simp_all [registerExists, regimeOf]

/-- A write of an existing register by another agent, where `EXCLUSIVE` does not keep it out. -/
theorem envAct_write {s : State} {r : Regime} {a : Word} (v : Word) (ha : a ∉ s.w.touched)
    (hx : registerExists s.cfg r a = true) : envAct s (.write a v) = doTxn (.otherWrite r a (clip r v)) s := by
  have hr := regimeOf_of_exists hx
  simp [envAct, otherWrite, ha, hr, hx]

/-- Settles O54: between commands no register is touched, so the write is one recorded `otherWrite`. -/
theorem agentWritesRegister : Obligations.AgentWritesRegister := by
  intro s r a v rest hidle hhost hw hwf hx
  refine ⟨doTxn (.otherWrite r a (clip r v)) { s with host := rest }, ?_, ?_, fun q x hne => ?_, rfl, rfl⟩
  · rw [step_of_idle hidle, idleStep_cons hhost, hostAct]
    exact congrArg _ (envAct_write (s := { s with host := rest }) v (by simp [hw, Work.idle]) hx)
  · exact (regGet_regSet_same hwf r a (clip r v)).trans (clip_clip r v)
  · exact regGet_regSet_other s.mem r q a x (clip r v) hne

/-! ## What a step records -/

/-- An event of a register that exists keeps the address map. -/
theorem applyTxn_onMap {c : Cfg} {m : Memory} (h : m.onMap c) {e : Txn}
    (hx : registerExists c e.place.1 e.place.2 = true) : (applyTxn m e).onMap c := by
  cases e with
  | read _ _ _ => exact h
  | readFailed _ _ _ => exact h
  | write r a v => exact regSet_onMap h v hx
  | writeFailed _ _ _ _ => exact h
  | otherWrite r a v => exact regSet_onMap h v hx

theorem replay_onMap {c : Cfg} {m : Memory} (h : m.onMap c) (evs : List Txn)
    (hx : ∀ e ∈ evs, registerExists c e.place.1 e.place.2 = true) : (replay evs m).onMap c := by
  induction evs generalizing m with
  | nil => exact h
  | cons e evs ih =>
    exact ih (applyTxn_onMap h (hx e (by simp))) fun e' he' => hx e' (by simp [he'])

/-- The running instruction touches this register. -/
def runningTouches (s : State) (x : Regime × Word) : Prop :=
  s.busy = true ∧ ∃ i, decode s.req = .instr i ∧ x ∈ instrTouches s.cfg i

/-- `u` comes after `s` with the same configuration and with more events: the register space is what they leave, each is
of a register that exists, and the engine's own are of registers that the instruction running in `s` touches. -/
structure Replays (s u : State) : Prop where
  cfg : u.cfg = s.cfg
  events : ∃ evs, u.trace = s.trace ++ evs ∧ u.mem = replay evs s.mem ∧
    ∀ e ∈ evs, registerExists s.cfg e.place.1 e.place.2 = true ∧ (e.isEngine = true → runningTouches s e.place)

section replays

variable {s t u : State}

theorem Replays.refl (s : State) : Replays s s := ⟨rfl, [], by simp⟩

/-- `Replays` looks at three fields only. -/
theorem Replays.congr (h : Replays s u) (hc : t.cfg = u.cfg) (ht : t.trace = u.trace) (hm : t.mem = u.mem) :
    Replays s t := by
  obtain ⟨hcfg, hevents⟩ := h
  exact ⟨hc.trans hcfg, by rwa [ht, hm]⟩

/-- One more event. -/
theorem Replays.doTxn (h : Replays s u) {e : Txn} (hx : registerExists u.cfg e.place.1 e.place.2 = true)
    (hT : e.isEngine = true → runningTouches s e.place) : Replays s (doTxn e u) := by
  obtain ⟨hcfg, evs, htrace, hmem, hevs⟩ := h
  refine ⟨hcfg, evs ++ [e], by simp [htrace], by simp [replay_append, hmem], fun e' he' => ?_⟩
  rcases List.mem_append.mp he' with he' | he'
  · exact hevs e' he'
  · obtain rfl := List.mem_singleton.mp he'
    exact ⟨hcfg ▸ hx, hT⟩

theorem Replays.envAct (h : Replays s u) (e : EnvAct) : Replays s (envAct u e) := by
  rcases envAct_cases u e with he | ⟨r, a, v, hx, he, _⟩ | ⟨_, he⟩ <;> rw [he]
  · exact h
  · exact h.doTxn hx (by simp [Txn.isEngine])
  · exact h.congr rfl rfl rfl

/-- A canonical register space on the map stays one. -/
theorem Replays.keeps_mem (h : Replays s u) (hwf : s.mem.wf) (hmap : s.mem.onMap s.cfg) :
    u.mem.wf ∧ u.mem.onMap u.cfg := by
  obtain ⟨hcfg, evs, _, hmem, hevs⟩ := h
  rw [hmem, hcfg]
  refine ⟨replay_wf hwf evs, ?_⟩
  exact replay_onMap hmap evs fun e he => (hevs e he).1

/-- An action of the host changes the register space only where another agent's write does. -/
theorem Replays.hostAct (h : Replays s u) (act : HostAct) : Replays s (hostAct u act) := by
  cases act with
  | setReq _ _ => exact h.congr rfl rfl rfl
  | start => exact h.congr rfl rfl rfl
  | bind _ => exact h.congr rfl rfl rfl
  | env e => exact h.envAct e
  | reset _ => exact h.congr rfl rfl rfl

end replays

theorem idleStep_replays (s : State) : Replays s (idleStep s) := by
  unfold idleStep
  split
  · exact .refl s
  · next act rest _ => exact ((Replays.refl s).congr (t := { s with host := rest }) rfl rfl rfl).hostAct act

/-! ## What a command keeps -/

/-- Where no reset is coming, none is coming after the next draw is used up. -/
theorem noResetComing_of_tail {s t : State} (h : noResetComing s) (hd : t.draws = s.draws.tail) (ht : t.tail = s.tail)
    (hl : t.lateResets = s.lateResets) : noResetComing t := by
  obtain ⟨htail, hdraws, hlate⟩ := h
  exact ⟨ht ▸ htail, fun d hm => hdraws d (List.mem_of_mem_tail (hd ▸ hm)), hl ▸ hlate⟩

theorem nextDraw_reset_of_noResetComing {s : State} (h : noResetComing s) : (nextDraw s).reset = none := by
  obtain ⟨htail, hdraws, _⟩ := h
  cases hs : s.draws with
  | nil => simpa [nextDraw, hs] using htail
  | cons d rest => simpa [nextDraw, hs] using hdraws d (by simp [hs])

theorem nextLate_of_noResetComing {s : State} (h : noResetComing s) : nextLate s = none := by
  obtain ⟨_, _, hlate⟩ := h
  cases hs : s.lateResets with
  | nil => simp [nextLate, hs]
  | cons r rest => simpa [nextLate, hs] using hlate r (by simp [hs])

/-- `u` is a state inside the command that runs from `s`: the command has only recorded events, and the engine's inputs
(10_state.md R22, R25) and the host's pending actions are those of `s`. -/
structure EngineRun (s u : State) : Prop extends Replays s u where
  req : u.req = s.req
  transportBound : u.transportBound = s.transportBound
  host : u.host = s.host
  noReset : noResetComing s → noResetComing u

section engineRun

variable {s u : State}

theorem EngineRun.begin (s : State) (l : List Word) : EngineRun s (beginCommand l s) :=
  ⟨(Replays.refl s).congr rfl rfl rfl, rfl, rfl, rfl, id⟩

theorem EngineRun.doTxn (h : EngineRun s u) {e : Txn} (hx : registerExists u.cfg e.place.1 e.place.2 = true)
    (hT : e.isEngine = true → runningTouches s e.place) : EngineRun s (doTxn e u) :=
  ⟨h.toReplays.doTxn hx hT, h.req, h.transportBound, h.host, h.noReset⟩

/-- The working state and the PLL's state are no part of what `EngineRun` says. -/
theorem EngineRun.setWork (h : EngineRun s u) (w : Work) : EngineRun s (setWork w u) :=
  ⟨h.toReplays.congr rfl rfl rfl, h.req, h.transportBound, h.host, h.noReset⟩

theorem EngineRun.setPllState (h : EngineRun s u) (x : PllState) : EngineRun s (setPllState x u) :=
  ⟨h.toReplays.congr rfl rfl rfl, h.req, h.transportBound, h.host, h.noReset⟩

/-- The other agents act before a transaction, each only by a recorded write. -/
theorem EngineRun.beforeTxn (h : EngineRun s u) : EngineRun s (beforeTxn u) where
  toReplays := foldl_envAct (P := Replays s) (fun _ e hv => hv.envAct e) _ _ (h.toReplays.congr rfl rfl rfl)
  req := by simpa using h.req
  transportBound := by simpa using h.transportBound
  host := by simpa using h.host
  noReset hs := noResetComing_of_tail (h.noReset hs) (by simp) (by simp) (by simp)

/-- Every transaction of registers that the running instruction touches keeps `EngineRun`. -/
theorem engineRun_closed {i : Instr} (hbusy : s.busy = true) (hi : decode s.req = .instr i) :
    Closed (fun r a => (r, a) ∈ instrTouches s.cfg i) (fun r a => (r, a) ∈ instrTouches s.cfg i) (EngineRun s) where
  before _ h := h.beforeTxn
  read _ r a v hT hx h := h.doTxn (e := .read r a v) hx fun _ => ⟨hbusy, i, hi, hT⟩
  readFailed _ r a code hT hx h := h.doTxn (e := .readFailed r a code) hx fun _ => ⟨hbusy, i, hi, hT⟩
  write _ r a v hT hx h := h.doTxn (e := .write r a (clip r v)) hx fun _ => ⟨hbusy, i, hi, hT⟩
  writeFailed _ r a v code hT hx h := h.doTxn (e := .writeFailed r a (clip r v) code) hx fun _ => ⟨hbusy, i, hi, hT⟩
  work _ w h := h.setWork w

end engineRun

/-- All that the run of a request can do: `exec_post` where it is an instruction, an error at once where it is none. -/
theorem runRequest_post {P : State → Prop} {s t : State}
    (hC : ∀ i, decode s.req = .instr i →
      Closed (fun r a => (r, a) ∈ instrTouches s.cfg i) (fun r a => (r, a) ∈ instrTouches s.cfg i) P)
    (hcfg : ∀ u, P u → u.cfg = s.cfg)
    (hpll : ∀ u x, x = .configuring ∨ x = .updated → P u → P (setPllState x u))
    (h : ∀ l, P (beginCommand l s)) (ht : runRequest s = .next t) : Ended P t := by
  unfold runRequest at ht
  split at ht
  · next i hi => exact exec_post i (hC i hi) hcfg hpll h ht
  · exact .error (.invalidParam _) _ trivial (h []) (rejectRequest_next ht)
  · exact .error (.invalidParam _) _ trivial (h []) (rejectRequest_next ht)

/-- A step with `BUSY` 1 is the end of a command in which only `EngineRun` happened. -/
theorem step_engineRun {s t : State} (hbusy : s.busy = true) (ht : step s = .next t) : Ended (EngineRun s) t :=
  runRequest_post (fun _ hi => engineRun_closed hbusy hi) (fun _ h => h.cfg) (fun _ x _ h => h.setPllState x)
    (EngineRun.begin s) (step_of_busy hbusy ▸ ht)

/-! ## The response -/

section status

variable (e : Err) (n : Fin 15)

@[simp] theorem statusWord_kind : (statusWord e n).extractLsb' 0 2 = kindCode e :=
  BitVec.extractLsb'_append_eq_right

@[simp] theorem statusWord_low_reserved : (statusWord e n).extractLsb' 2 2 = 0#2 := by
  rw [statusWord, BitVec.extractLsb'_append_eq_of_le (by decide)]
  exact BitVec.extractLsb'_append_eq_right

@[simp] theorem statusWord_reason : (statusWord e n).extractLsb' 4 4 = reasonCode e := by
  rw [statusWord, BitVec.extractLsb'_append_eq_of_le (by decide), BitVec.extractLsb'_append_eq_of_le (by decide)]
  exact BitVec.extractLsb'_append_eq_right

@[simp] theorem statusWord_step : (statusWord e n).extractLsb' 8 8 = stepCode e n := by
  rw [statusWord, BitVec.extractLsb'_append_eq_of_le (by decide), BitVec.extractLsb'_append_eq_of_le (by decide),
    BitVec.extractLsb'_append_eq_of_le (by decide)]
  exact BitVec.extractLsb'_append_eq_right

@[simp] theorem statusWord_high_reserved : (statusWord e n).extractLsb' 16 16 = 0#16 := by
  rw [statusWord, BitVec.extractLsb'_append_eq_of_le (by decide), BitVec.extractLsb'_append_eq_of_le (by decide),
    BitVec.extractLsb'_append_eq_of_le (by decide), BitVec.extractLsb'_append_eq_of_le (by decide)]
  exact BitVec.extractLsb'_eq_self

theorem reasonNumber_bounds (why : Reason) : 1 ≤ (reasonNumber why).toNat ∧ (reasonNumber why).toNat ≤ 6 := by
  cases why <;> decide

/-- A response of the engine's error is legal: each field by the kind of the error (30_encoding.md R90, R91). -/
theorem respond_error_legal (he : e.legal) (s : State) : responseLegal (respond (statusWord e n) (errorData e) s) := by
  simp only [responseLegal, statusLegal, respond_rsp0, respond_rsp1, statusWord_kind, statusWord_low_reserved,
    statusWord_reason, statusWord_step, statusWord_high_reserved]
  cases e with
  | nullParam => simp [kindCode, reasonCode, stepCode, errorData]
  | invalidParam why => simpa [kindCode, reasonCode, stepCode, errorData] using reasonNumber_bounds why
  | transportError code =>
    have hn : n.val % 256 ≤ 14 := by omega
    simpa [kindCode, reasonCode, stepCode, errorData] using ⟨hn, he⟩

end status

/-- Any response with `RSP0` 0, which is `OK` or what a reset leaves. -/
theorem responseLegal_of_ok {s : State} (h : s.rsp0 = 0#32) : responseLegal s := by
  rw [responseLegal, h]
  refine ⟨by decide, ?_, ?_, ?_⟩ <;> intro hk <;> exact absurd hk (by decide)

theorem conclude_responseLegal {a b : Word} (h : ∀ s, responseLegal (respond a b s)) (s : State) :
    responseLegal (conclude a b s) := by
  rcases conclude_cases a b s with ⟨_, hc⟩ | ⟨req, _, hc⟩ <;> rw [hc]
  · exact h _
  · exact responseLegal_of_ok rfl

/-! ## How a command leaves the machine -/

/-- A command ends in a legal response or by a reset. -/
theorem Ended.concluded_or_reset {P : State → Prop} {t : State} (h : Ended P t) :
    ∃ u, P u ∧ ((∃ a b, (∀ s, responseLegal (respond a b s)) ∧ t = conclude a b u) ∨
      ∃ req, (nextDraw u).reset = some req ∧ t = resetEngine req (beforeTxn u)) := by
  cases h with
  | value v u hu ht => exact ⟨u, hu, .inl ⟨_, _, fun _ => responseLegal_of_ok rfl, ht⟩⟩
  | error e u he hu ht => exact ⟨u, hu, .inl ⟨_, _, respond_error_legal e _ he, ht⟩⟩
  | abandoned req u hu hr ht => exact ⟨u, hu, .inr ⟨req, hr, ht⟩⟩

/-- Every command ends idle, holding nothing, with a legal response. -/
theorem Ended.idle {P : State → Prop} {t : State} (h : Ended P t) :
    t.busy = false ∧ t.w = Work.idle ∧ responseLegal t := by
  obtain ⟨u, _, ⟨a, b, hab, rfl⟩ | ⟨req, _, rfl⟩⟩ := h.concluded_or_reset
  · exact ⟨conclude_busy a b u, conclude_w a b u, conclude_responseLegal hab u⟩
  · exact ⟨rfl, rfl, responseLegal_of_ok rfl⟩

theorem Ended.replays {s t : State} (h : Ended (EngineRun s) t) : Replays s t := by
  obtain ⟨u, hu, ⟨a, b, _, rfl⟩ | ⟨req, _, rfl⟩⟩ := h.concluded_or_reset
  · exact hu.toReplays.congr (by simp) (by simp) (by simp)
  · exact hu.beforeTxn.toReplays.congr rfl rfl rfl

theorem Ended.inputs {s t : State} (h : Ended (EngineRun s) t) :
    t.transportBound = s.transportBound ∧ t.host = s.host := by
  obtain ⟨u, hu, ⟨a, b, _, rfl⟩ | ⟨req, _, rfl⟩⟩ := h.concluded_or_reset
  · exact ⟨by simp [hu.transportBound], by simp [hu.host]⟩
  · exact ⟨hu.beforeTxn.transportBound, hu.beforeTxn.host⟩

/-- Where no reset arrives, the command ends in its response and leaves the request. -/
theorem Ended.req {s t : State} (h : Ended (EngineRun s) t) (hs : noResetComing s) : t.req = s.req := by
  obtain ⟨u, hu, ⟨a, b, _, rfl⟩ | ⟨req, hr, rfl⟩⟩ := h.concluded_or_reset
  · simp [conclude_answered (nextLate_of_noResetComing (hu.noReset hs)), hu.req]
  · simp [nextDraw_reset_of_noResetComing (hu.noReset hs)] at hr

/-- Settles O60: what a command's end leaves alone. -/
theorem engineLeavesItsInputs : Obligations.EngineLeavesItsInputs := by
  intro s t hbusy ht
  have h := step_engineRun hbusy ht
  obtain ⟨htransport, hhost⟩ := h.inputs
  obtain ⟨hidle, _⟩ := h.idle
  exact ⟨htransport, hhost, hidle, h.req⟩

/-! ## Every step -/

/-- A step is an idle step or the end of a command. -/
theorem step_cases {s t : State} (ht : step s = .next t) : t = idleStep s ∨ Ended (EngineRun s) t := by
  cases hbusy : s.busy with
  | false =>
    rw [step_of_idle hbusy] at ht
    exact .inl (Host.Outcome.next.inj ht).symm
  | true => exact .inr (step_engineRun hbusy ht)

theorem step_replays {s t : State} (ht : step s = .next t) : Replays s t := by
  obtain rfl | h := step_cases ht
  · exact idleStep_replays s
  · exact h.replays

/-- Settles O58: `Replays` of every step. -/
theorem stepReplaysItsEvents : Obligations.StepReplaysItsEvents := fun _ _ ht => (step_replays ht).events

/-- Settles O59: `Replays` of every step. -/
theorem configurationIsConstant : Obligations.ConfigurationIsConstant := fun _ _ ht => (step_replays ht).cfg

/-- An action of the host writes neither `W` nor the response, but for a reset, which clears them. -/
theorem hostAct_idle {s : State} (hw : s.w = Work.idle) (hr : responseLegal s) (act : HostAct) :
    (hostAct s act).w = Work.idle ∧ responseLegal (hostAct s act) := by
  cases act with
  | setReq _ _ => exact ⟨hw, hr⟩
  | start => exact ⟨hw, hr⟩
  | bind _ => exact ⟨hw, hr⟩
  | env e => exact ⟨by simp [hostAct, hw], by simpa [hostAct, responseLegal] using hr⟩
  | reset _ => exact ⟨rfl, responseLegal_of_ok rfl⟩

theorem idleStep_idle {s : State} (hw : s.w = Work.idle) (hr : responseLegal s) :
    (idleStep s).w = Work.idle ∧ responseLegal (idleStep s) := by
  unfold idleStep
  split
  · exact ⟨hw, hr⟩
  · next act rest _ => exact hostAct_idle (s := { s with host := rest }) hw hr act

/-- Settles O57: the register space is kept by the replay of the step's events (`Replays`), the working state and the
response by how a command ends or what the host's action writes. -/
theorem stepKeepsInvariant : Obligations.StepKeepsInvariant := by
  rintro s t ⟨hwf, hmap, hw, hr⟩ ht
  obtain ⟨hwf', hmap'⟩ := (step_replays ht).keeps_mem hwf hmap
  have hidle : t.w = Work.idle ∧ responseLegal t := by
    obtain rfl | h := step_cases ht
    · exact idleStep_idle hw hr
    · obtain ⟨_, hend⟩ := h.idle
      exact hend
  exact ⟨hwf', hmap', hidle⟩

/-! ## Reset -/

/-- Settles O55: the reset state's own values. -/
theorem resetState : Obligations.ResetState := ⟨rfl, rfl, rfl, rfl, rfl⟩

/-- Settles O56: nothing is listed in the reset state, `W` is idle and the response is that of `OK`. -/
theorem resetMeetsInvariant : Obligations.ResetMeetsInvariant := by
  refine ⟨reset_mem_wf, ⟨?_, ?_⟩, rfl, responseLegal_of_ok rfl⟩ <;> simp [State.reset]

end Sys2Proof.Machine
end

section
/-! SUPPORT. The family 20_memory.md: one transaction, what the reads of a field return, where an access faults, and what
other agents' writes between the transactions of a field write come to (`Runs`: the transactions of a command among other
agents' acts). -/

namespace Sys2Proof.Machine

/-! ## One transaction -/

section transaction

variable {r : Regime} {a : Word} {s : State}

theorem memRead_of_code_zero (hx : registerExists s.cfg r a = true) (hr : (nextDraw s).reset = none)
    (hc : (nextDraw s).code = 0#32) :
    memRead r a s = .ok (readValue r a (nextDraw s) (beforeTxn s))
      (doTxn (.read r a (readValue r a (nextDraw s) (beforeTxn s))) (beforeTxn s)) := by
  rw [memRead, issue_exists hx hr, Res.bind, if_pos hc]
  rfl

theorem memRead_of_code_ne_zero (hx : registerExists s.cfg r a = true) (hr : (nextDraw s).reset = none)
    (hc : (nextDraw s).code ≠ 0#32) :
    memRead r a s = .raise (.transportError (nextDraw s).code) (logTxn (.readFailed r a (nextDraw s).code) (beforeTxn s)) := by
  rw [memRead, issue_exists hx hr, Res.bind, if_neg hc]

theorem memWrite_of_code_zero (v : Word) (hx : registerExists s.cfg r a = true) (hr : (nextDraw s).reset = none)
    (hc : (nextDraw s).code = 0#32) : memWrite r a v s = .ok () (doTxn (.write r a (clip r v)) (beforeTxn s)) := by
  rw [memWrite, issue_exists hx hr, Res.bind, if_pos hc]

theorem memWrite_of_code_ne_zero (v : Word) (hx : registerExists s.cfg r a = true) (hr : (nextDraw s).reset = none)
    (hc : (nextDraw s).code ≠ 0#32) :
    memWrite r a v s = .raise (.transportError (nextDraw s).code)
      (logTxn (.writeFailed r a (clip r v) (nextDraw s).code) (beforeTxn s)) := by
  rw [memWrite, issue_exists hx hr, Res.bind, if_neg hc]

theorem readValue_volatile (d : Draw) (h : a ∈ s.cfg.volatileAddrs) : readValue r a d s = clip r d.fresh := by
  simp [readValue, h]

theorem readValue_stable (d : Draw) (h : a ∉ s.cfg.volatileAddrs) : readValue r a d s = regGet s.mem r a := by
  simp [readValue, h]

theorem readValue_byte_lt (a : Word) (d : Draw) (s : State) : (readValue .byte a d s).toNat < 256 := by
  by_cases h : a ∈ s.cfg.volatileAddrs
  · rw [readValue_volatile d h, clip, BitVec.toNat_setWidth]
    omega
  · rw [readValue_stable d h, regGet, BitVec.toNat_setWidth]
    omega

end transaction

/-- Other agents' acts before a transaction keep the canonical form. -/
theorem beforeTxn_wf {s : State} (h : s.mem.wf) : (beforeTxn s).mem.wf := by
  refine foldl_envAct (P := fun t => t.mem.wf) (fun t e ht => ?_) _ _ h
  rcases envAct_cases t e with he | ⟨r, a, v, _, he, _⟩ | ⟨_, he⟩ <;> rw [he]
  · exact ht
  · exact applyTxn_wf ht _
  · exact ht

/-- Settles O16: the two ways a transaction that is issued can end, by its drawn code. -/
theorem transactionEffects : Obligations.TransactionEffects := by
  intro r a v s hx hr hwf
  refine ⟨fun hc => ⟨⟨_, _, memRead_of_code_zero hx hr hc, rfl, fun hv => ?_, fun hv => ?_⟩,
    ⟨_, memWrite_of_code_zero v hx hr hc, ?_, fun q x hne => ?_⟩⟩, fun hc => ?_⟩
  · exact readValue_volatile _ (by simpa using hv)
  · exact readValue_stable _ (by simpa using hv)
  · exact regGet_write_same (beforeTxn_wf hwf) r a v
  · exact regGet_write_other _ _ hne
  · exact ⟨⟨_, memRead_of_code_ne_zero hx hr hc, rfl⟩, ⟨_, memWrite_of_code_ne_zero v hx hr hc, rfl⟩⟩

/-! ## What the reads of a field return -/

/-- The transactions of a field read are reads. -/
theorem isRead_of_mem_readTxnsOf {c : Cfg} {a : Word} {bs bc : Nat} {val : Nat → Word} {e : Txn}
    (he : e ∈ readTxnsOf c a bs bc val) : ∃ r x v, e = .read r x v := by
  unfold readTxnsOf at he
  cases hr : regimeOf c a with
  | byte =>
    rw [hr] at he
    obtain ⟨j, _, rfl⟩ := List.mem_map.mp he
    exact ⟨_, _, _, rfl⟩
  | word =>
    rw [hr] at he
    simp only at he
    split at he
    · obtain rfl := List.mem_singleton.mp he
      exact ⟨_, _, _, rfl⟩
    · obtain rfl | he := List.mem_cons.mp he
      · exact ⟨_, _, _, rfl⟩
      · obtain rfl := List.mem_singleton.mp he
        exact ⟨_, _, _, rfl⟩

/-- With no volatile register among those it reads, a field reads as the bits that the register space holds. -/
theorem fieldOf_stable_getLsbD {s : State} {a : Word} {bs bc : Nat} (hb : bs ≤ 31) (hc : bc ≤ 32)
    (hst : fieldStable s.cfg a bs bc) (hle : regimeOf s.cfg a = .word → 32 < bs + bc → s.cfg.spanCombine = .le) (j : Nat) :
    (fieldOf s.cfg a bs bc (fieldDrawn s a)).getLsbD j = (decide (j < bc) && fieldBit s.cfg s.mem a bs j) := by
  rw [fieldOf_getLsbD hb hc hle _ fun hr k => by
    rw [fieldDrawn, hr]
    exact drawnAt_byte_lt _ _ _]
  by_cases hj : j < bc
  swap
  · simp [hj]
  congr 1
  unfold fieldBit bitPlace
  cases hr : regimeOf s.cfg a with
  | byte => simp only [fieldDrawn_byte hst hr (show (bs + j) / 8 < regCount bs bc by unfold regCount; omega)]
  | word =>
    simp only
    split
    · rw [fieldDrawn_word hst hr]
    · rw [fieldDrawn_span hst hr (by omega)]

/-- Settles O12: the value of a clean read command is `fieldOf` of the registers' contents, whose bits are the field's. -/
theorem readReturnsFieldBits : Obligations.ReadReturnsFieldBits := by
  rintro i s a bs bc hi ⟨he, h1, h32, hx, hst⟩ hle hc hl
  obtain ⟨t, ht, hdone⟩ := exec_read_clean hi he h1 h32 hx hc hl
  refine ⟨t, ht, by rw [hdone.eq], fun j => ?_⟩
  rw [hdone.eq]
  exact fieldOf_stable_getLsbD (exec_read hi s).2 h32 hst hle j

theorem returnedAt_eq_drawnAt (s : State) (k : Nat) (r : Regime) (x : Word) : returnedAt s k r x = drawnAt s k r x := by
  simp [returnedAt, drawnAt]

theorem leSum_eq_sum (val : Nat → Word) (n : Nat) :
    leSum val n = ((List.range n).map fun j => (val j).toNat * 256 ^ j).sum := by
  induction n with
  | zero => rfl
  | succ n ih => simp [leSum, ih, List.range_succ]

/-- Eight bytes fit the accumulator. -/
theorem leSum_toNat (val : Nat → Word) (h : ∀ j, (val j).toNat < 256) {n : Nat} (hn : n ≤ 8) :
    (BitVec.ofNat 64 (leSum val n)).toNat = leSum val n := by
  have hlt := leSum_lt val h n
  have hle : (256 : Nat) ^ n ≤ 256 ^ 8 := Nat.pow_le_pow_right (by norm_num) hn
  rw [BitVec.toNat_ofNat, Nat.mod_eq_of_lt (by omega)]

section drawn

variable {s : State} {a : Word}

theorem fieldDrawn_eq_byte (hr : regimeOf s.cfg a = .byte) (k : Nat) :
    fieldDrawn s a k = returnedAt s k .byte (addrAt a k) := by
  rw [returnedAt_eq_drawnAt, fieldDrawn, readPlace, hr]

theorem fieldDrawn_eq_word (hr : regimeOf s.cfg a = .word) (k : Nat) :
    fieldDrawn s a k = returnedAt s k .word (addrAt a (4 * k)) := by
  rw [returnedAt_eq_drawnAt, fieldDrawn, readPlace, hr]

/-- The byte-regime read as a number. -/
theorem fieldOf_byte_toNat {bs bc : Nat} (hb : bs ≤ 31) (hc : bc ≤ 32) (hr : regimeOf s.cfg a = .byte) :
    (fieldOf s.cfg a bs bc (fieldDrawn s a)).toNat =
      ((List.range (regCount bs bc)).map fun j => (returnedAt s j .byte (addrAt a j)).toNat * 256 ^ j).sum /
        2 ^ bs % 2 ^ bc := by
  have hlt : ∀ j, (fieldDrawn s a j).toNat < 256 := fun j => by
    rw [fieldDrawn_eq_byte hr, returnedAt_eq_drawnAt]
    exact drawnAt_byte_lt s j _
  simp only [fieldOf, hr]
  rw [fieldOfAcc_toNat _ _ hc, leSum_toNat _ hlt (regCount_le (by omega) hc), leSum_eq_sum]
  simp only [fieldDrawn_eq_byte hr]

end drawn

/-- Settles O17: the value of a clean read command is `fieldOf` of what its reads return; as a number, regime by regime. -/
theorem readReturnsDrawnValues : Obligations.ReadReturnsDrawnValues := by
  refine ⟨fun s j r x => ⟨fun hv => if_pos hv, fun hv => if_neg hv⟩, ?_⟩
  rintro i s a bs bc hi ⟨he, h1, h32, hx⟩ hc hl
  obtain ⟨t, ht, hdone⟩ := exec_read_clean hi he h1 h32 hx hc hl
  have hb := (exec_read hi s).2
  have hval : t.rsp1 = fieldOf s.cfg a bs bc (fieldDrawn s a) := by rw [hdone.eq]
  have hword : regimeOf s.cfg a = .word →
      fieldDrawn s a 0 = returnedAt s 0 .word a ∧ fieldDrawn s a 1 = returnedAt s 1 .word (a + 4#32) := fun hr => by
    rw [fieldDrawn_eq_word hr, fieldDrawn_eq_word hr, Nat.mul_zero, addrAt_zero]
    exact ⟨rfl, rfl⟩
  refine ⟨t, ht, by rw [hdone.eq], by rw [hdone.eq]; exact replay_reads fun _ => isRead_of_mem_readTxnsOf, fun hr => ?_, fun hr hs => ?_,
    fun hr hs hm => ?_, fun hr hs hm => ?_⟩
  · rw [hval, fieldOf_byte_toNat hb h32 hr]
  all_goals
    obtain ⟨h0, h1⟩ := hword hr
    simp only [hval, fieldOf, hr, h0, h1]
  · rw [if_pos hs, fieldOfWord_toNat _ _ h32]
  · rw [if_neg (by omega), hm, fieldOfSpan_le_toNat _ _ hb h32 hs]
  · rw [if_neg (by omega), hm, fieldOfSpan_doc_toNat _ _ hb h32 hs]

/-! ## A read that fails -/

/-- A command whose transaction fails, with no reset before its response. -/
theorem stopped_of_failure {s : State} {L : List Txn} (hl : answered s) (hr : (drawAt s L.length).reset = none) (n : Fin 15)
    (x : Txn) :
    stopped s L n x = respond (statusWord (.transportError (drawAt s L.length).code) n) (drawAt s L.length).code
      { s with
        draws := s.draws.drop (L.length + 1), trace := s.trace ++ L ++ [x.failed (drawAt s L.length).code],
        mem := replay L s.mem, lateResets := s.lateResets.tail } := by
  simp only [stopped, hr]
  exact conclude_answered (s := { s with
    draws := s.draws.drop (L.length + 1), trace := s.trace ++ L ++ [x.failed (drawAt s L.length).code],
    mem := replay L s.mem }) hl _ _

/-- `KIND` 3, no `REASON`, `STEP` 0 (30_encoding.md R90). -/
theorem statusWord_transportError_zero (code : Word) : statusWord (.transportError code) 0 = 3#32 := by
  simp [statusWord, stepCode, reasonCode, kindCode]

/-- Settles O18: the command stops at its `k`-th transaction, after reads only. -/
theorem readFailsAtTransaction : Obligations.ReadFailsAtTransaction := by
  rintro i s a bs bc k hi ⟨he, h1, h32, hx, hst⟩ hk hc hl ⟨hacts, hreset⟩ hcode
  have hstop := exec_read_stop hi he h1 h32 hx hk hc hacts fun _ => hcode
  simp only [readTxnsOf_stable hst] at hstop
  have hlen : k < (readTxns s.cfg s.mem a bs bc).length := by rwa [readTxns_length]
  have htake : ((readTxns s.cfg s.mem a bs bc).take k).length = k := by
    rw [List.length_take]
    omega
  have hmem : replay ((readTxns s.cfg s.mem a bs bc).take k) s.mem = s.mem :=
    replay_reads fun e he => isRead_of_mem_readTxnsOf (readTxnsOf_stable hst ▸ List.mem_of_mem_take he)
  refine ⟨_, hstop, ?_⟩
  rw [stopped_of_failure hl (by rwa [htake]), htake]
  refine ⟨statusWord_transportError_zero _, rfl, hmem, rfl, ?_⟩
  simp [hlen]

/-! ## Where an access faults -/

section faults

variable {s : State} {a : Word} {bs bc : Nat}

/-- A byte-regime field whose `j`-th register is the first outside the window, those before it not volatile. -/
theorem field_crosses_byte {j : Nat} (hr : regimeOf s.cfg a = .byte) (hj : j < regCount bs bc)
    (hout : inByteWindow s.cfg (addrAt a j) = false)
    (hin : ∀ k, k < j → inByteWindow s.cfg (addrAt a k) = true ∧ addrAt a k ∉ s.cfg.volatileAddrs) :
    Faults (readField a bs bc s) s (byteReads s.mem a j) (Fault.crossRegime (addrAt a j)) ∧
    ∀ v, Faults (writeField a bs bc v s) s (byteReads s.mem a j) (Fault.crossRegime (addrAt a j)) := by
  have hreads : readsFrom a 0 j (fieldDrawn s a) = byteReads s.mem a j :=
    readsFrom_stable _ _ _ _ fun k hk => by
      rw [fieldDrawn, readPlace, hr]
      exact drawnAt_stable (hin k hk).2
  rw [← hreads]
  exact field_faults_byte hr hj (fun k hk => (hin k hk).1) hout

/-- A spanning word field whose second register is in the byte window, the first not volatile. -/
theorem field_crosses_span (hr : regimeOf s.cfg a = .word) (h4 : a.toNat % 4 = 0) (hsp : 32 < bs + bc)
    (hin : inByteWindow s.cfg (addrAt a 4) = true) (hv : a ∉ s.cfg.volatileAddrs) :
    Faults (readField a bs bc s) s [readTxn s.mem .word a] (Fault.crossRegime (addrAt a 4)) ∧
    ∀ v, Faults (writeField a bs bc v s) s [readTxn s.mem .word a] (Fault.crossRegime (addrAt a 4)) := by
  have hread : fieldDrawn s a 0 = regGet s.mem .word a := by
    rw [fieldDrawn, readPlace, hr]
    simp only [Nat.mul_zero, addrAt_zero]
    exact drawnAt_stable hv
  rw [readTxn, ← hread]
  exact field_faults_span hr h4 hsp hin

@[simp] theorem byteReads_length (m : Memory) (a : Word) (n : Nat) : (byteReads m a n).length = n := by simp [byteReads]

theorem replay_byteReads (m' : Memory) (a : Word) (n : Nat) (m : Memory) : replay (byteReads m' a n) m = m :=
  replay_reads fun e he => by
    obtain ⟨j, _, rfl⟩ := List.mem_map.mp he
    exact ⟨_, _, _, rfl⟩

end faults

/-- A reading or a writing instruction whose field faults after some reads. -/
theorem exec_faults_after_reads {i : Instr} {s : State} {a : Word} {bs bc : Nat} {L : List Txn} {f : State → Fault}
    (h : readOperands i = some (a, bs, bc) ∨ ∃ v, writeOperands i = some (a, bs, bc, v)) (he : engineReady s) (h1 : 1 ≤ bc)
    (h32 : bc ≤ 32)
    (hf : ∀ l, Faults (readField a bs bc (beginCommand l s)) (beginCommand l s) L f ∧
      ∀ v, Faults (writeField a bs bc v (beginCommand l s)) (beginCommand l s) L f)
    (hL : replay L s.mem = s.mem) (hc : cleanFor L.length s) (hd : (drawAt s L.length).undisturbed) :
    ∃ u, exec i s = .fault (f u) ∧ u.mem = s.mem ∧ u.trace = s.trace ++ L := by
  obtain ⟨l, u, hran, hexec⟩ := exec_faults h he h1 h32 hf hc hd
  exact ⟨dropDraw u, hexec, hran.mem.trans hL, hran.trace⟩

/-- A PLL_START whose sequence faults at the field of one of its writes, after some reads of that field. -/
theorem exec_pllStart_faults_after_reads {s : State} {xm src sync : Byte} {fin fout : Word} {k : PllConfig}
    {pre post : List (Fin 15 × Descriptor × Word)} {n : Fin 15} {d : Descriptor} {v : Word} {f : State → Fault}
    {L : Memory → List Txn} {len : Nat} (hr : pllReady s fin fout k)
    (hsteps : startupSteps s.cfg xm src sync fout k = pre ++ (n, d, v) :: post) (hpre : stepsReady s.cfg pre)
    (hf : ∀ t : State, t.cfg = s.cfg → Faults (writeField d.addr d.bs d.bc v t) t (L t.mem) f)
    (hL : ∀ m, replay (L m) m = m) (hlen : ∀ m, (L m).length = len)
    (hc : cleanFor (stepsCount s.cfg pre + len) s) (hd : (drawAt s (stepsCount s.cfg pre + len)).undisturbed) :
    ∃ u, exec (.pllStart xm src sync fin fout) s = .fault (f u) ∧ u.pllState = .configuring ∧
      u.mem = replay ((stepsTxns s.cfg s.mem pre).map Prod.snd) s.mem ∧
      u.trace = s.trace ++ (stepsTxns s.cfg s.mem pre).map Prod.snd ++ L u.mem := by
  obtain ⟨w, u, hran, hexec⟩ := exec_pllStart_faults hr hsteps hpre hf (by rwa [hlen]) (by rwa [hlen])
  have hmem : u.mem = replay ((stepsTxns s.cfg s.mem pre).map Prod.snd) s.mem := by
    rw [hran.eq]
    exact (replay_append _ _ _).trans (hL _)
  refine ⟨dropDraw u, hexec, by rw [dropDraw_pllState, hran.eq]; rfl, hmem, ?_⟩
  rw [dropDraw_trace, dropDraw_mem, hmem, List.append_assoc]
  exact congrArg State.trace hran.eq

/-- A reading or a writing instruction of a word-regime field at an address that is no multiple of 4. -/
theorem exec_misaligned {i : Instr} {s : State} {a : Word} {bs bc : Nat}
    (hi : readOperands i = some (a, bs, bc) ∨ ∃ v, writeOperands i = some (a, bs, bc, v)) (he : engineReady s) (h1 : 1 ≤ bc)
    (h32 : bc ≤ 32) (hr : regimeOf s.cfg a = .word) (h4 : a.toNat % 4 ≠ 0) (hd : (drawAt s 0).undisturbed) :
    ∃ u, exec i s = .fault (.misaligned a u) ∧ u.mem = s.mem ∧ u.trace = s.trace := by
  simpa using exec_faults_after_reads (L := []) hi he h1 h32
    (fun l => field_faults_misaligned (s := beginCommand l s) hr h4) rfl (fun k hk => absurd hk (by simp)) hd

/-- Settles O35: the field's first transaction is the one that faults. -/
theorem misalignedWordFaults : Obligations.MisalignedWordFaults := by
  refine ⟨fun i s a bs bc hi => exec_misaligned (.inl hi), fun i s a bs bc v hi => exec_misaligned (.inr ⟨v, hi⟩), ?_⟩
  intro s xm src sync fin fout c pre post n d v hready hsteps hpre hc hd hr h4
  obtain ⟨u, hexec, hpll, hmem, htrace⟩ := exec_pllStart_faults_after_reads (L := fun _ => []) (len := 0) hready hsteps hpre
    (fun t ht => (field_faults_misaligned (by rwa [ht]) h4).2 v) (fun _ => rfl) (fun _ => rfl) hc hd
  exact ⟨u, hexec, hpll, by simpa using htrace, hmem⟩

/-- Settles O36: the reads up to the register outside the regime, then the fault there. -/
theorem crossRegimeFaults : Obligations.CrossRegimeFaults := by
  refine ⟨?_, ?_, ?_⟩
  · intro i s a bs bc j hi he h1 h32 hr hj hout hin hc hd
    exact exec_faults_after_reads (L := byteReads s.mem a j) hi he h1 h32
      (fun l => field_crosses_byte (s := beginCommand l s) hr hj hout hin)
      (replay_byteReads _ _ _ _) (by rwa [byteReads_length]) (by rwa [byteReads_length])
  · intro i s a bs bc hi he h32 hr h4 hsp hin hv hc hd
    have hb : bs ≤ 31 := hi.elim (fun h => (exec_read h s).2) fun ⟨v, h⟩ => (exec_write h s).2
    exact exec_faults_after_reads hi he (by omega) h32
      (fun l => field_crosses_span (s := beginCommand l s) hr h4 hsp hin hv) rfl hc hd
  · intro s xm src sync fin fout c pre post n d v hready hsteps hpre
    refine ⟨fun j hr hj hout hin hc hd => ?_, fun hr h4 hsp hin hv hc hd => ?_⟩
    · exact exec_pllStart_faults_after_reads (L := fun m => byteReads m d.addr j) hready hsteps hpre
        (fun t ht => (field_crosses_byte (by rwa [ht]) hj (by rwa [ht]) (by rwa [ht])).2 v)
        (fun m => replay_byteReads _ _ _ _) (fun m => byteReads_length _ _ _) hc hd
    · exact exec_pllStart_faults_after_reads (L := fun m => [readTxn m .word d.addr]) hready hsteps hpre
        (fun t ht => (field_crosses_span (by rwa [ht]) h4 hsp (by rw [ht]; exact hin) (by rwa [ht])).2 v)
        (fun _ => rfl) (fun _ => rfl) hc hd

/-! ## Transactions among other agents' acts -/

/-- The transaction `e`, issued in `s`, succeeds: a read returns what its register then holds or draws. -/
def Txn.succeeds (s : State) : Txn → Prop
  | .read r a v => v = readValue r a (nextDraw s) (beforeTxn s)
  | .readFailed _ _ _ => False
  | .write _ _ _ => True
  | .writeFailed _ _ _ _ => False
  | .otherWrite _ _ _ => False

/-- From `s` a part of a command issues the transactions `L`, all of which succeed, and comes to `t`; before each of them the
other agents act as its draw says. Between them the working state changes, but for its footprint. -/
inductive Runs : State → List Txn → State → Prop where
  | nil (s : State) : Runs s [] s
  | work {s t : State} {w : Work} {L : List Txn} (hw : w.touched = s.w.touched) (h : Runs (setWork w s) L t) : Runs s L t
  | txn {s t : State} {e : Txn} {L : List Txn} (he : e.succeeds s) (h : Runs (doTxn e (beforeTxn s)) L t) : Runs s (e :: L) t

namespace Runs

variable {s t u : State} {L L' : List Txn} {r : Regime} {a : Word}

theorem trans (h : Runs s L t) (h' : Runs t L' u) : Runs s (L ++ L') u := by
  induction h with
  | nil _ => exact h'
  | work hw _ ih => exact .work hw (ih h')
  | txn he _ ih => exact .txn he (ih h')

/-- A change of the working state that keeps its footprint. -/
theorem setWork {w : Work} (h : Runs s L t) (hw : w.touched = t.w.touched) : Runs s L (setWork w t) := by
  simpa using h.trans (.work hw (.nil _))

theorem snoc {e : Txn} (h : Runs s L t) (he : e.succeeds t) : Runs s (L ++ [e]) (doTxn e (beforeTxn t)) :=
  h.trans (.txn he (.nil _))

theorem keeps (h : Runs s L t) :
    t.cfg = s.cfg ∧ t.lateResets = s.lateResets ∧ t.tail = s.tail ∧ t.draws = s.draws.drop L.length := by
  induction h with
  | nil _ => exact ⟨rfl, rfl, rfl, rfl⟩
  | work _ _ ih => simpa using ih
  | txn _ _ ih => simpa using ih

theorem drawAt (h : Runs s L t) (k : Nat) : drawAt t k = drawAt s (L.length + k) := by
  obtain ⟨_, _, htail, hdraws⟩ := h.keeps
  simp [Machine.drawAt, htail, hdraws]

theorem next_granted (h : Runs s L t) (hg : grantedFor (L.length + 1) s) :
    (nextDraw t).reset = none ∧ (nextDraw t).code = 0#32 := by
  rw [← drawAt_zero, h.drawAt]
  exact hg _ (by omega)

/-! ### The engine's operations -/

theorem memRead (h : Runs s L t) (hx : registerExists s.cfg r a = true) (hg : grantedFor (L.length + 1) s) :
    ∃ v u, memRead r a t = .ok v u ∧ Runs s (L ++ [.read r a v]) u ∧ u.w = t.w ∧ (r = .byte → v.toNat < 256) := by
  obtain ⟨hreset, hcode⟩ := h.next_granted hg
  obtain ⟨hcfg, _⟩ := h.keeps
  refine ⟨_, _, memRead_of_code_zero (by rwa [hcfg]) hreset hcode, h.snoc rfl, beforeTxn_w t, ?_⟩
  rintro rfl
  exact readValue_byte_lt _ _ _

theorem memWrite (v : Word) (h : Runs s L t) (hx : registerExists s.cfg r a = true) (hg : grantedFor (L.length + 1) s) :
    ∃ u, memWrite r a v t = .ok () u ∧ Runs s (L ++ [.write r a (clip r v)]) u ∧ u.w = t.w := by
  obtain ⟨hreset, hcode⟩ := h.next_granted hg
  obtain ⟨hcfg, _⟩ := h.keeps
  exact ⟨_, memWrite_of_code_zero v (by rwa [hcfg]) hreset hcode, h.snoc trivial, beforeTxn_w t⟩

/-- The byte-regime reads; `val` holds what those before returned, the accumulator their number. -/
theorem readBytes {val : Nat → Word} {i k : Nat} (h : Runs s L t)
    (hx : ∀ j, i ≤ j → j < i + k → registerExists s.cfg .byte (addrAt a j) = true) (hg : grantedFor (L.length + k) s)
    (h8 : i + k ≤ 8) (hlt : ∀ j, (val j).toNat < 256) (hacc : t.w.acc = BitVec.ofNat 64 (leSum val i)) :
    ∃ val' u, readBytes a i k t = .ok () u ∧ Runs s (L ++ readsFrom a i k val') u ∧
      u.w.acc = BitVec.ofNat 64 (leSum val' (i + k)) ∧ ∀ j, j < i → val' j = val j := by
  induction k generalizing i L t val with
  | zero => exact ⟨val, t, rfl, by simpa [readsFrom] using h, hacc, fun _ _ => rfl⟩
  | succ k ih =>
    obtain ⟨b, u, hread, hu, hw, hb⟩ := h.memRead (hx i (by omega) (by omega)) fun j hj => hg j (by omega)
    have hbefore : leSum (Function.update val i b) i = leSum val i :=
      leSum_congr fun j hj => Function.update_of_ne (by omega) _ _
    have hlt' : ∀ j, (Function.update val i b j).toNat < 256 := fun j => by
      by_cases hj : j = i
      · rw [hj, Function.update_self]
        exact hb rfl
      · rw [Function.update_of_ne hj]
        exact hlt j
    have hacc' : accumulate u.w.acc i b = BitVec.ofNat 64 (leSum (Function.update val i b) (i + 1)) := by
      rw [← accumulate_leSum _ hlt' (by omega), Function.update_self, hbefore, hw, hacc]
    obtain ⟨val', x, hrest, hx', hxacc, hval'⟩ := ih (t := setAcc (accumulate u.w.acc i b) u)
      (hu.setWork (w := { u.w with acc := accumulate u.w.acc i b }) rfl) (fun j h1 h2 => hx j (by omega) (by omega))
      (fun j hj => hg j (by simp at hj; omega)) (by omega) hlt' hacc'
    have hvi : val' i = b := by rw [hval' i (by omega), Function.update_self]
    refine ⟨val', x, ?_, ?_, by rw [hxacc]; congr 2; omega, fun j hj => ?_⟩
    · simp only [Machine.readBytes, hread, Res.bind]
      exact hrest
    · rw [← hvi] at hx'
      simpa [readsFrom, List.range'_succ] using hx'
    · rw [hval' j (by omega), Function.update_of_ne (by omega)]

theorem writeBytes {i k : Nat} (h : Runs s L t)
    (hx : ∀ j, i ≤ j → j < i + k → registerExists s.cfg .byte (addrAt a j) = true) (hg : grantedFor (L.length + k) s) :
    ∃ u, writeBytes a i k t = .ok () u ∧ Runs s (L ++ writesFrom a i k t.w.acc) u := by
  induction k generalizing i L t with
  | zero => exact ⟨t, rfl, by simpa [writesFrom] using h⟩
  | succ k ih =>
    obtain ⟨u, hwrite, hu, hw⟩ := h.memWrite (accByte t.w.acc i) (hx i (by omega) (by omega)) fun j hj => hg j (by omega)
    obtain ⟨x, hrest, hx'⟩ := ih (i := i + 1) hu (fun j h1 h2 => hx j (by omega) (by omega)) (fun j hj => hg j (by simp at hj; omega))
    refine ⟨x, ?_, ?_⟩
    · simp only [Machine.writeBytes, hwrite, Res.bind]
      exact hrest
    · rw [clip_accByte, hw] at hx'
      simpa [writesFrom, List.range'_succ] using hx'

/-- The byte-regime read-modify-write. -/
theorem writeByteField {bs bc : Nat} (vm : Word) (h : Runs s [] t) (hn : regCount bs bc ≤ 8)
    (hx : ∀ j, j < regCount bs bc → registerExists s.cfg .byte (addrAt a j) = true)
    (hg : grantedFor (2 * regCount bs bc) s) :
    ∃ val u, writeByteField a bs bc vm t = .ok () u ∧
      Runs s (readsFrom a 0 (regCount bs bc) val ++
        writesFrom a 0 (regCount bs bc) (accWithField (BitVec.ofNat 64 (leSum val (regCount bs bc))) bs bc vm)) u := by
  obtain ⟨val, u, hread, hu, hacc, _⟩ := Runs.readBytes (t := startBytes (regCount bs bc) t) (a := a) (i := 0)
    (k := regCount bs bc) (val := fun _ => 0#32)
    (h.setWork (w := { t.w with n := regCount bs bc, acc := 0#64 }) rfl) (fun j _ hj => hx j (by omega))
    (fun j hj => hg j (by simp at hj; omega)) (by omega) (fun _ => by simp) (by simp [leSum])
  obtain ⟨x, hwrite, hx'⟩ := Runs.writeBytes (t := setAcc (accWithField u.w.acc bs bc vm) u) (a := a) (i := 0)
    (k := regCount bs bc) (hu.setWork (w := { u.w with acc := accWithField u.w.acc bs bc vm }) rfl)
    (fun j _ hj => hx j (by omega)) (fun j hj => hg j (by simp [readsFrom] at hj; omega))
  refine ⟨val, x, ?_, ?_⟩
  · simp only [Machine.writeByteField, hread, Res.bind]
    exact hwrite
  · simpa [hacc] using hx'

/-- The non-spanning word read-modify-write. -/
theorem writeWordField {bs bc : Nat} (vm : Word) (h : Runs s [] t) (hx : registerExists s.cfg .word a = true)
    (hg : grantedFor 2 s) :
    ∃ w u, writeWordField a bs bc vm t = .ok () u ∧ Runs s [.read .word a w, .write .word a (wordWithField w bs bc vm)] u := by
  obtain ⟨w, u, hread, hu, _⟩ := h.memRead hx fun j hj => hg j (by simp at hj; omega)
  obtain ⟨x, hwrite, hx', _⟩ := Runs.memWrite (t := setW0 w u) (wordWithField w bs bc vm)
    (hu.setWork (w := { u.w with w0 := w }) rfl) hx fun j hj => hg j (by simpa using hj)
  refine ⟨w, x, ?_, hx'⟩
  simp only [Machine.writeWordField, hread, Res.bind]
  exact hwrite

/-- The spanning word read-modify-write. -/
theorem writeSpanField {bs bc : Nat} (vm : Word) (h : Runs s [] t) (hx : registerExists s.cfg .word a = true)
    (hx4 : registerExists s.cfg .word (addrAt a 4) = true) (hg : grantedFor 4 s) :
    ∃ w0 w1 u, writeSpanField a bs bc vm t = .ok () u ∧
      Runs s [.read .word a w0, .read .word (addrAt a 4) w1, .write .word a (spanFirst w0 bs vm),
        .write .word (addrAt a 4) (spanSecond w1 bs bc vm)] u := by
  obtain ⟨w0, u0, hread0, hu0, _⟩ := h.memRead hx fun j hj => hg j (by simp at hj; omega)
  obtain ⟨w1, u1, hread1, hu1, _⟩ := Runs.memRead (t := setW0 w0 u0) (hu0.setWork (w := { u0.w with w0 := w0 }) rfl) hx4
    fun j hj => hg j (by simp at hj; omega)
  obtain ⟨u2, hwrite0, hu2, _⟩ := Runs.memWrite (t := setW1 w1 u1) (spanFirst w0 bs vm)
    (hu1.setWork (w := { u1.w with w1 := w1 }) rfl) hx fun j hj => hg j (by simp at hj; omega)
  obtain ⟨u3, hwrite1, hu3, _⟩ := hu2.memWrite (spanSecond w1 bs bc vm) hx4 fun j hj => hg j (by simp at hj; omega)
  refine ⟨w0, w1, u3, ?_, hu3⟩
  simp only [Machine.writeSpanField, hread0, hread1, hwrite0, Res.bind]
  exact hwrite1

/-- A field write among other agents' acts issues its transactions, whatever its reads return. -/
theorem writeField {bs bc : Nat} (v : Word) (hn : regCount bs bc ≤ 8) (hx : fieldExists s.cfg a bs bc)
    (hg : grantedFor (writeCount s.cfg a bs bc) s) :
    ∃ val u, writeField a bs bc v s = .ok () u ∧ Runs s (writeTxnsOf s.cfg a bs bc v val) u := by
  have hs : ∀ r, Runs s [] (setRegime r s) := fun r => (Runs.nil s).setWork (w := { s.w with regime := r }) rfl
  unfold Machine.writeField
  unfold writeTxnsOf
  unfold writeCount at hg
  cases hr : regimeOf s.cfg a with
  | byte =>
    have hxj := fun j hj => fieldExists_byte (j := j) hx hr hj
    simp only [hr] at hg ⊢
    split
    · next hf =>
      have hx0 := hxj 0 (by simp [regCount, hf])
      rw [addrAt_zero] at hx0
      obtain ⟨u, hwrite, hu, _⟩ := (hs .byte).memWrite (v &&& mask bc) hx0 (by simpa [hf] using hg)
      rw [hf.2, clip_byte_fast] at hu
      exact ⟨fun _ => 0#32, u, hwrite, hu⟩
    · next hf => exact (hs .byte).writeByteField _ hn hxj (by simpa [hf] using hg)
  | word =>
    have hxa := fieldExists_word hx hr
    simp only [hr] at hg ⊢
    split
    · next hsp =>
      simp only [hsp, if_true] at hg
      split
      · next hf =>
        obtain ⟨u, hwrite, hu, _⟩ := (hs .word).memWrite (v &&& mask bc) hxa (by simpa [hf] using hg)
        rw [clip_word, hf.2, word_fast] at hu
        exact ⟨fun _ => 0#32, u, hf.2 ▸ hwrite, hu⟩
      · next hf =>
        obtain ⟨w, u, hwrite, hu⟩ := (hs .word).writeWordField (v &&& mask bc) hxa (by simpa [hf] using hg)
        exact ⟨fun _ => w, u, hwrite, hu⟩
    · next hsp =>
      obtain ⟨w0, w1, u, hwrite, hu⟩ :=
        (hs .word).writeSpanField (v &&& mask bc) hxa (fieldExists_span hx hr hsp) (by simpa [hsp] using hg)
      exact ⟨fun k => if k = 0 then w0 else w1, u, hwrite, hu⟩

end Runs

/-- All that a write command does where no transaction fails and no reset arrives, whatever the other agents do. -/
theorem exec_write_runs {i : Instr} {s : State} {a : Word} {bs bc : Nat} {v : Word}
    (hi : writeOperands i = some (a, bs, bc, v)) (hw : accessReady s a bs bc)
    (hg : grantedFor (writeCount s.cfg a bs bc) s) (hl : answered s) :
    ∃ val u, Runs (beginCommand (touchedBy s.cfg a bs bc) s) (writeTxnsOf s.cfg a bs bc v val) u ∧
      exec i s = .next (respond 0#32 0#32 (dropLate u)) := by
  obtain ⟨he, h1, h32, hx⟩ := hw
  obtain ⟨hexec, h31⟩ := exec_write hi s
  obtain ⟨val, u, hwrite, hu⟩ :=
    Runs.writeField (s := beginCommand (touchedBy s.cfg a bs bc) s) v (regCount_le (by omega) h32) hx hg
  obtain ⟨_, hlate, _⟩ := hu.keeps
  refine ⟨val, u, hu, ?_⟩
  have hend : conclude 0#32 0#32 u = respond 0#32 0#32 (dropLate u) :=
    conclude_answered (by rw [nextLate, hlate]; exact hl) _ _
  rw [hexec, writeCommand_ready he h1 h32, hwrite, ← hend]
  rfl

/-! ## What other agents' acts leave in the registers -/

section congr

variable {m m' : Memory} {q : Regime} {z : Word}

theorem regGet_regSet_congr (h : m.wf) (h' : m'.wf) {r : Regime} {a : Word} (v : Word)
    (hq : regGet m q z = regGet m' q z ∨ (q, z) = (r, a)) :
    regGet (regSet m r a v) q z = regGet (regSet m' r a v) q z := by
  by_cases he : (q, z) = (r, a)
  · obtain ⟨rfl, rfl⟩ := Prod.mk.inj he
    rw [regGet_regSet_same h, regGet_regSet_same h']
  · rw [regGet_regSet_other m r q a z v he, regGet_regSet_other m' r q a z v he]
    exact hq.resolve_right he

/-- Two register spaces that agree on a register agree on it after any event, and after a write of it in any case. -/
theorem regGet_applyTxn_congr (h : m.wf) (h' : m'.wf) (e : Txn)
    (hq : regGet m q z = regGet m' q z ∨ ∃ v, e = .write q z v) :
    regGet (applyTxn m e) q z = regGet (applyTxn m' e) q z := by
  cases e with
  | read _ _ _ => exact hq.resolve_right (by simp)
  | readFailed _ _ _ => exact hq.resolve_right (by simp)
  | writeFailed _ _ _ _ => exact hq.resolve_right (by simp)
  | otherWrite r a v => exact regGet_regSet_congr h h' v (.inl (hq.resolve_right (by simp)))
  | write r a v =>
    refine regGet_regSet_congr h h' v (hq.imp_right fun ⟨w, hw⟩ => ?_)
    obtain ⟨rfl, rfl, _⟩ := Txn.write.inj hw
    rfl

/-- A register that a list of events writes ends with a value that does not depend on what it held. -/
theorem regGet_replay_congr (h : m.wf) (h' : m'.wf) (L : List Txn)
    (hq : regGet m q z = regGet m' q z ∨ ∃ v, .write q z v ∈ L) :
    regGet (replay L m) q z = regGet (replay L m') q z := by
  induction L generalizing m m' with
  | nil => exact hq.resolve_right (by simp)
  | cons e L ih =>
    refine ih (applyTxn_wf h e) (applyTxn_wf h' e) ?_
    obtain hq | ⟨v, hv⟩ := hq
    · exact .inl (regGet_applyTxn_congr h h' e (.inl hq))
    · obtain rfl | hv := List.mem_cons.mp hv
      · exact .inl (regGet_applyTxn_congr h h' _ (.inr ⟨v, rfl⟩))
      · exact .inr ⟨v, hv⟩

end congr

section acts

variable {s : State} {z : Word}

/-- An act of another agent that is no write of a register, or one that `EXCLUSIVE` keeps off, leaves the register. -/
theorem regGet_envAct {e : EnvAct} (r : Regime) (h : ∀ x, e = .write z x → s.cfg.exclusive = true ∧ z ∈ s.w.touched) :
    regGet (envAct s e).mem r z = regGet s.mem r z := by
  cases e with
  | lock =>
    simp only [envAct]
    split <;> rfl
  | write a x =>
    by_cases ha : a = z
    · obtain ⟨hexcl, htouched⟩ := h x (by rw [ha])
      simp [envAct, ha, hexcl, htouched]
    · simp only [envAct]
      have hother : regGet (otherWrite a x s).mem r z = regGet s.mem r z := by
        obtain he | ⟨_, he⟩ := otherWrite_cases a x s <;> rw [he]
        exact regGet_regSet_other _ _ _ _ _ _ fun hp => ha (Prod.mk.inj hp).2.symm
      split
      · rfl
      · exact hother

theorem regGet_foldl_envAct {acts : List EnvAct} (r : Regime)
    (h : ∀ x, .write z x ∈ acts → s.cfg.exclusive = true ∧ z ∈ s.w.touched) :
    regGet (acts.foldl envAct s).mem r z = regGet s.mem r z := by
  induction acts generalizing s with
  | nil => rfl
  | cons e acts ih =>
    rw [List.foldl_cons, ih fun x hx => by simpa using h x (List.mem_cons_of_mem _ hx)]
    exact regGet_envAct r fun x hx => h x (by simp [hx])

theorem regGet_beforeTxn (r : Regime) (h : ∀ x, .write z x ∈ (nextDraw s).acts → s.cfg.exclusive = true ∧ z ∈ s.w.touched) :
    regGet (beforeTxn s).mem r z = regGet s.mem r z :=
  regGet_foldl_envAct (s := dropDraw s) r h

end acts

/-- Under `EXCLUSIVE` a register of the command's footprint ends as the command's own transactions leave it. -/
theorem Runs.regGet_of_exclusive {s t : State} {L : List Txn} (h : Runs s L t) (hwf : s.mem.wf)
    (hexcl : s.cfg.exclusive = true) {z : Word} (hz : z ∈ s.w.touched) (r : Regime) :
    regGet t.mem r z = regGet (replay L s.mem) r z := by
  induction h with
  | nil _ => rfl
  | work hw _ ih => exact ih hwf hexcl (by rw [setWork_w, hw]; exact hz)
  | @txn s _ e L _ _ ih =>
    rw [ih (applyTxn_wf (beforeTxn_wf hwf) e) (by simpa using hexcl) (by simpa using hz), replay_cons]
    refine regGet_replay_congr (applyTxn_wf (beforeTxn_wf hwf) e) (applyTxn_wf hwf e) L (.inl ?_)
    exact regGet_applyTxn_congr (beforeTxn_wf hwf) hwf e (.inl (regGet_beforeTxn r fun _ _ => ⟨hexcl, hz⟩))

/-- The register of a field's bit is one the field's command touches. -/
theorem bitPlace_mem_touchedBy {c : Cfg} {a : Word} {bs bc j : Nat} (hj : j < bc) :
    (bitPlace c a bs j).1 ∈ touchedBy c a bs bc := by
  unfold bitPlace touchedBy
  cases regimeOf c a with
  | byte => exact List.mem_map.mpr ⟨_, List.mem_range.mpr (by unfold regCount; omega), rfl⟩
  | word =>
    simp only
    by_cases hs : bs + bc ≤ 32
    · simp [hs, show bs + j < 32 by omega]
    · by_cases hb : bs + j < 32 <;> simp [hs, hb]

/-- Settles O28: the registers of the field end as the command's own transactions leave them, and those leave the value in
the field whatever its reads returned. -/
theorem exclusiveWriteHolds : Obligations.ExclusiveWriteHolds := by
  intro i s a bs bc v hi hready hwf hexcl hg hl
  obtain ⟨val, u, hruns, hexec⟩ := exec_write_runs hi hready hg hl
  obtain ⟨_, _, h32, _⟩ := hready
  refine ⟨_, hexec, rfl, rfl, fun j hj => ?_⟩
  rw [← write_field_bit (c := s.cfg) (a := a) (val := val) hwf (exec_write hi s).2 h32 hj]
  unfold fieldBit
  exact congrArg (BitVec.getLsbD · _) (hruns.regGet_of_exclusive hwf hexcl (bitPlace_mem_touchedBy hj) _)

/-! ## A write of another agent between read and write-back -/

section footprint

variable {c : Cfg} {a : Word} {bs bc : Nat}

/-- The registers of a field are distinct. -/
theorem touchedBy_nodup (c : Cfg) (a : Word) (hb : bs ≤ 31) (hc : bc ≤ 32) : (touchedBy c a bs bc).Nodup := by
  unfold touchedBy
  cases regimeOf c a with
  | byte =>
    refine List.Nodup.map_on (fun i hi j hj h => ?_) List.nodup_range
    have hn := regCount_le (show bs ≤ 32 by omega) hc
    rw [List.mem_range] at hi hj
    exact addrAt_inj (by omega) (by omega) h
  | word =>
    simp only
    split
    · simp
    · simpa using (addrAt_four_ne a).symm

/-- The registers of a field are those of its reads, in order. -/
theorem touchedBy_getElem {k : Nat} (hk : k < (touchedBy c a bs bc).length) : (touchedBy c a bs bc)[k] = readPlace c a k := by
  revert hk
  unfold touchedBy readPlace
  cases regimeOf c a with
  | byte => simp
  | word =>
    simp only
    split
    · intro hk
      obtain rfl : k = 0 := by simpa using hk
      simp [addrAt_zero]
    · intro hk
      obtain rfl | rfl : k = 0 ∨ k = 1 := by simp at hk; omega
      · simp [addrAt_zero]
      · rfl

theorem touchedBy_length_byte (hr : regimeOf c a = .byte) : (touchedBy c a bs bc).length = regCount bs bc := by
  simp [touchedBy, hr]

theorem touchedBy_length_word (hr : regimeOf c a = .word) :
    (touchedBy c a bs bc).length = if bs + bc ≤ 32 then 1 else 2 := by
  simp only [touchedBy, hr]
  split <;> rfl

/-- A read-modify-write reads every register of the field, then writes every one. -/
theorem writeTxnsOf_reads_then_writes (v : Word) (val : Nat → Word) (hbyte : ¬ (regimeOf c a = .byte ∧ bs = 0 ∧ bc = 8))
    (hword : ¬ (regimeOf c a = .word ∧ bs = 0 ∧ bc = 32)) :
    ∃ new : Nat → Word, writeTxnsOf c a bs bc v val =
      (touchedBy c a bs bc).mapIdx (fun k z => .read (regimeOf c a) z (val k)) ++
        (touchedBy c a bs bc).mapIdx (fun k z => .write (regimeOf c a) z (new k)) := by
  unfold writeTxnsOf touchedBy
  cases hr : regimeOf c a with
  | byte =>
    refine ⟨accByte (accWithField (BitVec.ofNat 64 (leSum val (regCount bs bc))) bs bc (v &&& mask bc)), ?_⟩
    simp only
    rw [if_neg fun hf => hbyte ⟨hr, hf⟩]
    congr 1 <;> exact List.ext_getElem (by simp [readsFrom, writesFrom]) (by simp [readsFrom, writesFrom])
  | word =>
    simp only
    split
    · rw [if_neg fun hf => hword ⟨hr, hf⟩]
      exact ⟨fun _ => wordWithField (val 0) bs bc (v &&& mask bc), rfl⟩
    · exact ⟨fun k => if k = 0 then spanFirst (val 0) bs (v &&& mask bc) else spanSecond (val 1) bs bc (v &&& mask bc), rfl⟩

/-- The transactions of a field write depend only on what its reads return. -/
theorem writeTxnsOf_congr (v : Word) {val val' : Nat → Word}
    (h : ∀ k, k < (touchedBy c a bs bc).length → val k = val' k) :
    writeTxnsOf c a bs bc v val = writeTxnsOf c a bs bc v val' := by
  unfold writeTxnsOf
  cases hr : regimeOf c a with
  | byte =>
    rw [touchedBy_length_byte hr] at h
    have hreads : readsFrom a 0 (regCount bs bc) val = readsFrom a 0 (regCount bs bc) val' :=
      List.map_congr_left fun j hj => by rw [h j (by simp at hj; omega)]
    rw [hreads, leSum_congr h]
  | word =>
    rw [touchedBy_length_word hr] at h
    simp only [h 0 (by split <;> omega)]
    split
    · rfl
    · next hs => rw [h 1 (by rw [if_neg hs]; omega)]

end footprint

/-- With no volatile register, the `k`-th read of a field returns what the field's `k`-th register holds. -/
theorem fieldDrawn_stable {s : State} {a : Word} {bs bc k : Nat} (hst : fieldStable s.cfg a bs bc)
    (hk : k < (touchedBy s.cfg a bs bc).length) :
    fieldDrawn s a k = regGet s.mem (regimeOf s.cfg a) (touchedBy s.cfg a bs bc)[k] := by
  rw [fieldDrawn, ← touchedBy_getElem hk]
  exact drawnAt_stable (hst _ (List.getElem_mem hk))

namespace Runs

variable {s t : State} {L : List Txn}

/-- A read returns what its register held at the start, where neither the command nor another agent has written it since. -/
theorem read_eq (h : Runs s L t) {k : Nat} {r : Regime} {z v : Word} (hk : L[k]? = some (.read r z v))
    (hz : z ∉ s.cfg.volatileAddrs) (hreads : ∀ e ∈ L.take k, ∃ r x w, e = .read r x w)
    (hacts : ∀ i, i ≤ k → ∀ x, .write z x ∉ (Machine.drawAt s i).acts) : v = regGet s.mem r z := by
  induction h generalizing k with
  | nil _ => simp at hk
  | work _ _ ih => exact ih hk hz hreads hacts
  | @txn s _ e L he _ ih =>
    have hkept : regGet (beforeTxn s).mem r z = regGet s.mem r z := regGet_beforeTxn r fun x hx =>
      absurd (drawAt_zero s ▸ hx) (hacts 0 (Nat.zero_le k) x)
    cases k with
    | zero =>
      obtain rfl : e = .read r z v := by simpa using hk
      exact he.trans ((readValue_stable _ (by simpa using hz)).trans hkept)
    | succ k =>
      obtain ⟨q, x, w, rfl⟩ := hreads e (by simp)
      have hdraws : ∀ i, Machine.drawAt (doTxn (.read q x w) (beforeTxn s)) i = Machine.drawAt s (i + 1) :=
        drawAt_of_tail (by simp) (by simp)
      refine (ih (by simpa using hk) (by simpa using hz) (fun e' he' => hreads e' (by simp [he'])) fun i hi => ?_).trans hkept
      rw [hdraws]
      exact hacts (i + 1) (by omega)

/-- Where no other agent acts, the register space and the trace are what the transactions leave. -/
theorem events_of_no_acts (h : Runs s L t) (hacts : ∀ i, i < L.length → (Machine.drawAt s i).acts = []) :
    t.trace = s.trace ++ L ∧ t.mem = replay L s.mem := by
  induction h with
  | nil _ => simp
  | work _ _ ih => exact ih hacts
  | @txn s _ e L _ _ ih =>
    have hbefore : beforeTxn s = dropDraw s := beforeTxn_of_no_acts s (by rw [← drawAt_zero]; exact hacts 0 (by simp))
    obtain ⟨htrace, hmem⟩ := ih fun i hi => by
      rw [drawAt_of_tail (s := s) (by simp) (by simp)]
      exact hacts (i + 1) (by simpa using hi)
    exact ⟨by simp [htrace, hbefore], by simp [hmem, hbefore]⟩

/-- Where another agent acts only once, by a write at one boundary, its write stands between the transactions there. -/
theorem events_of_one_write (h : Runs s L t) {j : Nat} {r : Regime} {y x : Word} (hj : j < L.length)
    (hacts : ∀ i, i < L.length → i ≠ j → (Machine.drawAt s i).acts = []) (hact : (Machine.drawAt s j).acts = [.write y x])
    (hexcl : s.cfg.exclusive = false) (hx : registerExists s.cfg r y = true) :
    t.trace = s.trace ++ (L.take j ++ .otherWrite r y (clip r x) :: L.drop j) ∧
    t.mem = replay (L.take j ++ .otherWrite r y (clip r x) :: L.drop j) s.mem := by
  induction h generalizing j with
  | nil _ => simp at hj
  | work _ _ ih => exact ih hj hacts hact hexcl hx
  | @txn s _ e L _ h ih =>
    have hdraws : ∀ i, Machine.drawAt (doTxn e (beforeTxn s)) i = Machine.drawAt s (i + 1) :=
      drawAt_of_tail (by simp) (by simp)
    cases j with
    | zero =>
      have hbefore : beforeTxn s = doTxn (.otherWrite r y (clip r x)) (dropDraw s) := by
        rw [drawAt_zero] at hact
        simp [beforeTxn, hact, envAct, otherWrite, hexcl, regimeOf_of_exists hx, hx]
      obtain ⟨htrace, hmem⟩ := h.events_of_no_acts fun i hi => by
        rw [hdraws]
        exact hacts (i + 1) (by simpa using hi) (by omega)
      exact ⟨by simp [htrace, hbefore], by simp [hmem, hbefore]⟩
    | succ j =>
      have hbefore : beforeTxn s = dropDraw s :=
        beforeTxn_of_no_acts s (by rw [← drawAt_zero]; exact hacts 0 (by simp) (by omega))
      obtain ⟨htrace, hmem⟩ := ih (by simpa using hj)
        (fun i hi hne => by rw [hdraws]; exact hacts (i + 1) (by simpa using hi) (by omega)) (by rwa [hdraws])
        (by simpa using hexcl) (by simpa using hx)
      exact ⟨by simp [htrace, hbefore], by simp [hmem, hbefore]⟩

end Runs

/-- A write of another agent is lost where a later transaction writes the same register. -/
theorem regGet_replay_otherWrite {m : Memory} (hwf : m.wf) {L L' : List Txn} {r : Regime} {y x w : Word}
    (hw : .write r y w ∈ L') (q : Regime) (z : Word) :
    regGet (replay (L ++ .otherWrite r y x :: L') m) q z = regGet (replay (L ++ L') m) q z := by
  rw [replay_append, replay_append, replay_cons]
  refine regGet_replay_congr (applyTxn_wf (replay_wf hwf L) _) (replay_wf hwf L) L' ?_
  by_cases he : (q, z) = (r, y)
  · obtain ⟨rfl, rfl⟩ := Prod.mk.inj he
    exact .inr ⟨w, hw⟩
  · exact .inl (regGet_regSet_other _ _ _ _ _ _ he)

/-- A read-modify-write among whose transactions another agent writes the field's `m`-th register once, after its read and
not after its write-back. -/
structure Interleaved (s : State) (a : Word) (bs bc m j : Nat) (x y : Word) : Prop where
  ready : accessReady s a bs bc
  wf : s.mem.wf
  stable : fieldStable s.cfg a bs bc
  shared : s.cfg.exclusive = false
  notByteFast : ¬ (regimeOf s.cfg a = .byte ∧ bs = 0 ∧ bc = 8)
  notWordFast : ¬ (regimeOf s.cfg a = .word ∧ bs = 0 ∧ bc = 32)
  place : (touchedBy s.cfg a bs bc)[m]? = some y
  afterRead : m < j
  beforeWrite : j ≤ (touchedBy s.cfg a bs bc).length + m
  clean : ∀ k, k < writeCount s.cfg a bs bc → k ≠ j → (drawAt s k).clean
  acts : (drawAt s j).acts = [.write y x]
  noReset : (drawAt s j).reset = none
  succeeds : (drawAt s j).code = 0#32

namespace Interleaved

variable {s u : State} {a : Word} {bs bc m j : Nat} {x y : Word}

theorem granted (h : Interleaved s a bs bc m j x y) : grantedFor (writeCount s.cfg a bs bc) s := fun k hk => by
  by_cases hj : k = j
  · exact hj ▸ ⟨h.noReset, h.succeeds⟩
  · exact (h.clean k hk hj).2

/-- The reads return what the registers held at the start: the other agent's write comes after the read of its register. -/
theorem txns_eq (h : Interleaved s a bs bc m j x y) (hb : bs ≤ 31) {v : Word} {val : Nat → Word}
    (hruns : Runs (beginCommand (touchedBy s.cfg a bs bc) s) (writeTxnsOf s.cfg a bs bc v val) u) :
    writeTxnsOf s.cfg a bs bc v val = writeTxns s.cfg s.mem a bs bc v := by
  obtain ⟨_, _, h32, _⟩ := h.ready
  rw [← writeTxnsOf_stable v h.stable]
  refine writeTxnsOf_congr v fun k hk => ?_
  rw [fieldDrawn_stable h.stable hk]
  have hlen := writeTxnsOf_length s.cfg a bs bc v val
  obtain ⟨new, hshape⟩ := writeTxnsOf_reads_then_writes v val h.notByteFast h.notWordFast
  rw [hshape] at hruns hlen
  refine hruns.read_eq (k := k) ?_ (h.stable _ (List.getElem_mem hk)) ?_ ?_
  · simp [List.getElem?_append, hk]
  · intro e he
    rw [List.take_append_of_le_length (by simp; omega)] at he
    obtain ⟨i, _, rfl⟩ := List.mem_mapIdx.mp (List.mem_of_mem_take he)
    exact ⟨_, _, _, rfl⟩
  · intro i hi x' hmem
    have hmem : .write (touchedBy s.cfg a bs bc)[k] x' ∈ (drawAt s i).acts := hmem
    by_cases hij : i = j
    · rw [hij, h.acts, List.mem_singleton] at hmem
      obtain ⟨hm, hy⟩ := List.getElem?_eq_some_iff.mp h.place
      have hkm : k = m := (touchedBy_nodup s.cfg a hb h32).getElem_inj_iff.mp ((EnvAct.write.inj hmem).1.trans hy.symm)
      have := h.afterRead
      omega
    · rw [(h.clean i (by simp at hlen; omega) hij).1] at hmem
      simp at hmem

/-- The other agent's register is written back after its write. -/
theorem write_back_mem (h : Interleaved s a bs bc m j x y) (v : Word) :
    j < (writeTxns s.cfg s.mem a bs bc v).length ∧
    ∃ w, .write (regimeOf s.cfg a) y w ∈ (writeTxns s.cfg s.mem a bs bc v).drop j := by
  obtain ⟨hm, hy⟩ := List.getElem?_eq_some_iff.mp h.place
  have hj := h.beforeWrite
  rw [← writeTxnsOf_stable v h.stable]
  obtain ⟨new, hshape⟩ := writeTxnsOf_reads_then_writes v (fieldDrawn s a) h.notByteFast h.notWordFast
  rw [hshape]
  refine ⟨by simp; omega, new m, ?_⟩
  refine List.mem_iff_getElem?.mpr ⟨(touchedBy s.cfg a bs bc).length + m - j, ?_⟩
  rw [List.getElem?_drop, show j + ((touchedBy s.cfg a bs bc).length + m - j) = (touchedBy s.cfg a bs bc).length + m by omega]
  simp [List.getElem?_append, h.place]

/-- The other agent's write is recorded where it comes and lost in every bit. -/
theorem write_lost (h : Interleaved s a bs bc m j x y) {i : Instr} {v : Word} (hi : writeOperands i = some (a, bs, bc, v))
    (hl : answered s) :
    ∃ t, exec i s = .next t ∧ t.rsp0 = 0#32 ∧ t.rsp1 = 0#32 ∧ t.busy = false ∧
      t.trace = s.trace ++ (writeTxns s.cfg s.mem a bs bc v).take j ++
        [.otherWrite (regimeOf s.cfg a) y (clip (regimeOf s.cfg a) x)] ++ (writeTxns s.cfg s.mem a bs bc v).drop j ∧
      ∀ q z, regGet t.mem q z = regGet (replay (writeTxns s.cfg s.mem a bs bc v) s.mem) q z := by
  obtain ⟨_, _, _, hx⟩ := h.ready
  obtain ⟨val, u, hruns, hexec⟩ := exec_write_runs hi h.ready h.granted hl
  rw [h.txns_eq (exec_write hi s).2 hruns] at hruns
  obtain ⟨hj, w, hw⟩ := h.write_back_mem v
  have hy : registerExists s.cfg (regimeOf s.cfg a) y = true := hx y (List.mem_of_getElem? h.place)
  obtain ⟨htrace, hmem⟩ := hruns.events_of_one_write hj
    (fun k hk hne => (h.clean k (by rwa [writeTxns_length] at hk) hne).1) h.acts h.shared hy
  refine ⟨_, hexec, rfl, rfl, rfl, ?_, fun q z => ?_⟩
  · simpa using htrace
  · have hlost := regGet_replay_otherWrite h.wf hw (L := (writeTxns s.cfg s.mem a bs bc v).take j)
      (x := clip (regimeOf s.cfg a) x) q z
    rw [List.take_append_drop] at hlost
    exact (congrArg (regGet · q z) hmem).trans hlost

end Interleaved

/-- Settles O29: the second clause is `Interleaved.write_lost`; the first is its case of one word, where the register's value
is that of the command's own write. -/
theorem interleavedWriteIsLost : Obligations.InterleavedWriteIsLost := by
  refine ⟨?_, ?_⟩
  · intro i s a bs bc v x hi hready hwf hst hexcl hr hs hfast h0 hacts hreset hcode hl
    have hcount : writeCount s.cfg a bs bc = 2 := by simp [writeCount, hr, hs, hfast]
    have hplaces : touchedBy s.cfg a bs bc = [a] := by simp [touchedBy, hr, hs]
    have hinter : Interleaved s a bs bc 0 1 x a :=
      { ready := hready, wf := hwf, stable := hst, shared := hexcl, notByteFast := by simp [hr]
        notWordFast := fun hf => hfast hf.2, place := by simp [hplaces], afterRead := by omega
        beforeWrite := by simp [hplaces]
        clean := fun k hk hne => by
          obtain rfl : k = 0 := by omega
          exact h0
        acts := hacts, noReset := hreset, succeeds := hcode }
    obtain ⟨t, hexec, hrsp, _, _, htrace, hmem⟩ := hinter.write_lost hi hl
    have hvalue := (regGet_writeTxnsOf_word (bs := bs) (bc := bc) (v := v) (val := fieldDrawn s a) hwf hr).1
    rw [writeTxnsOf_stable v hst, if_pos hs, if_neg hfast, fieldDrawn_word hst hr, ← hmem] at hvalue
    refine ⟨t, hexec, hrsp, hvalue, ?_⟩
    rw [htrace, hvalue]
    simp [writeTxns, hr, hs, hfast, readTxn]
  · intro i s a bs bc m j v x y hi hready hwf hst hexcl hbyte hword hplace hmj hj hclean hacts hreset hcode hl
    exact Interleaved.write_lost ⟨hready, hwf, hst, hexcl, hbyte, hword, hplace, hmj, hj, hclean, hacts, hreset, hcode⟩ hi hl

end Sys2Proof.Machine
end

section
/-! SUPPORT. The family 30_encoding.md: the words of an instruction and their fields, decoding as the inverse of encoding up to
the name of the words (log 15), and the requests that decode to no instruction. -/

namespace Sys2Proof

open Laws.Framing

/-! ## The fields of the words -/

theorem bsField_bfCommandWord (op : BitVec 4) (bs : BitVec 5) (bc : BitVec 6) : bsField (bfCommandWord op bs bc) = bs := by
  rw [bsField, bfCommandWord, BitVec.extractLsb'_append_eq_of_le (by decide)]
  exact BitVec.extractLsb'_append_eq_right

theorem bcField_bfCommandWord (op : BitVec 4) (bs : BitVec 5) (bc : BitVec 6) : bcField (bfCommandWord op bs bc) = bc := by
  rw [bcField, bfCommandWord, BitVec.extractLsb'_append_eq_of_le (by decide), BitVec.extractLsb'_append_eq_of_le (by decide)]
  exact BitVec.extractLsb'_append_eq_right

/-- A command word with zero reserved bits is made of its three fields (30_encoding.md R81). -/
theorem bfCommandWord_fields {w : Word} (h : w.extractLsb' 15 17 = 0#17) :
    bfCommandWord (opField w) (bsField w) (bcField w) = w := by
  rw [bfCommandWord, ← h, opField, bsField, bcField, BitVec.extractLsb'_append_extractLsb'_eq_extractLsb' (by rfl),
    BitVec.extractLsb'_append_extractLsb'_eq_extractLsb' (by rfl), BitVec.extractLsb'_append_extractLsb'_eq_extractLsb' (by rfl)]
  exact BitVec.extractLsb'_eq_self

/-- The command word of a PLL_START is the only one with its `OP` and zero reserved bits (30_encoding.md R85). -/
theorem pllCommandWord_fields {w : Word} (hop : opField w = 3#4) (h : w.extractLsb' 4 28 = 0#28) :
    (0#28 ++ 3#4 : Word) = w := by
  rw [← h, ← hop, opField, BitVec.extractLsb'_append_extractLsb'_eq_extractLsb' (by rfl)]
  exact BitVec.extractLsb'_eq_self

/-- The selector word of a PLL_START with zero reserved bits is made of its three selectors (30_encoding.md R86). -/
theorem selectorWord_fields {w : Word} (h : w.extractLsb' 24 8 = 0#8) :
    (0#8 ++ w.extractLsb' 16 8 ++ w.extractLsb' 8 8 ++ w.extractLsb' 0 8 : Word) = w := by
  rw [← h, BitVec.extractLsb'_append_extractLsb'_eq_extractLsb' (by rfl),
    BitVec.extractLsb'_append_extractLsb'_eq_extractLsb' (by rfl), BitVec.extractLsb'_append_extractLsb'_eq_extractLsb' (by rfl)]
  exact BitVec.extractLsb'_eq_self

section selectors

variable (xm src sync : Byte)

theorem selectorWord_reserved : (0#8 ++ sync ++ src ++ xm : Word).extractLsb' 24 8 = 0#8 := by
  rw [BitVec.extractLsb'_append_eq_of_le (by decide), BitVec.extractLsb'_append_eq_of_le (by decide)]
  exact BitVec.extractLsb'_append_eq_left

theorem selectorWord_sync : (0#8 ++ sync ++ src ++ xm : Word).extractLsb' 16 8 = sync := by
  rw [BitVec.extractLsb'_append_eq_of_le (by decide), BitVec.extractLsb'_append_eq_of_le (by decide)]
  exact BitVec.extractLsb'_append_eq_right

theorem selectorWord_src : (0#8 ++ sync ++ src ++ xm : Word).extractLsb' 8 8 = src := by
  rw [BitVec.extractLsb'_append_eq_of_le (by decide)]
  exact BitVec.extractLsb'_append_eq_right

theorem selectorWord_xm : (0#8 ++ sync ++ src ++ xm : Word).extractLsb' 0 8 = xm := BitVec.extractLsb'_append_eq_right

end selectors

/-! ## The names of the words of BF_READ and BF_WRITE -/

theorem wellFormed_bfRead_iff {a : Word} {bs : BitVec 5} {bc : BitVec 6} :
    (Instr.bfRead a bs bc).wellFormed = true ↔ ¬(bs = 0#5 ∧ bc = 8#6) ∧ ¬(bs = 0#5 ∧ bc = 32#6) := by
  simp [Instr.wellFormed, imp_iff_not_or]

theorem wellFormed_bfWrite_iff {a : Word} {bs : BitVec 5} {bc : BitVec 6} {v : Word} :
    (Instr.bfWrite a bs bc v).wellFormed = true ↔
      ¬(bs = 0#5 ∧ bc = 8#6) ∧ ¬(bs = 0#5 ∧ bc = 32#6) ∧ ¬(bc = 1#6 ∧ v = 1#32) ∧ ¬(bc = 1#6 ∧ v = 0#32) := by
  simp [Instr.wellFormed, imp_iff_not_or, and_assoc]

/-- The name of a BF_READ's words is well-formed and has these words. -/
theorem nameRead_spec (a : Word) (bs : BitVec 5) (bc : BitVec 6) :
    encode (nameRead a bs bc) = encode (.bfRead a bs bc) ∧ (nameRead a bs bc).wellFormed = true := by
  unfold nameRead
  split_ifs with h8 h32
  · obtain ⟨rfl, rfl⟩ := h8
    exact ⟨rfl, rfl⟩
  · obtain ⟨rfl, rfl⟩ := h32
    exact ⟨rfl, rfl⟩
  · exact ⟨rfl, wellFormed_bfRead_iff.mpr ⟨h8, h32⟩⟩

/-- The name of a BF_WRITE's words is well-formed and has these words. -/
theorem nameWrite_spec (a : Word) (bs : BitVec 5) (bc : BitVec 6) (v : Word) :
    encode (nameWrite a bs bc v) = encode (.bfWrite a bs bc v) ∧ (nameWrite a bs bc v).wellFormed = true := by
  unfold nameWrite
  split_ifs with h8 h32 hset hclr
  · obtain ⟨rfl, rfl⟩ := h8
    exact ⟨rfl, rfl⟩
  · obtain ⟨rfl, rfl⟩ := h32
    exact ⟨rfl, rfl⟩
  · obtain ⟨rfl, rfl⟩ := hset
    exact ⟨rfl, rfl⟩
  · obtain ⟨rfl, rfl⟩ := hclr
    exact ⟨rfl, rfl⟩
  · exact ⟨rfl, wellFormed_bfWrite_iff.mpr ⟨h8, h32, hset, hclr⟩⟩

theorem nameRead_of_wellFormed {a : Word} {bs : BitVec 5} {bc : BitVec 6}
    (h : (Instr.bfRead a bs bc).wellFormed = true) : nameRead a bs bc = .bfRead a bs bc := by
  obtain ⟨h8, h32⟩ := wellFormed_bfRead_iff.mp h
  rw [nameRead, if_neg h8, if_neg h32]

theorem nameWrite_of_wellFormed {a : Word} {bs : BitVec 5} {bc : BitVec 6} {v : Word}
    (h : (Instr.bfWrite a bs bc v).wellFormed = true) : nameWrite a bs bc v = .bfWrite a bs bc v := by
  obtain ⟨h8, h32, hset, hclr⟩ := wellFormed_bfWrite_iff.mp h
  rw [nameWrite, if_neg h8, if_neg h32, if_neg hset, if_neg hclr]

theorem nameWrite_bset (a : Word) (bs : BitVec 5) : nameWrite a bs 1#6 1#32 = .bset a bs := by simp [nameWrite]

theorem nameWrite_bclr (a : Word) (bs : BitVec 5) : nameWrite a bs 1#6 0#32 = .bclr a bs := by simp [nameWrite]

/-! ## Decoding, case by case -/

section decoding

variable {r : Request} {w0 w1 w2 w3 : Word}

theorem decode_read (hop : opField w0 = 1#4) (h : w0.extractLsb' 15 17 = 0#17) :
    decode ⟨w0, w1, w2, w3⟩ = .instr (nameRead w1 (bsField w0) (bcField w0)) := by
  simp [decode, hop, h]

theorem decode_write (hop : opField w0 = 2#4) (h : w0.extractLsb' 15 17 = 0#17) :
    decode ⟨w0, w1, w2, w3⟩ = .instr (nameWrite w1 (bsField w0) (bcField w0) w2) := by
  simp [decode, hop, h]

theorem decode_pllStart (hop : opField w0 = 3#4) (h0 : w0.extractLsb' 4 28 = 0#28) (h1 : w1.extractLsb' 24 8 = 0#8) :
    decode ⟨w0, w1, w2, w3⟩ =
      .instr (.pllStart (w1.extractLsb' 0 8) (w1.extractLsb' 8 8) (w1.extractLsb' 16 8) w2 w3) := by
  simp [decode, hop, h0, h1]

theorem decode_bitField_reserved (hop : opField r.req0 = 1#4 ∨ opField r.req0 = 2#4)
    (h : r.req0.extractLsb' 15 17 ≠ 0#17) : decode r = .reservedBits := by
  rcases hop with hop | hop <;> simp [decode, hop, h]

theorem decode_pllStart_reserved (hop : opField r.req0 = 3#4)
    (h : r.req0.extractLsb' 4 28 ≠ 0#28 ∨ r.req1.extractLsb' 24 8 ≠ 0#8) : decode r = .reservedBits := by
  simp [decode, hop, not_and_or.mpr h]

theorem decode_illegalOp (h1 : opField r.req0 ≠ 1#4) (h2 : opField r.req0 ≠ 2#4) (h3 : opField r.req0 ≠ 3#4) :
    decode r = .illegalOp := by
  simp [decode, h1, h2, h3]

/-- All the requests that decode to an instruction. -/
theorem decode_instr_cases {i : Instr} (h : decode r = .instr i) :
    (opField r.req0 = 1#4 ∧ r.req0.extractLsb' 15 17 = 0#17 ∧
      i = nameRead r.req1 (bsField r.req0) (bcField r.req0)) ∨
    (opField r.req0 = 2#4 ∧ r.req0.extractLsb' 15 17 = 0#17 ∧
      i = nameWrite r.req1 (bsField r.req0) (bcField r.req0) r.req2) ∨
    (opField r.req0 = 3#4 ∧ r.req0.extractLsb' 4 28 = 0#28 ∧ r.req1.extractLsb' 24 8 = 0#8 ∧
      i = .pllStart (r.req1.extractLsb' 0 8) (r.req1.extractLsb' 8 8) (r.req1.extractLsb' 16 8) r.req2 r.req3) := by
  unfold decode at h
  split_ifs at h with h1 hres h2 hres h3 hres
  · exact .inl ⟨h1, hres, (Decoded.instr.inj h).symm⟩
  · exact .inr (.inl ⟨h2, hres, (Decoded.instr.inj h).symm⟩)
  · exact .inr (.inr ⟨h3, hres.1, hres.2, (Decoded.instr.inj h).symm⟩)

end decoding

/-! ## Decoding after encoding -/

theorem decode_load_bfRead (r : Request) (a : Word) (bs : BitVec 5) (bc : BitVec 6) :
    decode (r.load (encode (.bfRead a bs bc))) = .instr (nameRead a bs bc) := by
  rw [encode, Request.load, decode_read (op_bfCommandWord _ _ _) (reserved_bfCommandWord _ _ _),
    bsField_bfCommandWord, bcField_bfCommandWord]

theorem decode_load_bfWrite (r : Request) (a : Word) (bs : BitVec 5) (bc : BitVec 6) (v : Word) :
    decode (r.load (encode (.bfWrite a bs bc v))) = .instr (nameWrite a bs bc v) := by
  rw [encode, Request.load, decode_write (op_bfCommandWord _ _ _) (reserved_bfCommandWord _ _ _),
    bsField_bfCommandWord, bcField_bfCommandWord]

theorem decode_load_pllStart (r : Request) (xm src sync : Byte) (fin fout : Word) :
    decode (r.load (encode (.pllStart xm src sync fin fout))) = .instr (.pllStart xm src sync fin fout) := by
  rw [encode, Request.load, decode_pllStart (by decide) (by decide) (selectorWord_reserved xm src sync),
    selectorWord_xm, selectorWord_src, selectorWord_sync]

/-- Settles O1: the words decode to their name, which a well-formed instruction is; a pseudo-instruction's words are those of
its expansion. -/
theorem decodeOfEncode : Obligations.DecodeOfEncode := by
  intro i r hwf
  cases i with
  | bfRead a bs bc => rw [decode_load_bfRead, nameRead_of_wellFormed hwf]
  | bfWrite a bs bc v => rw [decode_load_bfWrite, nameWrite_of_wellFormed hwf]
  | pllStart xm src sync fin fout => exact decode_load_pllStart r xm src sync fin fout
  | rd8 a => exact decode_load_bfRead r a 0#5 8#6
  | rd32 a => exact decode_load_bfRead r a 0#5 32#6
  | wr8 a v => exact decode_load_bfWrite r a 0#5 8#6 v
  | wr32 a v => exact decode_load_bfWrite r a 0#5 32#6 v
  | bset a bs => exact (decode_load_bfWrite r a bs 1#6 1#32).trans (by rw [nameWrite_bset])
  | bclr a bs => exact (decode_load_bfWrite r a bs 1#6 0#32).trans (by rw [nameWrite_bclr])

/-- Settles O2: the words are made of the fields that the decoder reads, and the decoder picks their well-formed name. -/
theorem encodeOfDecode : Obligations.EncodeOfDecode := by
  intro i r h
  rcases decode_instr_cases h with ⟨hop, hres, rfl⟩ | ⟨hop, hres, rfl⟩ | ⟨hop, hres0, hres1, rfl⟩
  · obtain ⟨hwords, hwf⟩ := nameRead_spec r.req1 (bsField r.req0) (bcField r.req0)
    rw [hwords, encode, ← hop, bfCommandWord_fields hres]
    exact ⟨rfl, hwf⟩
  · obtain ⟨hwords, hwf⟩ := nameWrite_spec r.req1 (bsField r.req0) (bcField r.req0) r.req2
    rw [hwords, encode, ← hop, bfCommandWord_fields hres]
    exact ⟨rfl, hwf⟩
  · rw [encode, pllCommandWord_fields hop hres0, selectorWord_fields hres1]
    exact ⟨rfl, rfl⟩

/-- Settles O3: the words are computed, and they decode by `decodeOfEncode`. -/
theorem specWordsDecode : Obligations.SpecWordsDecode := by
  refine ⟨by decide, by decide, by decide, by decide, fun r2 r3 => ?_, fun r3 => ?_, fun r3 => ?_, ?_⟩
  · exact decodeOfEncode (.bfRead 0x10#32 4#5 8#6) ⟨0#32, 0#32, r2, r3⟩ rfl
  · exact decodeOfEncode (.bfWrite 0x40001000#32 24#5 16#6 0xBEEF#32) ⟨0#32, 0#32, 0#32, r3⟩ rfl
  · exact decodeOfEncode (.wr32 0x40002000#32 0x12345678#32) ⟨0#32, 0#32, 0#32, r3⟩ rfl
  · exact decodeOfEncode (.pllStart 1#8 2#8 3#8 (BitVec.ofNat 32 12288000) (BitVec.ofNat 32 24576000))
      ⟨0#32, 0#32, 0#32, 0#32⟩ rfl

end Sys2Proof

namespace Sys2Proof.Machine

/-! ## Pseudo-instructions -/

/-- Instructions that read the same field act alike. -/
theorem exec_congr_of_readOperands {i j : Instr} {a : Word} {bs bc : Nat} (hi : readOperands i = some (a, bs, bc))
    (hj : readOperands j = some (a, bs, bc)) (s : State) : exec i s = exec j s :=
  (exec_read hi s).1.trans (exec_read hj s).1.symm

/-- Instructions that write the same value to the same field act alike. -/
theorem exec_congr_of_writeOperands {i j : Instr} {a : Word} {bs bc : Nat} {v : Word}
    (hi : writeOperands i = some (a, bs, bc, v)) (hj : writeOperands j = some (a, bs, bc, v)) (s : State) :
    exec i s = exec j s :=
  (exec_write hi s).1.trans (exec_write hj s).1.symm

/-- Settles O4: a pseudo-instruction has the words and the operands of its expansion. -/
theorem pseudoIsExpansion : Obligations.PseudoIsExpansion := fun _ _ _ s =>
  ⟨⟨rfl, exec_congr_of_readOperands rfl rfl s⟩, ⟨rfl, exec_congr_of_readOperands rfl rfl s⟩,
    ⟨rfl, exec_congr_of_writeOperands rfl rfl s⟩, ⟨rfl, exec_congr_of_writeOperands rfl rfl s⟩,
    ⟨rfl, exec_congr_of_writeOperands rfl rfl s⟩, ⟨rfl, exec_congr_of_writeOperands rfl rfl s⟩⟩

/-! ## Requests that are no instruction -/

section rejected

variable {s : State}

/-- A rejected request's whole effect, where no reset comes before its response. -/
theorem rejectRequest_answered (why : Reason) (hwf : cfgWellFormed s.cfg = true) (hl : answered s) :
    rejectRequest why s = .next { s with
      rsp0 := statusWord (.invalidParam why) 0, rsp1 := 0#32, busy := false, w := Work.idle,
      lateResets := s.lateResets.tail } := by
  have hend : raiseError (.invalidParam why) (beginCommand [] s) =
      respond (statusWord (.invalidParam why) 0) 0#32 (dropLate (beginCommand [] s)) := conclude_answered hl _ _
  rw [rejectRequest, command_wf hwf, endCommand, hend]
  rfl

theorem runRequest_of_illegalOp (h : decode s.req = .illegalOp) : runRequest s = rejectRequest .illegalOp s := by
  simp [runRequest, h]

theorem runRequest_of_reservedBits (h : decode s.req = .reservedBits) : runRequest s = rejectRequest .reservedBits s := by
  simp [runRequest, h]

end rejected

/-- A reserved `OP` is none of the three defined ones (30_encoding.md R88). -/
theorem reservedOp_ne {op : BitVec 4} (h : op = 0#4 ∨ 4 ≤ op.toNat) : op ≠ 1#4 ∧ op ≠ 2#4 ∧ op ≠ 3#4 := by
  refine ⟨?_, ?_, ?_⟩ <;> rintro rfl <;> simp at h

/-- Settles O7: the request decodes to `illegalOp` and is rejected. -/
theorem reservedOpEndsIllegalOp : Obligations.ReservedOpEndsIllegalOp := by
  intro s hwf hl hbusy hop
  obtain ⟨h1, h2, h3⟩ := reservedOp_ne hop
  refine ⟨by simp [requestLength, h1, h2, h3], ?_⟩
  rw [step_of_busy hbusy, runRequest_of_illegalOp (decode_illegalOp h1 h2 h3), rejectRequest_answered _ hwf hl]
  rfl

/-- Settles O8: the request decodes to `reservedBits` and is rejected. -/
theorem reservedBitsEndCommand : Obligations.ReservedBitsEndCommand := by
  intro s hwf hl hbusy hres
  have hdecode : decode s.req = .reservedBits := by
    rcases hres with ⟨hop, h⟩ | ⟨hop, h⟩
    · exact decode_bitField_reserved hop h
    · exact decode_pllStart_reserved hop h
  rw [step_of_busy hbusy, runRequest_of_reservedBits hdecode, rejectRequest_answered _ hwf hl]
  rfl

end Sys2Proof.Machine
end

section
/-! SUPPORT. The family 40_bitfield.md: the results, transactions and frames of the bit-field commands, and that every
command ends. A command whose transactions all succeed is `Done` with a list of transactions (`exec_read_ready`,
`exec_write_ready`); what holds however its transactions end is a predicate that each of them keeps (`Closed`). -/

namespace Sys2Proof.Machine

/-! ## What a command that is done leaves -/

namespace Done

variable {s t : State} {L : List Txn} {v : Word}

theorem rsp0 (h : Done s L v t) : t.rsp0 = 0#32 := by rw [h.eq]
theorem rsp1 (h : Done s L v t) : t.rsp1 = v := by rw [h.eq]
theorem busy (h : Done s L v t) : t.busy = false := by rw [h.eq]
theorem transportBound (h : Done s L v t) : t.transportBound = s.transportBound := by rw [h.eq]
theorem cfg (h : Done s L v t) : t.cfg = s.cfg := by rw [h.eq]
theorem mem (h : Done s L v t) : t.mem = replay L s.mem := by rw [h.eq]
theorem trace (h : Done s L v t) : t.trace = s.trace ++ L := by rw [h.eq]
theorem draws (h : Done s L v t) : t.draws = s.draws.drop L.length := by rw [h.eq]
theorem tail (h : Done s L v t) : t.tail = s.tail := by rw [h.eq]
theorem lateResets (h : Done s L v t) : t.lateResets = s.lateResets.tail := by rw [h.eq]

/-- The draws of the next command are those after the command's own transactions. -/
theorem cleanFor {n : Nat} (h : Done s L v t) (hc : cleanFor (L.length + n) s) : cleanFor n t := by
  intro k hk
  have hdraw : drawAt t k = drawAt s (L.length + k) := by simp [drawAt, h.draws, h.tail]
  rw [hdraw]
  exact hc _ (by omega)

end Done

/-- The reset before the next response is the first of those listed. -/
theorem nextLate_eq_getD (s : State) : nextLate s = s.lateResets.getD 0 none := by
  cases h : s.lateResets <;> simp [nextLate, h]

/-- The reset before the response after a command's is the second of those listed. -/
theorem Done.nextLate {s t : State} {L : List Txn} {v : Word} (h : Done s L v t) :
    nextLate t = s.lateResets.getD 1 none := by
  rw [nextLate_eq_getD, h.lateResets]
  simp

/-! ## What a field read returns -/

/-- What the register of the `k`-th read of a field's command holds. -/
def fieldStored (c : Cfg) (m : Memory) (a : Word) (k : Nat) : Word := regGet m (regimeOf c a) (readPlace c a k)

section stored

variable {c : Cfg} {m : Memory} {a : Word} {bs bc : Nat}

theorem fieldStored_byte (hr : regimeOf c a = .byte) (k : Nat) : fieldStored c m a k = regGet m .byte (addrAt a k) := by
  simp [fieldStored, readPlace, hr]

theorem fieldStored_word (hr : regimeOf c a = .word) : fieldStored c m a 0 = regGet m .word a := by
  simp [fieldStored, readPlace, hr, addrAt_zero]

theorem fieldStored_span (hr : regimeOf c a = .word) : fieldStored c m a 1 = regGet m .word (addrAt a 4) := by
  simp [fieldStored, readPlace, hr]

/-- The value of a field depends only on what its reads return. -/
theorem fieldOf_congr {val val' : Nat → Word} (h : ∀ k, k < (touchedBy c a bs bc).length → val k = val' k) :
    fieldOf c a bs bc val = fieldOf c a bs bc val' := by
  unfold fieldOf
  cases hr : regimeOf c a with
  | byte =>
    rw [touchedBy_length_byte hr] at h
    simp only [leSum_congr h]
  | word =>
    rw [touchedBy_length_word hr] at h
    simp only [h 0 (by split <;> omega)]
    split
    · rfl
    · next hs => rw [h 1 (by rw [if_neg hs]; omega)]

end stored

/-- All that a read command of registers that are not volatile does where its reads succeed with nothing between
them. -/
theorem exec_read_ready {i : Instr} {s : State} {a : Word} {bs bc : Nat} (hi : readOperands i = some (a, bs, bc))
    (hready : readReady s a bs bc) (hc : cleanFor (readCount s.cfg a bs bc) s) (hl : answered s) :
    ∃ t, exec i s = .next t ∧
      Done s (readTxns s.cfg s.mem a bs bc) (fieldOf s.cfg a bs bc (fieldStored s.cfg s.mem a)) t := by
  obtain ⟨he, h1, h32, hx, hst⟩ := hready
  have hdrawn : fieldOf s.cfg a bs bc (fieldDrawn s a) = fieldOf s.cfg a bs bc (fieldStored s.cfg s.mem a) :=
    fieldOf_congr fun k hk => by rw [fieldDrawn_stable hst hk, touchedBy_getElem hk, fieldStored]
  rw [← readTxnsOf_stable hst, ← hdrawn]
  exact exec_read_clean hi he h1 h32 hx hc hl

/-- Settles O9: the value is the field of the accumulator, which holds the bytes as one number. -/
theorem byteReadResult : Obligations.ByteReadResult := by
  intro i s a bs bc hi hready hr hc hl
  obtain ⟨t, ht, hdone⟩ := exec_read_ready hi hready (by simpa [readCount, hr] using hc) hl
  obtain ⟨-, -, h32, -, -⟩ := hready
  have hlt : ∀ j, (fieldStored s.cfg s.mem a j).toNat < 256 := fun j => by
    rw [fieldStored_byte hr, regGet, BitVec.toNat_setWidth]
    omega
  refine ⟨t, ht, hdone.rsp0, ?_, by rw [hdone.trace, readTxns, hr]; rfl⟩
  rw [hdone.rsp1, ← regCount]
  simp only [fieldOf, hr]
  rw [fieldOfAcc_toNat _ _ h32, leSum_toNat _ hlt (regCount_le (by have := (exec_read hi s).2; omega) h32),
    leSum_range s.mem a _ _ fun j _ => fieldStored_byte hr j]

/-- Settles O10: one read, and the field of the word it returns. -/
theorem wordReadResult : Obligations.WordReadResult := by
  intro i s a bs bc hi hready hr hs hc hl
  obtain ⟨t, ht, hdone⟩ := exec_read_ready hi hready (by simpa [readCount, hr, hs] using hc) hl
  obtain ⟨-, -, h32, -, -⟩ := hready
  refine ⟨t, ht, hdone.rsp0, ?_, by simp [hdone.trace, readTxns, readTxn, hr, hs]⟩
  rw [hdone.rsp1]
  simp only [fieldOf, hr, if_pos hs]
  rw [fieldOfWord_toNat _ _ h32, fieldStored_word hr]

/-- Settles O11: two reads, and the join of the words they return under each `SPAN_COMBINE`. -/
theorem spanReadResult : Obligations.SpanReadResult := by
  intro i s a bs bc hi hready hr hs hc hl
  have hs' : ¬ bs + bc ≤ 32 := by omega
  obtain ⟨t, ht, hdone⟩ := exec_read_ready hi hready (by simpa [readCount, hr, hs'] using hc) hl
  obtain ⟨-, -, h32, -, -⟩ := hready
  have hb := (exec_read hi s).2
  have hval : t.rsp1 =
      fieldOfSpan s.cfg.spanCombine (regGet s.mem .word a) (regGet s.mem .word (a + 4#32)) bs bc := by
    rw [hdone.rsp1]
    simp only [fieldOf, hr, if_neg hs', fieldStored_word hr, fieldStored_span hr]
    rfl
  refine ⟨t, ht, hdone.rsp0, fun hm => ?_, fun hm => ?_, by simp [hdone.trace, readTxns, readTxn, hr, hs', addrAt]⟩
  · rw [hval, hm, fieldOfSpan_le_toNat _ _ hb h32 hs]
  · rw [hval, hm, fieldOfSpan_doc_toNat _ _ hb h32 hs]

/-- Settles O15: the value is `fieldOf` of what the field's own registers hold. -/
theorem readDependsOnlyOnItsRegisters : Obligations.ReadDependsOnlyOnItsRegisters := by
  intro i s s' a bs bc hi hready hready' hcfg hc hc' hl hl' hsame
  obtain ⟨t, ht, hdone⟩ := exec_read_ready hi hready hc hl
  obtain ⟨t', ht', hdone'⟩ := exec_read_ready hi hready' (by rwa [hcfg]) hl'
  refine ⟨t, t', ht, ht', hdone'.rsp0.trans hdone.rsp0.symm, ?_⟩
  rw [hdone.rsp1, hdone'.rsp1, hcfg]
  exact fieldOf_congr fun k hk => hsame _ (touchedBy_getElem hk ▸ List.getElem_mem hk)

/-! ## What a field write issues and leaves -/

/-- All that a write command of registers that are not volatile does where its transactions succeed with nothing between
them. -/
theorem exec_write_ready {i : Instr} {s : State} {a : Word} {bs bc : Nat} {v : Word}
    (hi : writeOperands i = some (a, bs, bc, v)) (hready : accessReady s a bs bc) (hst : fieldStable s.cfg a bs bc)
    (hc : cleanFor (writeCount s.cfg a bs bc) s) (hl : answered s) :
    ∃ t, exec i s = .next t ∧ Done s (writeTxns s.cfg s.mem a bs bc v) 0#32 t := by
  rw [← writeTxnsOf_stable v hst]
  exact exec_write_clean hi hready hc hl

/-- Settles O19: what `Done` says of the transactions `writeTxns`. -/
theorem writeTransactions : Obligations.WriteTransactions := by
  intro i s a bs bc v hi hready hst hc hl
  obtain ⟨t, ht, hdone⟩ := exec_write_ready hi hready hst hc hl
  exact ⟨t, ht, hdone.rsp0, hdone.rsp1, hdone.busy, hdone.trace, hdone.mem⟩

/-- Settles O20: the field's bits after the transactions of a field write, whatever its reads returned. -/
theorem writeStoresFieldBits : Obligations.WriteStoresFieldBits := by
  intro i s a bs bc v hi hready hwf hc hl
  obtain ⟨t, ht, hdone⟩ := exec_write_clean hi hready hc hl
  obtain ⟨-, -, h32, -⟩ := hready
  refine ⟨t, ht, hdone.rsp0, hdone.rsp1, fun j hj => ?_⟩
  rw [hdone.mem]
  exact write_field_bit hwf (exec_write hi s).2 h32 hj

/-- Settles O21: the other bits after the transactions of a field write whose reads returned what the registers hold. -/
theorem writeIsNonDestructive : Obligations.WriteIsNonDestructive := by
  intro i s a bs bc v hi hready hwf hst hc hl
  obtain ⟨t, ht, hdone⟩ := exec_write_clean hi hready hc hl
  obtain ⟨-, h1, h32, -⟩ := hready
  refine ⟨t, ht, hdone.rsp0, fun r x k hne => ?_⟩
  rw [hdone.mem]
  refine write_other_bit hwf (exec_write hi s).2 h1 h32 (fun hr j hj => fieldDrawn_byte hst hr hj)
    (fun hr => ⟨fieldDrawn_word hst hr, fieldDrawn_span hst hr⟩) (fun hr j => ?_) hne
  rw [fieldDrawn, hr]
  exact drawnAt_byte_lt _ _ _

/-! ### The word regime -/

/-- What the transactions of a field write leave in the word registers of the field, none of them volatile. -/
theorem regGet_writeTxns_word {s : State} {a : Word} {bs bc : Nat} (v : Word) (hwf : s.mem.wf)
    (hst : fieldStable s.cfg a bs bc) (hr : regimeOf s.cfg a = .word) :
    regGet (replay (writeTxns s.cfg s.mem a bs bc v) s.mem) .word a =
      (if bs + bc ≤ 32 then
        (if bs = 0 ∧ bc = 32 then v else wordWithField (regGet s.mem .word a) bs bc (v &&& mask bc))
        else spanFirst (regGet s.mem .word a) bs (v &&& mask bc)) ∧
    (¬ bs + bc ≤ 32 → regGet (replay (writeTxns s.cfg s.mem a bs bc v) s.mem) .word (addrAt a 4) =
      spanSecond (regGet s.mem .word (addrAt a 4)) bs bc (v &&& mask bc)) := by
  obtain ⟨hfirst, hsecond⟩ :=
    regGet_writeTxnsOf_word (bs := bs) (bc := bc) (v := v) (val := fieldDrawn s a) hwf hr
  rw [writeTxnsOf_stable v hst, fieldDrawn_word hst hr] at hfirst
  rw [writeTxnsOf_stable v hst] at hsecond
  exact ⟨hfirst, fun hs => (hsecond hs).trans (by rw [fieldDrawn_span hst hr hs])⟩

/-- Settles O23: one read, and one write of the word with the field replaced. -/
theorem wordWriteResult : Obligations.WordWriteResult := by
  intro i s a bs bc v hi hready hwf hst hr hs hslow hc hl
  obtain ⟨t, ht, hdone⟩ := exec_write_ready hi hready hst (by simpa [writeCount, hr, hs, hslow] using hc) hl
  have hreg : regGet t.mem .word a = wordWithField (regGet s.mem .word a) bs bc (v &&& mask bc) := by
    rw [hdone.mem, (regGet_writeTxns_word v hwf hst hr).1, if_pos hs, if_neg hslow]
  refine ⟨t, ht, hdone.rsp0, hreg, ?_⟩
  rw [hreg, hdone.trace]
  simp [writeTxns, readTxn, hr, hs, hslow]

/-- Settles O24: two reads, and two writes of the words with their parts of the field replaced. -/
theorem spanWriteResult : Obligations.SpanWriteResult := by
  intro i s a bs bc v hi hready hwf hst hr hs hc hl
  have hs' : ¬ bs + bc ≤ 32 := by omega
  obtain ⟨t, ht, hdone⟩ := exec_write_ready hi hready hst (by simpa [writeCount, hr, hs'] using hc) hl
  obtain ⟨hfirst, hsecond⟩ := regGet_writeTxns_word v hwf hst hr
  have hreg : regGet t.mem .word a = spanFirst (regGet s.mem .word a) bs (v &&& mask bc) := by
    rw [hdone.mem, hfirst, if_neg hs']
  have hreg' : regGet t.mem .word (a + 4#32) = spanSecond (regGet s.mem .word (a + 4#32)) bs bc (v &&& mask bc) := by
    rw [hdone.mem]
    exact hsecond hs'
  refine ⟨t, ht, hdone.rsp0, hreg, hreg', ?_⟩
  rw [hreg, hreg', hdone.trace]
  simp [writeTxns, readTxn, hr, hs', addrAt]

/-! ### The fast paths -/

/-- Replacing all eight bits of the accumulator's first byte gives the value's low byte. -/
theorem accByte_accWithField_full (acc : BitVec 64) (v : Word) :
    accByte (accWithField acc 0 8 (v &&& mask 8)) 0 = v &&& 0xFF#32 := by
  rw [show (0xFF#32 : Word) = mask 8 by decide]
  refine BitVec.eq_of_getLsbD_eq fun k _ => ?_
  rw [accByte_getLsbD, accWithField_getLsbD _ (by decide) (by decide), BitVec.getLsbD_and, mask_getLsbD (by decide)]
  by_cases hk : k < 8 <;> simp [hk]

/-- Replacing all bits of a word gives the value. -/
theorem wordWithField_full (w v : Word) : wordWithField w 0 32 (v &&& mask 32) = v := by
  refine BitVec.eq_of_getLsbD_eq fun k hk => ?_
  rw [wordWithField_getLsbD _ _ (by decide)]
  simp [hk]

theorem touchedBy_fast_byte {c : Cfg} {a : Word} (hr : regimeOf c a = .byte) : touchedBy c a 0 8 = [a] := by
  simp [touchedBy, hr, regCount, addrAt_zero]

theorem touchedBy_fast_word {c : Cfg} {a : Word} (hr : regimeOf c a = .word) : touchedBy c a 0 32 = [a] := by
  simp [touchedBy, hr]

section fast

variable {s : State} {a : Word}

/-- A field of one whole register, which exists and is not volatile, written by one transaction. -/
theorem writeField_fast_script {bs bc : Nat} {e : Txn} (v : Word) (hn : regCount bs bc ≤ 8)
    (htouch : touchedBy s.cfg a bs bc = [a]) (hx : registerExists s.cfg (regimeOf s.cfg a) a = true)
    (hv : a ∉ s.cfg.volatileAddrs) (hL : writeTxns s.cfg s.mem a bs bc v = [e]) :
    Script (writeField a bs bc v s) s [e] (fun _ _ => True) := by
  rw [← hL, ← writeTxnsOf_stable v (by simpa [fieldStable, htouch] using hv)]
  exact writeField_script a bs bc v s hn (by simpa [fieldExists, htouch] using hx)

/-- The read-modify-write of a whole byte register that is not volatile. -/
theorem writeByteField_full_script (v : Word) (hx : registerExists s.cfg .byte a = true)
    (hv : a ∉ s.cfg.volatileAddrs) :
    Script (writeByteField a 0 8 (v &&& mask 8) s) s
      [.read .byte a (regGet s.mem .byte a), .write .byte a (v &&& 0xFF#32)] (fun _ _ => True) := by
  have hs := writeByteField_script a 0 8 (v &&& mask 8) s (by decide)
    (fun j hj => by
      obtain rfl : j = 0 := by simp [regCount] at hj; omega
      rwa [addrAt_zero])
    (fun j => drawnAt s j .byte (addrAt a j)) (fun _ => rfl)
  simpa [readsFrom, writesFrom, regCount, addrAt_zero, drawnAt_stable hv, accByte_accWithField_full] using hs

/-- The read-modify-write of a whole word register that is not volatile. -/
theorem writeWordField_full_script (v : Word) (hx : registerExists s.cfg .word a = true)
    (hv : a ∉ s.cfg.volatileAddrs) :
    Script (writeWordField a 0 32 (v &&& mask 32) s) s
      [.read .word a (regGet s.mem .word a), .write .word a v] (fun _ _ => True) := by
  have hs := writeWordField_script a 0 32 (v &&& mask 32) s hx
  rwa [drawnValue_stable hv, wordWithField_full] at hs

/-- A write and a read followed by the same write leave the same register space. -/
theorem Script.same_mem {x y : Res Unit} {r : Regime} {b w val : Word}
    (hx : Script x s [.write r a w] (fun _ _ => True)) (hy : Script y s [.read r b val, .write r a w] (fun _ _ => True))
    (hc : cleanFor 2 s) :
    ∃ t u, x = .ok () t ∧ y = .ok () u ∧ t.mem = u.mem ∧ t.trace = s.trace ++ [.write r a w] ∧
      u.trace = s.trace ++ [.read r b val, .write r a w] := by
  obtain ⟨_, t, ht, hran, _⟩ := hx.clean (cleanFor_mono hc (by simp))
  obtain ⟨_, u, hu, hran', _⟩ := hy.clean hc
  exact ⟨t, u, ht, hu, by rw [hran.mem, hran'.mem]; rfl, hran.trace, hran'.trace⟩

end fast

/-- Settles O22: the two paths end with the same write, and the read before it leaves the register space. -/
theorem fastPathEqualsReadModifyWrite : Obligations.FastPathEqualsReadModifyWrite := by
  intro s a v _ hv hc
  refine ⟨fun hx => ?_, fun hx => ?_⟩
  · have hr := regimeOf_of_exists hx
    have hfast := writeField_fast_script (bs := 0) (bc := 8) (e := .write .byte a (v &&& 0xFF#32)) v (by decide)
      (touchedBy_fast_byte hr) (hr ▸ hx) hv (by simp [writeTxns, hr])
    exact hfast.same_mem (writeByteField_full_script v hx hv) hc
  · have hr := regimeOf_of_exists hx
    have hfast := writeField_fast_script (bs := 0) (bc := 32) (e := .write .word a v) v (by decide)
      (touchedBy_fast_word hr) (hr ▸ hx) hv (by simp [writeTxns, hr])
    exact hfast.same_mem (writeWordField_full_script v hx hv) hc

/-! ## Counts, and a read after a write -/

/-- Settles O25: the lengths of the lists of transactions. -/
theorem transactionCounts : Obligations.TransactionCounts := by
  constructor
  · rintro i s a bs bc hi ⟨he, h1, h32, hx⟩ hc hl
    obtain ⟨t, ht, hdone⟩ := exec_read_clean hi he h1 h32 hx hc hl
    rw [← readTxnsOf_length s.cfg a bs bc (fieldDrawn s a)]
    exact ⟨t, ht, hdone.rsp0, by rw [hdone.trace, List.length_append], hdone.draws⟩
  · intro i s a bs bc v hi hready hc hl
    obtain ⟨t, ht, hdone⟩ := exec_write_clean hi hready hc hl
    rw [← writeTxnsOf_length s.cfg a bs bc v (fieldDrawn s a)]
    exact ⟨t, ht, hdone.rsp0, by rw [hdone.trace, List.length_append], hdone.draws⟩

/-- Settles O26: the write leaves the value's bits in the field, the read returns the field's bits. -/
theorem writeThenReadReturnsValue : Obligations.WriteThenReadReturnsValue := by
  intro s a bs bc v hready hwf hst hle hv hc hl hl'
  obtain ⟨t, ht, hdone⟩ := exec_write_clean (i := .bfWrite a bs bc v) rfl hready (cleanFor_mono hc (by omega))
    ((nextLate_eq_getD s).trans hl)
  obtain ⟨⟨hcw, htr⟩, h1, h32, hx⟩ := hready
  have hready' : readReady t a bs.toNat bc.toNat := by
    simp only [readReady, engineReady, hdone.cfg, hdone.transportBound]
    exact ⟨⟨hcw, htr⟩, h1, h32, hx, hst⟩
  have hc' : cleanFor (readCount t.cfg a bs.toNat bc.toNat) t :=
    hdone.cleanFor (by rw [writeTxnsOf_length, hdone.cfg]; exact hc)
  obtain ⟨u, hu, hok, hbits⟩ := readReturnsFieldBits (.bfRead a bs bc) t a bs.toNat bc.toNat rfl hready'
    (fun _ _ => by rw [hdone.cfg]; exact hle) hc' (hdone.nextLate.trans hl')
  refine ⟨t, u, ht, hdone.rsp0, hu, hok, BitVec.eq_of_getLsbD_eq fun j _ => ?_⟩
  rw [hbits, hdone.cfg, hdone.mem]
  by_cases hj : j < bc.toNat
  · rw [write_field_bit hwf (by omega) h32 hj]
    simp [hj]
  · have hlt : v.toNat < 2 ^ j := lt_of_lt_of_le hv (Nat.pow_le_pow_right (by omega) (by omega))
    simp [hj, ← BitVec.testBit_toNat, Nat.testBit_lt_two_pow hlt]

/-! ## A write that fails -/

/-- Settles O30: the command stops at its `k`-th transaction, those before it in effect. -/
theorem writeFailsAtTransaction : Obligations.WriteFailsAtTransaction := by
  rintro i s a bs bc k v hi hready hst hk hc hl ⟨hacts, hreset⟩ hcode
  have hstop := exec_write_stop hi hready hk hc hacts fun _ => hcode
  simp only [writeTxnsOf_stable v hst] at hstop
  have hlen : k < (writeTxns s.cfg s.mem a bs bc v).length := by rwa [writeTxns_length]
  have htake : ((writeTxns s.cfg s.mem a bs bc v).take k).length = k := by
    rw [List.length_take]
    omega
  refine ⟨_, hstop, ?_⟩
  rw [stopped_of_failure hl (by rwa [htake]), htake]
  exact ⟨statusWord_transportError_zero _, rfl, rfl, by simp [hlen], rfl⟩

/-! ## Commands that only read -/

/-- Since `s` the engine has issued no write, and the register space is what the events recorded since then leave. -/
def OnlyReads (s u : State) : Prop :=
  ∃ evs, u.trace = s.trace ++ evs ∧ u.mem = replay evs s.mem ∧ ∀ e ∈ evs, e.isEngineWrite = false

section onlyReads

variable {s t u : State}

theorem OnlyReads.congr (h : OnlyReads s u) (htrace : t.trace = u.trace) (hmem : t.mem = u.mem) : OnlyReads s t := by
  unfold OnlyReads
  rwa [htrace, hmem]

theorem OnlyReads.doTxn (h : OnlyReads s u) {e : Txn} (he : e.isEngineWrite = false) : OnlyReads s (doTxn e u) := by
  obtain ⟨evs, htrace, hmem, hevs⟩ := h
  refine ⟨evs ++ [e], by simp [htrace], by simp [hmem, replay_append], fun e' he' => ?_⟩
  rcases List.mem_append.mp he' with he' | he'
  · exact hevs e' he'
  · rwa [List.mem_singleton.mp he']

/-- The other agents' writes are none of the engine's. -/
theorem OnlyReads.beforeTxn (h : OnlyReads s u) : OnlyReads s (beforeTxn u) := by
  refine foldl_envAct (P := OnlyReads s) (fun v e hv => ?_) _ _ (h.congr rfl rfl)
  rcases envAct_cases v e with he | ⟨r, a, x, _, he, _⟩ | ⟨_, he⟩ <;> rw [he]
  · exact hv
  · exact hv.doTxn rfl
  · exact hv.congr rfl rfl

/-- Every transaction of an engine that writes no register keeps `OnlyReads`. -/
theorem onlyReads_closed (s : State) : Closed (fun _ _ => True) (fun _ _ => False) (OnlyReads s) where
  before _ h := h.beforeTxn
  read _ r a v _ _ h := h.doTxn (e := .read r a v) rfl
  readFailed _ r a code _ _ h := h.doTxn (e := .readFailed r a code) rfl
  write _ _ _ _ hA _ _ := hA.elim
  writeFailed _ _ _ _ _ hA _ _ := hA.elim
  work _ _ h := h.congr rfl rfl

end onlyReads

/-- Settles O13: a read command keeps `OnlyReads` up to its end, and the end is no event. -/
theorem readCommandsIssueNoWrite : Obligations.ReadCommandsIssueNoWrite := by
  intro i s t a bs bc hi ht
  rw [(exec_read hi s).1] at ht
  have hend : Ended (OnlyReads s) t :=
    readCommand_post (onlyReads_closed s) a bs bc (fun _ _ => trivial) ⟨[], by simp⟩ ht
  show OnlyReads s t
  obtain ⟨u, hu, ⟨_, _, _, rfl⟩ | ⟨_, _, rfl⟩⟩ := hend.concluded_or_reset
  · exact hu.congr (by simp) (by simp)
  · exact hu.beforeTxn.congr rfl rfl

/-! ## Frames -/

theorem noResetComing_of_undisturbed {s : State} (h : undisturbed s) : noResetComing s := by
  obtain ⟨⟨_, htail⟩, hdraws, hlate⟩ := h
  exact ⟨htail, fun d hd => (hdraws d hd).2, hlate⟩

/-- `u` comes after `s` in a run that nothing disturbs: the register space is one that `Q` allows, and the engine's
inputs, the PLL's state and the host's pending actions are those of `s`. -/
structure Framed (Q : Memory → Prop) (s u : State) : Prop where
  undisturbed : undisturbed u
  mem : Q u.mem
  req : u.req = s.req
  transportBound : u.transportBound = s.transportBound
  cfg : u.cfg = s.cfg
  pllState : u.pllState = s.pllState
  host : u.host = s.host

section framed

variable {Q : Memory → Prop} {s t u : State}

/-- `Framed` looks neither at the working state nor at the trace. -/
theorem Framed.logTxn (h : Framed Q s u) (e : Txn) : Framed Q s (logTxn e u) :=
  ⟨h.undisturbed, h.mem, h.req, h.transportBound, h.cfg, h.pllState, h.host⟩

/-- Every transaction keeps `Framed`, where `Q` is kept by a write of the registers that the engine writes. -/
theorem framed_closed {B A : Regime → Word → Prop} (hQ : ∀ m r a v, A r a → Q m → Q (regSet m r a v)) :
    Closed B A (Framed Q s) where
  before u h := by
    rw [beforeTxn_of_no_acts u (undisturbed_next h.undisturbed).1]
    exact ⟨undisturbed_of_tail h.undisturbed rfl rfl rfl, h.mem, h.req, h.transportBound, h.cfg, h.pllState, h.host⟩
  read _ _ _ _ _ _ h := h.logTxn _
  readFailed _ _ _ _ _ _ h := h.logTxn _
  write _ r a v hA _ h :=
    ⟨h.undisturbed, hQ _ r a (clip r v) hA h.mem, h.req, h.transportBound, h.cfg, h.pllState, h.host⟩
  writeFailed _ _ _ _ _ _ _ h := h.logTxn _
  work _ _ h := ⟨h.undisturbed, h.mem, h.req, h.transportBound, h.cfg, h.pllState, h.host⟩

theorem Framed.begin (hs : Machine.undisturbed s) (hQ : Q s.mem) (l : List Word) : Framed Q s (beginCommand l s) :=
  ⟨hs, hQ, rfl, rfl, rfl, rfl, rfl⟩

/-- A command that nothing disturbs ends in its response, which is outside the frame. -/
theorem Ended.framed (h : Ended (Framed Q s) t) :
    Q t.mem ∧ t.req = s.req ∧ t.transportBound = s.transportBound ∧ t.cfg = s.cfg ∧ t.pllState = s.pllState ∧
      t.host = s.host := by
  obtain ⟨u, hu, ⟨a, b, _, rfl⟩ | ⟨req, hr, rfl⟩⟩ := h.concluded_or_reset
  · rw [conclude_answered (nextLate_of_noResetComing (noResetComing_of_undisturbed hu.undisturbed))]
    exact ⟨hu.mem, hu.req, hu.transportBound, hu.cfg, hu.pllState, hu.host⟩
  · simp [(undisturbed_next hu.undisturbed).2] at hr

end framed

/-- Settles O14: the engine writes no register, so the register space itself stays. -/
theorem readCommandsFrame : Obligations.ReadCommandsFrame := by
  intro i s t a bs bc hi hs ht
  rw [(exec_read hi s).1] at ht
  have hend : Ended (Framed (· = s.mem) s) t :=
    readCommand_post (B := fun _ _ => True) (A := fun _ _ => False) (framed_closed fun _ _ _ _ hA _ => hA.elim) a bs bc
      (fun _ _ => trivial) (Framed.begin (Q := (· = s.mem)) hs rfl _) ht
  obtain ⟨hmem, hframe⟩ := hend.framed
  exact ⟨fun r x => by rw [hmem], hmem, hframe⟩

/-- The register spaces that agree with `m` outside the registers of a field. -/
def AgreesOutside (c : Cfg) (a : Word) (bs bc : Nat) (m m' : Memory) : Prop :=
  ∀ r x, (r, x) ∉ (touchedBy c a bs bc).map (fun y => (regimeOf c a, y)) → regGet m' r x = regGet m r x

/-- Settles O27: the engine writes only registers of the field, so every other one stays. -/
theorem writeCommandsFrame : Obligations.WriteCommandsFrame := by
  intro i s t a bs bc v hi hs ht
  rw [(exec_write hi s).1] at ht
  have hfield : ∀ y ∈ touchedBy s.cfg a bs bc,
      (regimeOf s.cfg a, y) ∈ (touchedBy s.cfg a bs bc).map (fun y => (regimeOf s.cfg a, y)) :=
    fun y hy => List.mem_map.mpr ⟨y, hy, rfl⟩
  have hclosed : Closed (fun _ _ => True)
      (fun r x => (r, x) ∈ (touchedBy s.cfg a bs bc).map (fun y => (regimeOf s.cfg a, y)))
      (Framed (AgreesOutside s.cfg a bs bc s.mem) s) :=
    framed_closed fun m r x w hA hm q z hz =>
      (regGet_regSet_other m r q x z w fun he => hz (he ▸ hA)).trans (hm q z hz)
  have hend : Ended (Framed (AgreesOutside s.cfg a bs bc s.mem) s) t :=
    writeCommand_post hclosed a bs bc v (fun _ _ => trivial) hfield (Framed.begin hs (fun _ _ _ => rfl) _) ht
  exact hend.framed

/-! ## Every command ends -/

/-- This part of a command ends in no fault, and where it ends with a value the configuration is `c`. -/
def Res.Faultless {α : Type} (c : Cfg) : Res α → Prop
  | .ok _ s => s.cfg = c
  | .raise _ _ => True
  | .abandoned _ => True
  | .fault _ => False

section faultless

variable {c : Cfg} {s : State} {a : Word} {bs bc : Nat}

theorem Res.Faultless.bind {α β : Type} {x : Res α} {f : α → State → Res β} (hx : x.Faultless c)
    (hf : ∀ v t, t.cfg = c → (f v t).Faultless c) : (x.bind f).Faultless c := by
  cases x with
  | ok v t => exact hf v t hx
  | raise e t => trivial
  | abandoned t => trivial
  | fault g => exact hx.elim

/-- A transaction of a register that exists is issued or abandoned. -/
theorem issue_faultless {r : Regime} (hs : s.cfg = c) (hx : registerExists c r a = true) :
    (issue r a s).Faultless c := by
  rcases issue_cases r a s with ⟨f, _, hf, hi⟩ | ⟨req, _, hi⟩ | ⟨_, _, hi⟩
  · have hnone : issueFault r a (beforeTxn s) = none := issueFault_none.mpr (by simpa [hs] using hx)
    simp [hnone] at hf
  · rw [hi]
    trivial
  · rw [hi]
    exact (beforeTxn_cfg s).trans hs

theorem memRead_faultless {r : Regime} (hs : s.cfg = c) (hx : registerExists c r a = true) :
    (memRead r a s).Faultless c :=
  (issue_faultless hs hx).bind fun d t ht => by
    by_cases hd : d.code = 0#32 <;> simp [hd, Res.Faultless, ht]

theorem memWrite_faultless {r : Regime} (v : Word) (hs : s.cfg = c) (hx : registerExists c r a = true) :
    (memWrite r a v s).Faultless c :=
  (issue_faultless hs hx).bind fun d t ht => by
    by_cases hd : d.code = 0#32 <;> simp [hd, Res.Faultless, ht]

theorem readBytes_faultless {i k : Nat} (hs : s.cfg = c)
    (hx : ∀ j, j < i + k → registerExists c .byte (addrAt a j) = true) : (readBytes a i k s).Faultless c := by
  induction k generalizing i s with
  | zero => exact hs
  | succ k ih =>
    exact Res.Faultless.bind (memRead_faultless hs (hx i (by omega))) fun _ _ ht => ih ht fun j hj => hx j (by omega)

theorem writeBytes_faultless {i k : Nat} (hs : s.cfg = c)
    (hx : ∀ j, j < i + k → registerExists c .byte (addrAt a j) = true) : (writeBytes a i k s).Faultless c := by
  induction k generalizing i s with
  | zero => exact hs
  | succ k ih =>
    exact Res.Faultless.bind (memWrite_faultless _ hs (hx i (by omega))) fun _ _ ht => ih ht fun j hj => hx j (by omega)

/-- A read of a field whose registers exist. -/
theorem readField_faultless (hs : s.cfg = c) (hx : fieldExists c a bs bc) : (readField a bs bc s).Faultless c := by
  unfold readField
  rw [hs]
  split
  · next hr =>
    refine Res.Faultless.bind (readBytes_faultless hs fun j hj => ?_) fun _ _ ht => ht
    exact fieldExists_byte hx hr (by omega)
  · next hr =>
    have hxa := fieldExists_word hx hr
    split
    · exact Res.Faultless.bind (memRead_faultless hs hxa) fun _ _ ht => ht
    · next hsp =>
      refine Res.Faultless.bind (memRead_faultless hs hxa) fun w0 t ht => ?_
      exact Res.Faultless.bind (memRead_faultless ht (fieldExists_span hx hr hsp)) fun _ _ hu => hu

/-- A write of a field whose registers exist. -/
theorem writeField_faultless (v : Word) (hs : s.cfg = c) (hx : fieldExists c a bs bc) :
    (writeField a bs bc v s).Faultless c := by
  unfold writeField
  rw [hs]
  split
  · next hr =>
    have hbytes : ∀ j, j < 0 + regCount bs bc → registerExists c .byte (addrAt a j) = true :=
      fun j hj => fieldExists_byte hx hr (by omega)
    split
    · next hf =>
      have hxa := hbytes 0 (by simp [regCount, hf])
      rw [addrAt_zero] at hxa
      exact memWrite_faultless _ hs hxa
    · exact Res.Faultless.bind (readBytes_faultless hs hbytes) fun _ _ ht => writeBytes_faultless ht hbytes
  · next hr =>
    have hxa := fieldExists_word hx hr
    split
    · split
      · exact memWrite_faultless _ hs hxa
      · exact Res.Faultless.bind (memRead_faultless hs hxa) fun _ _ ht => memWrite_faultless _ ht hxa
    · next hsp =>
      have hxb := fieldExists_span hx hr hsp
      refine Res.Faultless.bind (memRead_faultless hs hxa) fun w0 t ht => ?_
      refine Res.Faultless.bind (memRead_faultless ht hxb) fun w1 u hu => ?_
      exact Res.Faultless.bind (memWrite_faultless _ hu hxa) fun _ _ hy => memWrite_faultless _ hy hxb

theorem runSteps_faultless {steps : List (Fin 15 × Descriptor × Word)} (hs : s.cfg = c)
    (hx : ∀ x ∈ steps, fieldExists c x.2.1.addr x.2.1.bs x.2.1.bc) : (runSteps steps s).Faultless c := by
  induction steps generalizing s with
  | nil => exact hs
  | cons x rest ih =>
    exact Res.Faultless.bind (writeField_faultless _ hs (hx x (by simp))) fun _ _ ht =>
      ih ht fun y hy => hx y (by simp [hy])

/-- The search and the sequence, where the registers of every step exist. -/
theorem solveAndStart_faultless {xm src sync : Byte} {fin fout : Word} (hs : s.cfg = c)
    (hx : ∀ k, ∀ x ∈ startupSteps c xm src sync fout k, fieldExists c x.2.1.addr x.2.1.bs x.2.1.bc) :
    (solveAndStart xm src sync fin fout s).Faultless c := by
  unfold solveAndStart
  simp only
  split
  · trivial
  · next k _ =>
    rw [hs]
    exact Res.Faultless.bind (runSteps_faultless hs (hx k)) fun _ _ ht => ht

/-! ### The checks -/

theorem withTransport_faultless {body : State → Res Word} (h : (body s).Faultless c) :
    (withTransport body s).Faultless c := by
  unfold withTransport
  split
  · exact h
  · trivial

theorem withBitCount_faultless {body : State → Res Word} (h : (body s).Faultless c) :
    (withBitCount bc body s).Faultless c := by
  unfold withBitCount
  split
  · trivial
  · exact h

theorem withFrequencies_faultless {body : State → Res Word} {fin fout : Word} (h : (body s).Faultless c) :
    (withFrequencies fin fout body s).Faultless c := by
  unfold withFrequencies
  split
  · split
    · trivial
    · exact h
  · trivial

/-- A command that ends in no fault answers a next state. -/
theorem command_answers {touched : List Word} {body : State → Res Word} (hwf : cfgWellFormed s.cfg = true)
    (h : (body (beginCommand touched s)).Faultless c) : ∃ t, command touched body s = .next t := by
  rw [command_wf hwf]
  cases hx : body (beginCommand touched s) with
  | ok v t => exact ⟨_, rfl⟩
  | raise e t => exact ⟨_, rfl⟩
  | abandoned t => exact ⟨_, rfl⟩
  | fault f =>
    rw [hx] at h
    exact h.elim

theorem readCommand_answers (hwf : cfgWellFormed s.cfg = true) (hx : fieldExists s.cfg a bs bc) :
    ∃ t, readCommand a bs bc s = .next t :=
  command_answers hwf (withTransport_faultless (withBitCount_faultless (readField_faultless rfl hx)))

theorem writeCommand_answers {v : Word} (hwf : cfgWellFormed s.cfg = true) (hx : fieldExists s.cfg a bs bc) :
    ∃ t, writeCommand a bs bc v s = .next t :=
  command_answers hwf (withTransport_faultless (withBitCount_faultless
    (Res.Faultless.bind (writeField_faultless v rfl hx) fun _ _ ht => ht)))

/-- The registers of a PLL_START are those of its steps' fields. -/
theorem fieldExists_of_step {xm src sync : Byte} {fin fout : Word} {k : PllConfig} {x : Fin 15 × Descriptor × Word}
    (hx : instrExists c (.pllStart xm src sync fin fout)) (hm : x ∈ startupSteps c xm src sync fout k) :
    fieldExists c x.2.1.addr x.2.1.bs x.2.1.bc := fun y hy =>
  hx (_, y) (List.mem_flatMap.mpr ⟨x.2.1, startupSteps_descriptor hm, List.mem_map.mpr ⟨y, hy, rfl⟩⟩)

theorem execPllStart_answers {xm src sync : Byte} {fin fout : Word} (hwf : cfgWellFormed s.cfg = true)
    (hx : instrExists s.cfg (.pllStart xm src sync fin fout)) : ∃ t, execPllStart xm src sync fin fout s = .next t :=
  command_answers hwf (withTransport_faultless (withFrequencies_faultless
    (solveAndStart_faultless rfl fun _ _ hm => fieldExists_of_step hx hm)))

/-- An instruction whose registers exist answers a next state. -/
theorem exec_answers {i : Instr} (hwf : cfgWellFormed s.cfg = true) (hx : instrExists s.cfg i) :
    ∃ t, exec i s = .next t := by
  have field : ∀ {a : Word} {bs bc : Nat},
      (∀ x ∈ (touchedBy s.cfg a bs bc).map (regimeOf s.cfg a, ·), registerExists s.cfg x.1 x.2 = true) →
      fieldExists s.cfg a bs bc := fun h y hy => h _ (List.mem_map.mpr ⟨y, hy, rfl⟩)
  cases i with
  | bfRead a bs bc => exact readCommand_answers hwf (field hx)
  | rd8 a => exact readCommand_answers hwf (field hx)
  | rd32 a => exact readCommand_answers hwf (field hx)
  | bfWrite a bs bc v => exact writeCommand_answers hwf (field hx)
  | wr8 a v => exact writeCommand_answers hwf (field hx)
  | wr32 a v => exact writeCommand_answers hwf (field hx)
  | bset a bs => exact writeCommand_answers hwf (field hx)
  | bclr a bs => exact writeCommand_answers hwf (field hx)
  | pllStart xm src sync fin fout => exact execPllStart_answers hwf hx

end faultless

/-- No transaction changes the configuration. -/
theorem cfg_closed (B A : Regime → Word → Prop) (c : Cfg) : Closed B A (fun u => u.cfg = c) where
  before u h := (beforeTxn_cfg u).trans h
  read _ _ _ _ _ _ h := h
  readFailed _ _ _ _ _ _ h := h
  write _ _ _ _ _ _ h := h
  writeFailed _ _ _ _ _ _ _ h := h
  work _ _ h := h

/-- Settles O38: the command answers a next state since it cannot fault, and every command's end leaves the engine
idle. -/
theorem everyCommandEnds : Obligations.EveryCommandEnds := by
  intro i s hwf hx
  obtain ⟨t, ht⟩ := exec_answers hwf hx
  have hend : Ended (fun u => u.cfg = s.cfg) t :=
    exec_post i (cfg_closed _ _ s.cfg) (fun _ h => h) (fun _ _ _ h => h) (fun _ => rfl) ht
  obtain ⟨hbusy, hw, _⟩ := hend.idle
  exact ⟨t, ht, hbusy, hw⟩

/-! ## A bit count out of range -/

/-- A command that ends with an error before it does anything, with no reset before its response. -/
theorem command_raise_answered {touched : List Word} {body : State → Res Word} {e : Err} {s : State}
    (hwf : cfgWellFormed s.cfg = true) (hl : answered s)
    (hbody : body (beginCommand touched s) = .raise e (beginCommand touched s)) :
    command touched body s = .next { s with
      rsp0 := statusWord e 0, rsp1 := errorData e, busy := false, w := Work.idle,
      lateResets := s.lateResets.tail } := by
  have hend : raiseError e (beginCommand touched s) =
      respond (statusWord e 0) (errorData e) (dropLate (beginCommand touched s)) := conclude_answered hl _ _
  rw [command_wf hwf, hbody, endCommand, hend]
  rfl

/-- The two checks of a bit-field command, the transport attached and the bit count out of range (40_bitfield.md
R110). -/
theorem checks_bitCount {body : State → Res Word} {bc : Nat} {s : State} (hb : s.transportBound = true)
    (hbc : bc = 0 ∨ bc > 32) : withTransport (withBitCount bc body) s = .raise (.invalidParam .bitCount) s := by
  simp only [withTransport, withBitCount, hb, hbc, if_true]

/-- Settles O33: the check raises `BIT_COUNT` before the field is looked at. -/
theorem bitCountOutOfRangeEnds : Obligations.BitCountOutOfRangeEnds := by
  rintro s a bs bc v ⟨hwf, hb⟩ hl hbc
  exact ⟨command_raise_answered hwf hl (checks_bitCount hb hbc), command_raise_answered hwf hl (checks_bitCount hb hbc)⟩

end Sys2Proof.Machine
end

section
/-! SUPPORT. The family 41_pll_solver.md: phase 1 as a first fit, phase 2 as a best fit of the prescalers' candidates, what a
candidate is in each arithmetic mode, and the bounds of what the search finds. -/

namespace Sys2Proof.Machine

/-! ## Bounds and phase 1 -/

section phase1

variable {c : Cfg} {fin fout : ℕ}

theorem inOk_iff {p : ℕ} : inOk c fin p = true ↔ fin ≤ p * c.maxPllInput ∧ p * c.minPllInput ≤ fin := by
  simp [inOk]

theorem divOk_iff {m : ℕ} : divOk m = true ↔ 1 < m ∧ m ≤ 3072 := by
  rw [divOk, maxPllDiv, Bool.and_eq_true, decide_eq_true_iff, decide_eq_true_iff]

theorem phase1Accepts_iff {p : ℕ} : phase1Accepts c fin fout p = true ↔
    p * fout = fin * (fout * p / fin) ∧ inOk c fin p = true ∧ 1 < fout * p / fin ∧ fout * p / fin ≤ 3072 := by
  simp only [phase1Accepts, Bool.and_eq_true, decide_eq_true_eq, divOk_iff, and_assoc]

/-- A multiplier that makes the prescaler exact is the one phase 1 computes, so a prescaler that is not accepted fails a
bound. -/
theorem not_divOk_of_not_phase1Accepts {q m : ℕ} (hfin : 1 ≤ fin) (h : phase1Accepts c fin fout q = false)
    (hexact : q * fout = fin * m) (hin : inOk c fin q = true) : ¬ (1 < m ∧ m ≤ 3072) := by
  have hm : fout * q / fin = m := by rw [Nat.mul_comm, hexact, Nat.mul_div_cancel_left m hfin]
  intro hdiv
  rw [phase1Accepts_iff.mpr ⟨by rw [hm, hexact], hin, by rwa [hm]⟩] at h
  exact absurd h (by decide)

theorem prescalers_eq_range' : prescalers = List.range' 1 7 := rfl

theorem phase1_eq_some {k : PllConfig} (h : phase1 c fin fout = some k) :
    1 ≤ k.p ∧ k.p ≤ 7 ∧ phase1Accepts c fin fout k.p = true ∧ k = ⟨.int, k.p, fout * k.p / fin, 0, 0⟩ ∧
    ∀ q, 1 ≤ q → q < k.p → phase1Accepts c fin fout q = false := by
  rw [phase1, Option.map_eq_some_iff] at h
  obtain ⟨p, hfind, rfl⟩ := h
  rw [prescalers_eq_range', List.find?_range'_eq_some, List.mem_range'_1] at hfind
  obtain ⟨haccept, ⟨hle, hlt⟩, hfirst⟩ := hfind
  exact ⟨hle, Nat.le_of_lt_succ hlt, haccept, rfl, fun q h1 hq => by simpa using hfirst q h1 hq⟩

theorem phase1_eq_none (h : phase1 c fin fout = none) {q : ℕ} (h1 : 1 ≤ q) (h7 : q ≤ 7) :
    phase1Accepts c fin fout q = false := by
  rw [phase1, Option.map_eq_none_iff, prescalers_eq_range', List.find?_range'_eq_none] at h
  simpa using h q h1 (by omega)

end phase1

/-- Settles O39: the scan finds the first accepted prescaler, and an exact prescaler that is not accepted fails a bound. -/
theorem phase1IsFirstFit : Obligations.Phase1IsFirstFit := by
  intro c fin fout hfin
  refine ⟨fun k h => ?_, fun h q m h1 h7 => not_divOk_of_not_phase1Accepts hfin (phase1_eq_none h h1 h7)⟩
  obtain ⟨h1, h7, haccept, hk, hfirst⟩ := phase1_eq_some h
  obtain ⟨hexact, hin, hmul⟩ := phase1Accepts_iff.mp haccept
  rw [hk]
  exact ⟨rfl, rfl, rfl, h1, h7, hexact, hin, hmul.1, hmul.2,
    fun q m hq1 hq => not_divOk_of_not_phase1Accepts hfin (hfirst q hq1 hq)⟩

/-! ## Phase 2 as a best fit -/

/-- Two working states that the search cannot tell apart: the same best so far, and the same candidate of every prescaler. -/
def sameSearch (c : Cfg) (fin fout : ℕ) (w w' : Work) : Prop :=
  w.best = w'.best ∧ w.leastDiff = w'.leastDiff ∧ ∀ p, candidate c fin fout w.ratio p = candidate c fin fout w'.ratio p

/-- No candidate of the prescalers 1 to `n` has an error below `d`. -/
def noneBelow (c : Cfg) (fin fout : ℕ) (ratio : Binary64) (n d : ℕ) : Prop :=
  ∀ p k, 1 ≤ p → p ≤ n → candidate c fin fout ratio p = some k → d ≤ freqError c.fractMode fin fout k

/-- `k` is the candidate of one of the prescalers 1 to `n`, its error `d` is below `fout` and below that of the candidate of every
lower prescaler (41_pll_solver.md R165). -/
def firstWithError (c : Cfg) (fin fout : ℕ) (ratio : Binary64) (n : ℕ) (k : PllConfig) (d : ℕ) : Prop :=
  1 ≤ k.p ∧ k.p ≤ n ∧ candidate c fin fout ratio k.p = some k ∧ d = freqError c.fractMode fin fout k ∧ d < fout ∧
  ∀ p k', 1 ≤ p → p < k.p → candidate c fin fout ratio p = some k' → d < freqError c.fractMode fin fout k'

/-- What phase 2 keeps once it has visited the prescalers 1 to `n`: the best fit among their candidates. -/
def bestUpTo (c : Cfg) (fin fout : ℕ) (ratio : Binary64) (n : ℕ) (w : Work) : Prop :=
  noneBelow c fin fout ratio n w.leastDiff ∧
  ((w.best = none ∧ w.leastDiff = fout) ∨
    ∃ k, w.best = some k ∧ firstWithError c fin fout ratio n k w.leastDiff)

section phase2

variable {c : Cfg} {fin fout : ℕ}

theorem phase2Visit_none {w : Work} {p : ℕ} (h : candidate c fin fout w.ratio p = none) :
    phase2Visit c fin fout w p = { w with p := p, cand := none } := by
  rw [phase2Visit, h]

theorem phase2Visit_better {w : Work} {p : ℕ} {k : PllConfig} (h : candidate c fin fout w.ratio p = some k)
    (hlt : freqError c.fractMode fin fout k < w.leastDiff) :
    phase2Visit c fin fout w p =
      { w with p := p, cand := some k, best := some k, leastDiff := freqError c.fractMode fin fout k } := by
  simp only [phase2Visit, h, hlt, if_true]

theorem phase2Visit_notBetter {w : Work} {p : ℕ} {k : PllConfig} (h : candidate c fin fout w.ratio p = some k)
    (hle : w.leastDiff ≤ freqError c.fractMode fin fout k) :
    phase2Visit c fin fout w p = { w with p := p, cand := some k } := by
  simp only [phase2Visit, h, hle.not_gt, if_false]

@[simp] theorem phase2Visit_ratio (w : Work) (p : ℕ) : (phase2Visit c fin fout w p).ratio = w.ratio := by
  unfold phase2Visit
  split
  · rfl
  · split <;> rfl

/-- In `EXACT` mode a candidate does not depend on the binary64 ratio. -/
theorem candidate_exact_ratio (hmode : c.fractMode = .exact) (r r' : Binary64) (p : ℕ) :
    candidate c fin fout r p = candidate c fin fout r' p := by
  simp only [candidate, hmode, candMul, classify]

theorem phase2Visit_sameSearch {w w' : Work} (p : ℕ) (h : sameSearch c fin fout w w') :
    sameSearch c fin fout (phase2Visit c fin fout w p) (phase2Visit c fin fout w' p) := by
  obtain ⟨hbest, hdiff, hcand⟩ := h
  have hcand' := hcand p
  cases hp : candidate c fin fout w.ratio p with
  | none =>
    rw [phase2Visit_none hp, phase2Visit_none (hcand' ▸ hp)]
    exact ⟨hbest, hdiff, hcand⟩
  | some k =>
    obtain hlt | hle := lt_or_ge (freqError c.fractMode fin fout k) w.leastDiff
    · rw [phase2Visit_better hp hlt, phase2Visit_better (hcand' ▸ hp) (hdiff ▸ hlt)]
      exact ⟨rfl, rfl, hcand⟩
    · rw [phase2Visit_notBetter hp hle, phase2Visit_notBetter (hcand' ▸ hp) (hdiff ▸ hle)]
      exact ⟨hbest, hdiff, hcand⟩

theorem phase2Start_sameSearch (w w' : Work) :
    sameSearch c fin fout (phase2Start c fin fout w) (phase2Start c fin fout w') := by
  refine ⟨rfl, rfl, fun p => ?_⟩
  cases hmode : c.fractMode with
  | binary64 => simp only [phase2Start, hmode]
  | exact => exact candidate_exact_ratio hmode _ _ p

theorem phase2_sameSearch (w w' : Work) : sameSearch c fin fout (phase2 c fin fout w) (phase2 c fin fout w') :=
  List.foldl_rel (phase2Start_sameSearch w w') fun p _ _ _ h => phase2Visit_sameSearch p h

theorem pllSolve_of_phase1_some {k : PllConfig} (h : phase1 c fin fout = some k) : pllSolve c fin fout = some (k, 0) := by
  simp only [pllSolve, solveWork, h, Option.map_some]

theorem solveWork_of_phase1_none (h : phase1 c fin fout = none) (w : Work) :
    solveWork c fin fout w = phase2 c fin fout w := by
  rw [solveWork, h]

theorem pllSolve_of_phase1_none (h : phase1 c fin fout = none) (w : Work) :
    pllSolve c fin fout = (phase2 c fin fout w).best.map fun k => (k, (phase2 c fin fout w).leastDiff) := by
  obtain ⟨hbest, hdiff, -⟩ := phase2_sameSearch (c := c) (fin := fin) (fout := fout) Work.idle w
  simp only [pllSolve, solveWork_of_phase1_none h, hbest, hdiff]

end phase2

/-- Settles O40: phase 1 answers before phase 2 is looked at, and phase 2 overwrites all that it reads of the working state. -/
theorem searchPrefersPhase1 : Obligations.SearchPrefersPhase1 := by
  intro c fin fout
  refine ⟨fun k => pllSolve_of_phase1_some, fun w h => pllSolve_of_phase1_none h w, fun w => ?_⟩
  cases h : phase1 c fin fout with
  | some k => simp only [pllSolve, solveWork, h]
  | none => rw [solveWork_of_phase1_none h, pllSolve_of_phase1_none h w]

section bestFit

variable {c : Cfg} {fin fout : ℕ} {ratio : Binary64}

/-- What every candidate keeps to: it passed the bounds check of its own prescaler, its multiplier is within the divider bound,
and the fraction fields of the integer type are 0 (41_pll_solver.md R158, R160). -/
theorem candidate_bounds {p : ℕ} {k : PllConfig} (h : candidate c fin fout ratio p = some k) :
    k.p = p ∧ inOk c fin p = true ∧ 2 ≤ k.mul ∧ k.mul ≤ 3072 ∧ (k.type = .int → k.num = 0 ∧ k.den = 0) := by
  simp only [candidate, Option.ite_none_right_eq_some, Bool.and_eq_true, divOk_iff] at h
  obtain ⟨⟨hin, hlow, hhigh⟩, h⟩ := h
  split at h
  · cases h
    exact ⟨rfl, hin, hlow, hhigh, fun _ => ⟨rfl, rfl⟩⟩
  · rw [Option.ite_none_left_eq_some, maxPllDiv] at h
    obtain ⟨hinc, h⟩ := h
    cases h
    exact ⟨rfl, hin, Nat.le_succ_of_le hlow, Nat.le_of_not_lt hinc, fun _ => ⟨rfl, rfl⟩⟩
  · cases h
    exact ⟨rfl, hin, hlow, hhigh, fun h => by cases h⟩

theorem noneBelow_succ {n d : ℕ} (h : noneBelow c fin fout ratio n d)
    (hnew : ∀ k, candidate c fin fout ratio (n + 1) = some k → d ≤ freqError c.fractMode fin fout k) :
    noneBelow c fin fout ratio (n + 1) d := by
  intro p k h1 hp hk
  obtain hp | rfl := Nat.le_succ_iff.mp hp
  · exact h p k h1 hp hk
  · exact hnew k hk

theorem firstWithError_succ {n d : ℕ} {k : PllConfig} (h : firstWithError c fin fout ratio n k d) :
    firstWithError c fin fout ratio (n + 1) k d := by
  obtain ⟨h1, hn, hfirst⟩ := h
  exact ⟨h1, Nat.le_succ_of_le hn, hfirst⟩

theorem bestUpTo_leastDiff_le {n : ℕ} {w : Work} (h : bestUpTo c fin fout ratio n w) : w.leastDiff ≤ fout := by
  obtain ⟨-, ⟨-, hdiff⟩ | ⟨k, -, -, -, -, -, hlt, -⟩⟩ := h
  · exact hdiff.le
  · exact hlt.le

/-- Where the next prescaler has nothing better, the best fit stays the best fit. -/
theorem bestUpTo_succ_of_noneBelow {n : ℕ} {w w' : Work} (h : bestUpTo c fin fout ratio n w) (hbest : w'.best = w.best)
    (hdiff : w'.leastDiff = w.leastDiff)
    (hnew : ∀ k, candidate c fin fout ratio (n + 1) = some k → w.leastDiff ≤ freqError c.fractMode fin fout k) :
    bestUpTo c fin fout ratio (n + 1) w' := by
  obtain ⟨hnone, hkept⟩ := h
  rw [bestUpTo, hbest, hdiff]
  exact ⟨noneBelow_succ hnone hnew, hkept.imp_right fun ⟨k, hk, hfirst⟩ => ⟨k, hk, firstWithError_succ hfirst⟩⟩

/-- A strictly better candidate of the next prescaler is the new best fit. -/
theorem bestUpTo_succ_of_better {n : ℕ} {w w' : Work} {k : PllConfig} (h : bestUpTo c fin fout ratio n w)
    (hk : candidate c fin fout ratio (n + 1) = some k) (hlt : freqError c.fractMode fin fout k < w.leastDiff)
    (hbest : w'.best = some k) (hdiff : w'.leastDiff = freqError c.fractMode fin fout k) :
    bestUpTo c fin fout ratio (n + 1) w' := by
  have hle := bestUpTo_leastDiff_le h
  obtain ⟨hnone, -⟩ := h
  obtain ⟨hp, -⟩ := candidate_bounds hk
  rw [bestUpTo, hbest, hdiff]
  refine ⟨noneBelow_succ (fun p k' h1 hn hk' => hlt.le.trans (hnone p k' h1 hn hk')) fun k' hk' => ?_, .inr ⟨k, rfl, ?_⟩⟩
  · rw [Option.some.inj (hk.symm.trans hk')]
  · rw [firstWithError, hp]
    exact ⟨Nat.le_add_left 1 n, le_rfl, hk, rfl, hlt.trans_le hle,
      fun p k' h1 hn hk' => hlt.trans_le (hnone p k' h1 (Nat.lt_succ_iff.mp hn) hk')⟩

theorem phase2Visit_bestUpTo {n : ℕ} {w : Work} (h : bestUpTo c fin fout w.ratio n w) :
    bestUpTo c fin fout w.ratio (n + 1) (phase2Visit c fin fout w (n + 1)) := by
  cases hk : candidate c fin fout w.ratio (n + 1) with
  | none =>
    rw [phase2Visit_none hk]
    exact bestUpTo_succ_of_noneBelow h rfl rfl fun k' hk' => by simp [hk] at hk'
  | some k =>
    obtain hlt | hle := lt_or_ge (freqError c.fractMode fin fout k) w.leastDiff
    · rw [phase2Visit_better hk hlt]
      exact bestUpTo_succ_of_better h hk hlt rfl rfl
    · rw [phase2Visit_notBetter hk hle]
      exact bestUpTo_succ_of_noneBelow h rfl rfl fun k' hk' => Option.some.inj (hk.symm.trans hk') ▸ hle

/-- The scan of the prescalers 1 to `n` finds their best fit. -/
theorem foldl_phase2Visit_bestUpTo (w : Work) (hbest : w.best = none) (hdiff : w.leastDiff = fout) (n : ℕ) :
    ((List.range' 1 n).foldl (phase2Visit c fin fout) w).ratio = w.ratio ∧
    bestUpTo c fin fout w.ratio n ((List.range' 1 n).foldl (phase2Visit c fin fout) w) := by
  induction n with
  | zero => exact ⟨rfl, fun _ _ h1 h0 => absurd (h1.trans h0) (by decide), .inl ⟨hbest, hdiff⟩⟩
  | succ n ih =>
    obtain ⟨hratio, hprev⟩ := ih
    rw [List.range'_1_concat, List.foldl_concat, Nat.add_comm 1 n, phase2Visit_ratio]
    refine ⟨hratio, ?_⟩
    rw [← hratio] at hprev ⊢
    exact phase2Visit_bestUpTo hprev

theorem phase2_bestUpTo (w : Work) :
    bestUpTo c fin fout (phase2Start c fin fout w).ratio 7 (phase2 c fin fout w) := by
  rw [phase2, prescalers_eq_range']
  exact (foldl_phase2Visit_bestUpTo _ rfl rfl 7).2

/-- A configuration found in phase 2 is the best fit among the candidates. -/
theorem pllSolve_some_of_phase1_none (h : phase1 c fin fout = none) {k : PllConfig} {d : ℕ}
    (hk : pllSolve c fin fout = some (k, d)) :
    noneBelow c fin fout (phase2Start c fin fout Work.idle).ratio 7 d ∧
    firstWithError c fin fout (phase2Start c fin fout Work.idle).ratio 7 k d := by
  rw [pllSolve_of_phase1_none h Work.idle, Option.map_eq_some_iff] at hk
  obtain ⟨k', hbest, hkd⟩ := hk
  cases hkd
  obtain ⟨hnone, ⟨hno, -⟩ | ⟨k', hk', hfirst⟩⟩ := phase2_bestUpTo (c := c) (fin := fin) (fout := fout) Work.idle
  · simp [hno] at hbest
  · rw [hk', Option.some.injEq] at hbest
    exact ⟨hnone, hbest ▸ hfirst⟩

theorem pllSolve_none_iff_of_phase1_none (h : phase1 c fin fout = none) :
    pllSolve c fin fout = none ↔ noneBelow c fin fout (phase2Start c fin fout Work.idle).ratio 7 fout := by
  rw [pllSolve_of_phase1_none h Work.idle, Option.map_eq_none_iff]
  obtain ⟨hnone, ⟨hno, hdiff⟩ | ⟨k, hk, h1, h7, hcand, hdiff, hlt, -⟩⟩ :=
    phase2_bestUpTo (c := c) (fin := fin) (fout := fout) Work.idle
  · rw [hdiff] at hnone
    exact ⟨fun _ => hnone, fun _ => hno⟩
  · refine ⟨fun hno => by simp [hno] at hk, fun hfout => ?_⟩
    exact absurd (hfout k.p k h1 h7 hcand) (hdiff ▸ hlt).not_ge

end bestFit

/-! ## What a candidate is -/

section candidates

variable {c : Cfg} {fin fout : ℕ}

theorem reduceFraction_of_le {mode : FractMode} {num den : ℕ} (h : den / Nat.gcd num den ≤ 65535) :
    reduceFraction mode num den = (num / Nat.gcd num den, den / Nat.gcd num den) := by
  simp only [reduceFraction, ndMax, h.not_gt, if_false]

theorem reduceFraction_of_gt {mode : FractMode} {num den : ℕ} (h : 65535 < den / Nat.gcd num den) :
    reduceFraction mode num den = (rescaledNum mode (num / Nat.gcd num den) (den / Nat.gcd num den), 65535) := by
  simp only [reduceFraction, ndMax, h, if_true]

/-- The fractional configurations by whether the reduced denominator fits 16 bits (41_pll_solver.md R162, R163). -/
theorem eq_frac_reduceFraction_iff (mode : FractMode) (p mul num den : ℕ) (k : PllConfig) :
    k = ⟨.frac, p, mul, (reduceFraction mode num den).1, (reduceFraction mode num den).2⟩ ↔
      (den / Nat.gcd num den ≤ 65535 ∧ k = ⟨.frac, p, mul, num / Nat.gcd num den, den / Nat.gcd num den⟩) ∨
      (65535 < den / Nat.gcd num den ∧
        k = ⟨.frac, p, mul, rescaledNum mode (num / Nat.gcd num den) (den / Nat.gcd num den), 65535⟩) := by
  obtain hle | hgt := le_or_gt (den / Nat.gcd num den) 65535
  · simp only [reduceFraction_of_le hle, hle, hle.not_gt, true_and, false_and, or_false]
  · simp only [reduceFraction_of_gt hgt, hgt, hgt.not_ge, true_and, false_and, false_or]

/-- The candidate of a prescaler by the class of its fraction (41_pll_solver.md R158 to R163). -/
theorem candidate_eq_some_iff {mode : FractMode} {ratio : Binary64} {p mul : ℕ} {k : PllConfig}
    (hmode : c.fractMode = mode) (hmul : candMul mode fin fout ratio p = mul) :
    candidate c fin fout ratio p = some k ↔
      fin ≤ p * c.maxPllInput ∧ p * c.minPllInput ≤ fin ∧ 1 < mul ∧ mul ≤ 3072 ∧
      ((classify mode fin fout ratio p mul = .low ∧ k = ⟨.int, p, mul, 0, 0⟩) ∨
       (classify mode fin fout ratio p mul = .high ∧ mul + 1 ≤ 3072 ∧ k = ⟨.int, p, mul + 1, 0, 0⟩) ∨
       ∃ num, classify mode fin fout ratio p mul = .frac num ∧
         k = ⟨.frac, p, mul, (reduceFraction mode num (p * fin)).1, (reduceFraction mode num (p * fin)).2⟩) := by
  simp only [candidate, hmode, hmul, Option.ite_none_right_eq_some, Bool.and_eq_true, inOk_iff, divOk_iff, and_assoc]
  cases classify mode fin fout ratio p mul with
  | low => simp [eq_comm]
  | high => simp [eq_comm, maxPllDiv]
  | frac num => simp [eq_comm]

end candidates

section binary64Mode

variable {fin fout p mul : ℕ} {ratio : Binary64}

theorem classify_binary64_eq_low_iff :
    classify .binary64 fin fout ratio p mul = .low ↔ f64Lt (candFract ratio p mul) f64Tenth = true := by
  simp only [classify]
  split_ifs <;> simp [*]

theorem classify_binary64_eq_high_iff :
    classify .binary64 fin fout ratio p mul = .high ↔
      f64Lt (candFract ratio p mul) f64Tenth = false ∧ f64Lt f64NineTenths (candFract ratio p mul) = true := by
  simp only [classify]
  split_ifs <;> simp [*]

theorem classify_binary64_eq_frac_iff {num : ℕ} :
    classify .binary64 fin fout ratio p mul = .frac num ↔
      f64Lt (candFract ratio p mul) f64Tenth = false ∧ f64Lt f64NineTenths (candFract ratio p mul) = false ∧
      f64Floor (f64Mul (f64OfNat (p * fin)) (candFract ratio p mul)) = num := by
  simp only [classify]
  split_ifs <;> simp [*]

theorem candidate_binary64_iff {c : Cfg} {k : PllConfig} (hmode : c.fractMode = .binary64) :
    let rate := f64Mul ratio (f64OfNat p)
    let mul := f64Floor rate
    let fract := f64Sub rate (f64OfNat mul)
    let num := f64Floor (f64Mul (f64OfNat (p * fin)) fract)
    let g := Nat.gcd num (p * fin)
    candidate c fin fout ratio p = some k ↔
      fin ≤ p * c.maxPllInput ∧ p * c.minPllInput ≤ fin ∧ 1 < mul ∧ mul ≤ 3072 ∧
      ((f64Lt fract f64Tenth = true ∧ k = ⟨.int, p, mul, 0, 0⟩) ∨
       (f64Lt fract f64Tenth = false ∧ f64Lt f64NineTenths fract = true ∧ mul + 1 ≤ 3072 ∧
        k = ⟨.int, p, mul + 1, 0, 0⟩) ∨
       (f64Lt fract f64Tenth = false ∧ f64Lt f64NineTenths fract = false ∧
        ((p * fin / g ≤ 65535 ∧ k = ⟨.frac, p, mul, num / g, p * fin / g⟩) ∨
         (65535 < p * fin / g ∧ k = ⟨.frac, p, mul, rescaledNum .binary64 (num / g) (p * fin / g), 65535⟩)))) := by
  intro rate mul fract num g
  rw [candidate_eq_some_iff hmode (mul := mul) rfl]
  simp only [classify_binary64_eq_low_iff, classify_binary64_eq_high_iff, classify_binary64_eq_frac_iff,
    eq_frac_reduceFraction_iff, and_assoc, exists_and_left, exists_eq_left']
  rfl

end binary64Mode

section exactMode

variable {fin fout p : ℕ}

theorem classify_exact_eq_low_iff {ratio : Binary64} {mul : ℕ} :
    classify .exact fin fout ratio p mul = .low ↔ 10 * (fout * p - mul * fin) < fin := by
  simp only [classify]
  split_ifs <;> simp [*]

theorem classify_exact_eq_high_iff {ratio : Binary64} {mul : ℕ} :
    classify .exact fin fout ratio p mul = .high ↔ 9 * fin < 10 * (fout * p - mul * fin) := by
  simp only [classify]
  split_ifs with hlow hhigh
  · simp only [false_iff]
    omega
  · simpa using hhigh
  · simpa using hhigh

theorem classify_exact_eq_frac_iff {ratio : Binary64} {mul num : ℕ} :
    classify .exact fin fout ratio p mul = .frac num ↔
      fin ≤ 10 * (fout * p - mul * fin) ∧ 10 * (fout * p - mul * fin) ≤ 9 * fin ∧ p * (fout * p - mul * fin) = num := by
  simp only [classify]
  split_ifs with hlow hhigh
  · simp [hlow.not_ge]
  · simp [hhigh.not_ge]
  · simp [not_lt.mp hlow, not_lt.mp hhigh]

/-- Round half up as a floor (41_pll_solver.md R168). -/
theorem rescaledNum_exact_eq_floor (num den : ℕ) :
    rescaledNum .exact num den = ⌊(65535 * (num : ℕ) : ℚ) / (den : ℕ) + 1 / 2⌋₊ := by
  obtain rfl | hden := eq_or_ne den 0
  · norm_num [rescaledNum]
  have hhalf : (65535 * (num : ℕ) : ℚ) / (den : ℕ) + 1 / 2 = (2 * 65535 * num + den : ℕ) / (2 * den : ℕ) := by
    push_cast
    field_simp
    ring
  rw [hhalf, Nat.floor_div_eq_div, rescaledNum, ndMax]

/-- `fract` over the rationals: the remainder of the division over `fin`. -/
theorem rate_sub_floor (hfin : 1 ≤ fin) :
    ((fout : ℚ) * p / fin) - (fout * p / fin : ℕ) = (fout * p - fout * p / fin * fin : ℕ) / fin := by
  have hfin0 : (fin : ℚ) ≠ 0 := by positivity
  rw [Nat.cast_sub (Nat.div_mul_le_self _ _), Nat.cast_mul (fout * p / fin), sub_div, mul_div_cancel_right₀ _ hfin0,
    Nat.cast_mul]

theorem floor_rate : ⌊(fout : ℚ) * p / fin⌋₊ = fout * p / fin := by
  exact_mod_cast Nat.floor_div_eq_div (K := ℚ) (fout * p) fin

/-- The thresholds on `fract` as the integer comparisons of R168. -/
theorem div_lt_tenth_iff {r : ℕ} (hfin : 1 ≤ fin) : (r : ℚ) / fin < 1 / 10 ↔ 10 * r < fin := by
  rw [div_lt_div_iff₀ (by positivity) (by norm_num), one_mul, mul_comm]
  exact_mod_cast Iff.rfl

theorem nineTenths_lt_div_iff {r : ℕ} (hfin : 1 ≤ fin) : (9 / 10 : ℚ) < r / fin ↔ 9 * fin < 10 * r := by
  rw [div_lt_div_iff₀ (by norm_num) (by positivity), mul_comm (r : ℚ)]
  exact_mod_cast Iff.rfl

theorem tenth_le_div_iff {r : ℕ} (hfin : 1 ≤ fin) : (1 / 10 : ℚ) ≤ r / fin ↔ fin ≤ 10 * r := by
  rw [← not_lt, div_lt_tenth_iff hfin, not_lt]

theorem div_le_nineTenths_iff {r : ℕ} (hfin : 1 ≤ fin) : (r : ℚ) / fin ≤ 9 / 10 ↔ 10 * r ≤ 9 * fin := by
  rw [← not_lt, nineTenths_lt_div_iff hfin, not_lt]

/-- `den * fract` is a whole number, so the numerator is exact. -/
theorem floor_den_mul_fract {r : ℕ} (hfin : 1 ≤ fin) : ⌊(p * fin : ℚ) * (r / fin)⌋₊ = p * r := by
  have hfin0 : (fin : ℚ) ≠ 0 := by positivity
  rw [mul_assoc, mul_div_cancel₀ _ hfin0]
  exact_mod_cast Nat.floor_natCast (R := ℚ) (p * r)

theorem candidate_exact_iff {c : Cfg} {ratio : Binary64} {k : PllConfig} (hfin : 1 ≤ fin) (hmode : c.fractMode = .exact) :
    let rate : ℚ := (fout : ℚ) * p / fin
    let mul := ⌊rate⌋₊
    let fract := rate - mul
    let num := ⌊(p * fin : ℚ) * fract⌋₊
    let g := Nat.gcd num (p * fin)
    candidate c fin fout ratio p = some k ↔
      fin ≤ p * c.maxPllInput ∧ p * c.minPllInput ≤ fin ∧ 1 < mul ∧ mul ≤ 3072 ∧
      ((fract < 1 / 10 ∧ k = ⟨.int, p, mul, 0, 0⟩) ∨
       (9 / 10 < fract ∧ mul + 1 ≤ 3072 ∧ k = ⟨.int, p, mul + 1, 0, 0⟩) ∨
       (1 / 10 ≤ fract ∧ fract ≤ 9 / 10 ∧
        ((p * fin / g ≤ 65535 ∧ k = ⟨.frac, p, mul, num / g, p * fin / g⟩) ∨
         (65535 < p * fin / g ∧
          k = ⟨.frac, p, mul, ⌊(65535 * (num / g : Nat) : ℚ) / (p * fin / g : Nat) + 1 / 2⌋₊, 65535⟩)))) := by
  intro rate mul fract num g
  have hmul : mul = fout * p / fin := floor_rate
  have hfract : fract = (fout * p - mul * fin : ℕ) / fin := by
    rw [hmul, ← rate_sub_floor hfin, ← hmul]
  have hnum : num = p * (fout * p - mul * fin) := by
    rw [← floor_den_mul_fract hfin, ← hfract]
  rw [candidate_eq_some_iff hmode hmul.symm]
  simp only [classify_exact_eq_low_iff, classify_exact_eq_high_iff, classify_exact_eq_frac_iff, eq_frac_reduceFraction_iff,
    and_assoc, exists_and_left, exists_eq_left', rescaledNum_exact_eq_floor, ← hnum]
  rw [hfract, div_lt_tenth_iff hfin, nineTenths_lt_div_iff hfin, tenth_le_div_iff hfin, div_le_nineTenths_iff hfin]

end exactMode

/-! ## The error of a configuration -/

section errors

variable {mode : FractMode} {fin fout : ℕ} {k : PllConfig}

theorem freqError_int (h : k.type = .int) : freqError mode fin fout k = ((k.mul * fin / k.p : ℕ) - fout : ℤ).natAbs := by
  simp only [freqError, term1, term2, h, Nat.add_zero]

theorem freqError_frac_binary64 (h : k.type = .frac) :
    freqError .binary64 fin fout k =
      ((k.mul * fin / k.p +
        f64Floor (f64Div (f64Mul (f64Div (f64OfNat k.num) (f64OfNat k.den)) (f64OfNat fin)) (f64OfNat k.p)) : ℕ) -
          fout : ℤ).natAbs := by
  simp only [freqError, term1, term2, h]

theorem freqError_frac_exact (h : k.type = .frac) :
    freqError .exact fin fout k = ((k.mul * fin / k.p + k.num * fin / (k.den * k.p) : ℕ) - fout : ℤ).natAbs := by
  simp only [freqError, term1, term2, h]

end errors

/-- Settles O41: the scan keeps the best fit among the candidates of the prescalers 1 to 7 (`phase2_bestUpTo`), and a candidate
and its error are what R157 to R164 and R168 say. -/
theorem phase2IsBestFit : Obligations.Phase2IsBestFit := by
  refine ⟨fun c fin fout h => ⟨fun k d hk => ?_, pllSolve_none_iff_of_phase1_none h⟩,
    fun c fin fout p ratio k hmode => candidate_binary64_iff hmode,
    fun c fin fout p ratio k hfin _ hmode => candidate_exact_iff hfin hmode,
    fun fin fout k => ⟨fun mode => freqError_int, fun h => ⟨freqError_frac_binary64 h, freqError_frac_exact h⟩⟩⟩
  obtain ⟨hnone, h1, h7, hcand, hd, hlt, hfirst⟩ := pllSolve_some_of_phase1_none h hk
  exact ⟨h1, h7, hcand, hd, hlt, fun p k' hp1 hp7 hk' => ⟨hnone p k' hp1 hp7 hk', fun hp => hfirst p k' hp1 hp hk'⟩⟩

/-- A phase-1 configuration reproduces `fout` exactly (41_pll_solver.md R154). -/
theorem freqError_of_exact {mode : FractMode} {fin fout : ℕ} {k : PllConfig} (hp : 1 ≤ k.p) (htype : k.type = .int)
    (hexact : k.p * fout = fin * k.mul) : freqError mode fin fout k = 0 := by
  rw [freqError_int htype, Nat.mul_comm k.mul, ← hexact, Nat.mul_div_cancel_left fout hp, sub_self, Int.natAbs_zero]

/-- Settles O42: a phase-1 result by the conditions of its acceptance, a phase-2 result by those of its candidate. -/
theorem foundConfigurationBounds : Obligations.FoundConfigurationBounds := by
  intro c fin fout d k hfin hfout hk
  cases h : phase1 c fin fout with
  | some k' =>
    rw [pllSolve_of_phase1_some h] at hk
    cases hk
    obtain ⟨htype, hnum, hden, h1, h7, hexact, hin, hlow, hhigh, -⟩ := (phase1IsFirstFit c fin fout hfin).1 k h
    exact ⟨h1, h7, hlow, hhigh, hin, fun _ => ⟨hnum, hden⟩, (freqError_of_exact h1 htype hexact).symm, hfout⟩
  | none =>
    obtain ⟨-, h1, h7, hcand, hd, hlt, -⟩ := pllSolve_some_of_phase1_none h hk
    obtain ⟨-, hin, hlow, hhigh, hint⟩ := candidate_bounds hcand
    exact ⟨h1, h7, hlow, hhigh, hin, hint, hd, hlt⟩

/-! ## Fractional configurations -/

/-- The fraction lies between 0.09 and 0.91, a margin around the thresholds 0.1 and 0.9 for truncation and rounding
(41_pll_solver.md R169). -/
def fractionInRange (num den : ℕ) : Prop := 9 * den ≤ 100 * num ∧ 100 * num ≤ 91 * den

theorem fractionInRange_bounds {num den : ℕ} (hden : 0 < den) (h : fractionInRange num den) :
    2 ≤ den ∧ 1 ≤ num ∧ num < den := by
  unfold fractionInRange at h
  omega

theorem fractionInRange_reduced {num den : ℕ} (h : fractionInRange num den) :
    fractionInRange (num / Nat.gcd num den) (den / Nat.gcd num den) := by
  obtain ⟨hlow, hhigh⟩ := h
  have hnum := Nat.gcd_dvd_left num den
  have hden := Nat.gcd_dvd_right num den
  rw [fractionInRange, ← Nat.mul_div_assoc 9 hden, ← Nat.mul_div_assoc 100 hnum, ← Nat.mul_div_assoc 91 hden]
  exact ⟨Nat.div_le_div_right hlow, Nat.div_le_div_right hhigh⟩

/-- The fraction bounds of R169, where the rescale keeps to them. -/
theorem reduceFraction_bounds {mode : FractMode} {num den : ℕ} (hden : 0 < den) (h : fractionInRange num den)
    (hrescale : ∀ n d, 65535 < d → d ≤ den → fractionInRange n d → 1 ≤ rescaledNum mode n d ∧ rescaledNum mode n d < 65535) :
    2 ≤ (reduceFraction mode num den).2 ∧ (reduceFraction mode num den).2 ≤ 65535 ∧
    1 ≤ (reduceFraction mode num den).1 ∧ (reduceFraction mode num den).1 < (reduceFraction mode num den).2 := by
  have hreduced := fractionInRange_reduced h
  obtain hle | hgt := le_or_gt (den / Nat.gcd num den) 65535
  · have hpos : 0 < den / Nat.gcd num den := Nat.div_gcd_pos_of_pos_right num hden
    obtain ⟨hden2, hnum, hlt⟩ := fractionInRange_bounds hpos hreduced
    rw [reduceFraction_of_le hle]
    exact ⟨hden2, hle, hnum, hlt⟩
  · rw [reduceFraction_of_gt hgt]
    exact ⟨(by decide : 2 ≤ 65535), le_rfl, hrescale _ _ hgt (Nat.div_le_self _ _) hreduced⟩

/-- A fractional configuration is the candidate of a prescaler that phase 2 classified as fractional. -/
theorem pllSolve_frac {c : Cfg} {fin fout d : ℕ} {k : PllConfig} (hk : pllSolve c fin fout = some (k, d))
    (htype : k.type = .frac) :
    ∃ p mul num, 1 ≤ p ∧ p ≤ 7 ∧ candMul c.fractMode fin fout (phase2Start c fin fout Work.idle).ratio p = mul ∧ mul ≤ 3072 ∧
      classify c.fractMode fin fout (phase2Start c fin fout Work.idle).ratio p mul = .frac num ∧
      k.num = (reduceFraction c.fractMode num (p * fin)).1 ∧ k.den = (reduceFraction c.fractMode num (p * fin)).2 := by
  cases h : phase1 c fin fout with
  | some k' =>
    rw [pllSolve_of_phase1_some h] at hk
    cases hk
    obtain ⟨-, -, -, hint, -⟩ := phase1_eq_some h
    cases htype.symm.trans (congrArg PllConfig.type hint)
  | none =>
    obtain ⟨-, h1, h7, hcand, -⟩ := pllSolve_some_of_phase1_none h hk
    obtain ⟨-, -, -, hmul, ⟨-, hint⟩ | ⟨-, -, hint⟩ | ⟨num, hclass, hfrac⟩⟩ := (candidate_eq_some_iff rfl rfl).mp hcand
    · cases htype.symm.trans (congrArg PllConfig.type hint)
    · cases htype.symm.trans (congrArg PllConfig.type hint)
    · exact ⟨k.p, _, num, h1, h7, rfl, hmul, hclass, congrArg PllConfig.num hfrac, congrArg PllConfig.den hfrac⟩

/-! ### EXACT mode -/

theorem rescaledNum_exact_bounds {num den : ℕ} (hden : 65535 < den) (h : fractionInRange num den) :
    1 ≤ rescaledNum .exact num den ∧ rescaledNum .exact num den < 65535 := by
  obtain ⟨hlow, hhigh⟩ := h
  rw [rescaledNum, ndMax, Nat.one_le_div_iff (by omega), Nat.div_lt_iff_lt_mul (by omega)]
  omega

/-- The unreduced fraction is `p * r` over `p * fin`, with `r` between `fin / 10` and `9 * fin / 10`. -/
theorem fractionInRange_of_classify_exact {fin fout p mul num : ℕ} {ratio : Binary64}
    (h : classify .exact fin fout ratio p mul = .frac num) : fractionInRange num (p * fin) := by
  obtain ⟨hlow, hhigh, rfl⟩ := classify_exact_eq_frac_iff.mp h
  have hp_low := Nat.mul_le_mul_left p hlow
  have hp_high := Nat.mul_le_mul_left p hhigh
  rw [Nat.mul_left_comm] at hp_low hp_high
  rw [Nat.mul_left_comm p 9] at hp_high
  rw [fractionInRange]
  omega

/-- Settles O43: the fraction lies between 0.1 and 0.9, and neither reduction nor rescale takes it out of range. -/
theorem exactFractionBounds : Obligations.ExactFractionBounds := by
  intro c fin fout d k hfin hmode hk htype
  obtain ⟨p, mul, num, h1, -, -, -, hclass, hnum, hden⟩ := pllSolve_frac hk htype
  rw [hmode] at hclass hnum hden
  rw [hnum, hden]
  exact reduceFraction_bounds (Nat.mul_pos h1 hfin) (fractionInRange_of_classify_exact hclass)
    fun _ _ hd _ => rescaledNum_exact_bounds hd

/-! ### Rounding errors -/

/-- `y` is within one thousandth of `q`: all that the bounds of R169 need of the rounding. -/
def f64Near (y : Binary64) (q : ℚ) : Prop := 999 / 1000 * q ≤ f64Value y ∧ f64Value y ≤ 1001 / 1000 * q

/-- The relative error of a normal result: half a unit in the last place, the significand being at least `2 ^ 52`. -/
theorem abs_f64Round_sub_le {n d : ℕ} {x : ℤ} {q : ℚ} (hq : q = n / d * (2 : ℚ) ^ x) (hlow : 2 ^ (-64 : ℤ) ≤ q)
    (hhigh : q < 2 ^ 64) : |f64Value (f64Round n d x) - q| ≤ q / 2 ^ 53 := by
  have hpos : q ≠ 0 := (lt_of_lt_of_le (by positivity) hlow).ne'
  have hn : n ≠ 0 := by rintro rfl; simp [hq] at hpos
  have hd : d ≠ 0 := by rintro rfl; simp [hq] at hpos
  have hfin : f64Finite (f64Round n d x) :=
    f64Round_finite hd (hq ▸ hhigh.trans (pow_lt_pow_right₀ one_lt_two (by norm_num)))
  have hlog : -64 < log2Ratio n d + 1 + x := by
    refine (zpow_lt_zpow_iff_right₀ (one_lt_two (α := ℚ))).mp (hlow.trans_lt ?_)
    rw [hq, zpow_add₀ two_ne_zero]
    have := (log2Ratio_spec hn hd).2
    gcongr
  have hscaled := le_f64Scaled (x := x) hn hd (by unfold f64Ulp; omega)
  have hdist := (f64Sig_spec (n := n) (x := x) hd).1
  rw [(f64Round_value hn hd hfin).1, hq, ← f64Scaled_mul_ulp, ← sub_mul, abs_mul,
    abs_of_pos (by positivity : (0 : ℚ) < 2 ^ f64Ulp n d x), ← div_mul_eq_mul_div]
  gcongr
  linarith

theorem f64Near_f64Round {n d : ℕ} {x : ℤ} {q : ℚ} (hq : q = n / d * (2 : ℚ) ^ x) (hlow : 2 ^ (-64 : ℤ) ≤ q)
    (hhigh : q < 2 ^ 64) : f64Near (f64Round n d x) q := by
  have hpos : 0 < q := lt_of_lt_of_le (by positivity) hlow
  obtain ⟨hle, hge⟩ := abs_le.mp (abs_f64Round_sub_le hq hlow hhigh)
  constructor <;> linarith

theorem f64Near_f64Div {a b : Binary64} (hlow : 2 ^ (-64 : ℤ) ≤ f64Value a / f64Value b)
    (hhigh : f64Value a / f64Value b < 2 ^ 64) : f64Near (f64Div a b) (f64Value a / f64Value b) := by
  refine f64Near_f64Round ?_ hlow hhigh
  rw [f64Value, f64Value, mul_div_mul_comm, zpow_sub₀ two_ne_zero]

theorem f64Near_f64Mul {a b : Binary64} (hlow : 2 ^ (-64 : ℤ) ≤ f64Value a * f64Value b)
    (hhigh : f64Value a * f64Value b < 2 ^ 64) : f64Near (f64Mul a b) (f64Value a * f64Value b) := by
  refine f64Near_f64Round ?_ hlow hhigh
  rw [f64Value, f64Value, zpow_add₀ two_ne_zero]
  push_cast
  ring

/-! ### BINARY64 mode -/

theorem f64Lt_eq_false_iff {a b : Binary64} : f64Lt a b = false ↔ f64Value b ≤ f64Value a := by
  rw [f64Lt, decide_eq_false_iff_not, ← f64Value_lt_iff, not_lt]

theorem f64Floor_le (x : Binary64) : (f64Floor x : ℚ) ≤ f64Value x := by
  have h := Int.floor_le (f64Value x)
  rw [← f64Floor_eq_floor] at h
  exact_mod_cast h

theorem lt_f64Floor_add_one (x : Binary64) : f64Value x < f64Floor x + 1 := by
  have h := Int.lt_floor_add_one (f64Value x)
  rw [← f64Floor_eq_floor] at h
  exact_mod_cast h

theorem tenth_le_f64Tenth : (1 / 10 : ℚ) ≤ f64Value f64Tenth := by
  rw [f64Value, show f64Mant f64Tenth = 7205759403792794 by decide, show f64Expo f64Tenth = -56 by decide]
  norm_num

theorem f64NineTenths_le : f64Value f64NineTenths ≤ 9001 / 10000 := by
  rw [f64Value, show f64Mant f64NineTenths = 8106479329266893 by decide, show f64Expo f64NineTenths = -53 by decide]
  norm_num

section quotient

variable {m n l : ℕ}

theorem f64Near_f64Div_natCast (hm : 1 ≤ m) (hm' : m < 2 ^ 27) (hn : 1 ≤ n) (hn' : n < 2 ^ 35) :
    (1 / 2 ^ 35 : ℚ) ≤ m / n ∧ (m / n : ℚ) ≤ 2 ^ 27 / 1 ∧ f64Near (f64Div (f64OfNat m) (f64OfNat n)) (m / n) := by
  have hm_low : (1 : ℚ) ≤ m := by exact_mod_cast hm
  have hn_low : (1 : ℚ) ≤ n := by exact_mod_cast hn
  have hm_high : (m : ℚ) ≤ 2 ^ 27 := by exact_mod_cast hm'.le
  have hn_high : (n : ℚ) ≤ 2 ^ 35 := by exact_mod_cast hn'.le
  have hlow : (1 / 2 ^ 35 : ℚ) ≤ m / n := by gcongr
  have hhigh : (m / n : ℚ) ≤ 2 ^ 27 / 1 := by gcongr
  have hnear := f64Near_f64Div (a := f64OfNat m) (b := f64OfNat n)
  rw [(f64OfNat_exact (hm'.trans (by norm_num))).1, (f64OfNat_exact (hn'.trans (by norm_num))).1] at hnear
  exact ⟨hlow, hhigh, hnear (by linarith) (by linarith)⟩

/-- A quotient of integers times an integer, each operation rounded: the form of `rate` and of the rescaled numerator. -/
theorem f64Mul_f64Div_bounds (hm : 1 ≤ m) (hm' : m < 2 ^ 27) (hn : 1 ≤ n) (hn' : n < 2 ^ 35) (hl : 1 ≤ l) (hl' : l < 2 ^ 35) :
    998 / 1000 * (m * l / n : ℚ) ≤ f64Value (f64Mul (f64Div (f64OfNat m) (f64OfNat n)) (f64OfNat l)) ∧
    f64Value (f64Mul (f64Div (f64OfNat m) (f64OfNat n)) (f64OfNat l)) ≤ 1003 / 1000 * (m * l / n : ℚ) := by
  obtain ⟨hq_low, hq_high, hw_low, hw_high⟩ := f64Near_f64Div_natCast hm hm' hn hn'
  have hnear := f64Near_f64Mul (a := f64Div (f64OfNat m) (f64OfNat n)) (b := f64OfNat l)
  rw [(f64OfNat_exact (hl'.trans (by norm_num))).1] at hnear
  set w := f64Value (f64Div (f64OfNat m) (f64OfNat n))
  have hl_low : (1 : ℚ) ≤ l := by exact_mod_cast hl
  have hl_high : (l : ℚ) ≤ 2 ^ 35 := by exact_mod_cast hl'.le
  have hwl_low : 999 / 1000 * (m / n : ℚ) * l ≤ w * l := by gcongr
  have hwl_high : w * l ≤ 1001 / 1000 * (m / n : ℚ) * l := by gcongr
  have hql_low : (1 / 2 ^ 35 : ℚ) * 1 ≤ m / n * l := by gcongr
  have hql_high : (m / n * l : ℚ) ≤ 2 ^ 27 / 1 * 2 ^ 35 := by gcongr
  obtain ⟨hv_low, hv_high⟩ := hnear (by norm_num; linarith) (by linarith)
  rw [mul_div_right_comm]
  constructor <;> linarith

end quotient

/-- The rescaled numerator is 65535 times a number near the fraction, rounded to the nearest integer. -/
theorem rescaledNum_binary64_bounds {num den : ℕ} (hden : 65535 < den) (hlt : den < 2 ^ 35) (h : fractionInRange num den) :
    1 ≤ rescaledNum .binary64 num den ∧ rescaledNum .binary64 num den < 65535 := by
  obtain ⟨-, hnum, hnum_lt⟩ := fractionInRange_bounds (by omega) h
  obtain ⟨hlow, hhigh⟩ := h
  have hden0 : (0 : ℚ) < den := by exact_mod_cast (by omega : 0 < den)
  have hq_low : (65535 * (9 / 100) : ℚ) ≤ (65535 : ℕ) * num / den := by
    have : (9 * den : ℚ) ≤ 100 * num := by exact_mod_cast hlow
    rw [le_div_iff₀ hden0]
    push_cast
    linarith
  have hq_high : ((65535 : ℕ) * num / den : ℚ) ≤ 65535 * (91 / 100) := by
    have : (100 * num : ℚ) ≤ 91 * den := by exact_mod_cast hhigh
    rw [div_le_iff₀ hden0]
    push_cast
    linarith
  obtain ⟨hu_low, hu_high⟩ := f64Mul_f64Div_bounds (m := 65535) (by decide) (by decide) (by omega : 1 ≤ den) hlt hnum
    (hnum_lt.trans hlt)
  have hround := f64RoundHalfUp_eq_floor (f64Mul (f64Div (f64OfNat 65535) (f64OfNat den)) (f64OfNat num))
  rw [rescaledNum, ndMax, ← Nat.cast_le (α := ℤ), ← Nat.cast_lt (α := ℤ), hround, Int.le_floor, Int.floor_lt]
  push_cast
  constructor <;> linarith

/-- A multiplier of at most 3072 bounds the denominator from below (41_pll_solver.md R169). -/
theorem le_den_of_floor_rate_le {fin fout p : ℕ} (hfin : 1 ≤ fin) (hfin32 : fin < 2 ^ 32) (hlow : 24576000 ≤ fout)
    (hhigh : fout ≤ 98304000) (h1 : 1 ≤ p) (h7 : p ≤ 7)
    (hmul : f64Floor (f64Mul (f64Div (f64OfNat fout) (f64OfNat fin)) (f64OfNat p)) ≤ 3072) : 4096 ≤ p * fin := by
  have hrate := lt_f64Floor_add_one (f64Mul (f64Div (f64OfNat fout) (f64OfNat fin)) (f64OfNat p))
  have hmul' : (f64Floor (f64Mul (f64Div (f64OfNat fout) (f64OfNat fin)) (f64OfNat p)) : ℚ) ≤ 3072 := by exact_mod_cast hmul
  have hbound := (f64Mul_f64Div_bounds (by omega : 1 ≤ fout) (by omega) hfin (by omega) h1 (by omega)).1
  have hq : (fout * p / fin : ℚ) ≤ 4000 := by linarith
  rw [div_le_iff₀ (by positivity)] at hq
  have hexact : fout * p ≤ 4000 * fin := by exact_mod_cast hq
  have hfout : 24576000 * p ≤ fout * p := Nat.mul_le_mul_right p hlow
  exact (by omega : 4096 ≤ fin).trans (Nat.le_mul_of_pos_left fin h1)

/-- Truncating the product of the denominator and a `fract` between the thresholds stays near `0.1` to `0.9`. -/
theorem fractionInRange_of_fract {den : ℕ} {fract : Binary64} (hden : 4096 ≤ den) (hlt : den < 2 ^ 35)
    (hlow : f64Lt fract f64Tenth = false) (hhigh : f64Lt f64NineTenths fract = false) :
    fractionInRange (f64Floor (f64Mul (f64OfNat den) fract)) den := by
  rw [f64Lt_eq_false_iff] at hlow hhigh
  have hf_low : 1 / 10 ≤ f64Value fract := tenth_le_f64Tenth.trans hlow
  have hf_high : f64Value fract ≤ 9001 / 10000 := hhigh.trans f64NineTenths_le
  have hden_low : (4096 : ℚ) ≤ den := by exact_mod_cast hden
  have hden_high : (den : ℚ) ≤ 2 ^ 35 := by exact_mod_cast hlt.le
  have hq_low : den * (1 / 10) ≤ den * f64Value fract := by gcongr
  have hq_high : den * f64Value fract ≤ den * (9001 / 10000) := by gcongr
  have hnear := f64Near_f64Mul (a := f64OfNat den) (b := fract)
  rw [(f64OfNat_exact (hlt.trans (by norm_num))).1] at hnear
  obtain ⟨hv_low, hv_high⟩ := hnear (by norm_num; linarith) (by linarith)
  have hfloor := f64Floor_le (f64Mul (f64OfNat den) fract)
  have hfloor' := lt_f64Floor_add_one (f64Mul (f64OfNat den) fract)
  rw [fractionInRange, ← Nat.cast_le (α := ℚ), ← Nat.cast_le (α := ℚ)]
  push_cast
  constructor <;> linarith

/-- Settles O44: the fraction is in range before reduction, since the denominator is large and `fract` between the thresholds, and
each rounding moves it by less than one thousandth. -/
theorem binary64FractionBounds : Obligations.Binary64FractionBounds := by
  intro c fin d fout k hfin hfin32 hfout hmode hk htype
  obtain ⟨p, mul, num, h1, h7, rfl, hmul, hclass, hnum, hden⟩ := pllSolve_frac hk htype
  rw [hmode] at hmul hclass hnum hden
  have hratio : (phase2Start c fin fout Work.idle).ratio = f64Div (f64OfNat fout) (f64OfNat fin) := by
    simp only [phase2Start, hmode]
  rw [hratio] at hmul hclass
  have hfout : 24576000 ≤ fout ∧ fout ≤ 98304000 := by
    simp only [outSet, List.mem_cons, List.not_mem_nil, or_false] at hfout
    omega
  have hden_low := le_den_of_floor_rate_le hfin hfin32 hfout.1 hfout.2 h1 h7 hmul
  have hden_high : p * fin < 2 ^ 35 := by
    have := Nat.mul_le_mul_right fin h7
    omega
  obtain ⟨hlow, hhigh, rfl⟩ := classify_binary64_eq_frac_iff.mp hclass
  rw [hnum, hden]
  exact reduceFraction_bounds (by omega) (fractionInRange_of_fract hden_low hden_high hlow hhigh)
    fun _ _ hd hle => rescaledNum_binary64_bounds hd (hle.trans_lt hden_high)

/-! ## Exactness of the fraction -/

/-- The last significand bit of `n * 2 ^ x` with `n` below `2 ^ 53` is at most `2 ^ x`. -/
theorem f64Ulp_le {n : ℕ} {x : ℤ} (hn : n ≠ 0) (h : n < 2 ^ 53) (hx : -1074 ≤ x) : f64Ulp n 1 x ≤ x := by
  have hzero := f64Ulp_natCast_nonpos hn h
  unfold f64Ulp at hzero ⊢
  omega

/-- An integer below `2 ^ 53` over a power of two in the format's range is a binary64 value. -/
theorem exists_f64Value_eq {n : ℕ} {x : ℤ} (h : n < 2 ^ 53) (hx : -1074 ≤ x) (hx0 : x ≤ 0) :
    ∃ z, f64Finite z ∧ f64Value z = n * (2 : ℚ) ^ x := by
  obtain rfl | hn := eq_or_ne n 0
  · exact ⟨0#64, by decide, by simp [f64Value, f64Mant]⟩
  have hlt : (n : ℚ) * 2 ^ x < 2 ^ 1023 := by
    have h2x : (2 : ℚ) ^ x ≤ 1 := zpow_le_one_of_nonpos₀ one_le_two hx0
    have hn53 : (n : ℚ) < 2 ^ 53 := by exact_mod_cast h
    calc (n : ℚ) * 2 ^ x ≤ n * 1 := by gcongr
      _ < 2 ^ 1023 := by rw [mul_one]; exact hn53.trans (pow_lt_pow_right₀ one_lt_two (by norm_num))
  have hfin : f64Finite (f64Round n 1 x) := f64Round_finite one_ne_zero (by simpa using hlt)
  have hu := f64Ulp_le hn h hx
  have hscaled : f64Scaled n 1 x = (n <<< (x - f64Ulp n 1 x).toNat : ℕ) := by
    rw [f64Scaled, ← shiftLeft_div_shiftLeft, Int.toNat_of_nonpos (by omega : -(x - f64Ulp n 1 x) ≤ 0)]
    simp
  exact ⟨_, hfin, by rw [f64Round_exact hn one_ne_zero hfin hscaled]; simp⟩

/-- The nearest value to a value is that value. -/
theorem nearestEven_f64Value {y z : Binary64} (hz : f64Finite z) (h : nearestEven y (f64Value z)) :
    f64Value y = f64Value z := by
  have hdist := (h.2 z hz).1
  rwa [sub_self, abs_zero, abs_nonpos_iff, sub_eq_zero] at hdist

theorem f64Value_sub_f64Floor (x : Binary64) : f64Value x - f64Floor x = Int.fract (f64Value x) := by
  rw [← Int.self_sub_floor, ← f64Floor_eq_floor, Int.cast_natCast]

/-- The fraction of a value is a binary64 value: a whole number, below `2 ^ 53`, of units in its last place. -/
theorem exists_f64Value_eq_fract (x : Binary64) : ∃ z, f64Finite z ∧ f64Value z = Int.fract (f64Value x) := by
  have hmod : (f64Mant x <<< (f64Expo x).toNat) % (1 <<< (-f64Expo x).toNat) < 2 ^ 53 := by
    obtain hneg | hpos := le_or_gt (f64Expo x) 0
    · rw [Int.toNat_of_nonpos hneg, Nat.shiftLeft_zero]
      exact (Nat.mod_le _ _).trans_lt (f64Mant_lt x)
    · rw [Int.toNat_of_nonpos (by omega : -f64Expo x ≤ 0), Nat.shiftLeft_zero, Nat.mod_one]
      decide
  have hexpo := neg_1074_le_f64Expo x
  obtain ⟨z, hz, hvalue⟩ := exists_f64Value_eq hmod (x := -((-f64Expo x).toNat : ℕ)) (by omega) (by omega)
  refine ⟨z, hz, ?_⟩
  rw [hvalue, f64Value_eq_div, Int.fract_div_natCast_eq_div_natCast_mod, zpow_neg, zpow_natCast, ← div_eq_mul_inv,
    Nat.one_shiftLeft, Nat.cast_pow, Nat.cast_ofNat]

/-- Settles O47: the exact difference is a binary64 value, so the subtraction does not round it. -/
theorem fractIsExact : Obligations.FractIsExact := by
  intro rate _ hlt
  have hle := f64Floor_le rate
  have hfloor : f64Value (f64OfNat (f64Floor rate)) = f64Floor rate :=
    (f64OfNat_exact (by exact_mod_cast hle.trans_lt hlt)).1
  obtain ⟨z, hz, hvalue⟩ := exists_f64Value_eq_fract rate
  have hnear := f64Sub_nearestEven (a := rate) (b := f64OfNat (f64Floor rate))
  rw [hfloor, f64Value_sub_f64Floor, ← hvalue] at hnear
  have hsmall : f64Value z < 2 ^ 1023 := by
    rw [hvalue]
    exact (Int.fract_lt_one _).trans (one_lt_pow₀ one_lt_two (by norm_num))
  rw [nearestEven_f64Value hz (hnear hle hsmall), hvalue, f64Value_sub_f64Floor]
  exact ⟨rfl, Int.fract_nonneg _, Int.fract_lt_one _⟩

end Sys2Proof.Machine
end

section
/-! SUPPORT. The family 42_pll_start.md: the checks of PLL_START, what its sequence issues and leaves where the transport
performs it up to some point, its frame, and what can change `PLL_STATE`. -/

namespace Sys2Proof.Machine

/-! ## The device's lock between commands -/

/-- Settles O53: the pending action is the one act `lock`, which looks at `PLL_STATE` only. -/
theorem deviceTakesLock : Obligations.DeviceTakesLock := by
  intro s rest hidle hhost
  rw [step_of_idle hidle, idleStep_cons hhost, hostAct]
  refine ⟨fun hu => ?_, fun hu => ?_⟩
  · rw [envAct, if_pos hu]
  · rw [envAct, if_neg hu]

/-! ## Requests that PLL_START rejects -/

/-- The search at the start of a command finds what `pllSolve` finds. -/
theorem solveWork_begin_best (c : Cfg) (fin fout : Nat) (l : List Word) (s : State) :
    (solveWork c fin fout (beginCommand l s).w).best = (pllSolve c fin fout).map Prod.fst := by
  rw [beginCommand_w, solveWork_touched]
  simp [pllSolve, Function.comp_def]

/-- A PLL_START that ends `INVALID_PARAM` after it has changed at most the working state, with no reset before its
response. -/
theorem execPllStart_rejected {xm src sync : Byte} {fin fout : Word} {why : Reason} {w : Work} {s : State}
    (he : engineReady s) (hl : answered s)
    (hbody : withFrequencies fin fout (solveAndStart xm src sync fin fout) (beginCommand (pllTouched s.cfg fout) s) =
      .raise (.invalidParam why) (setWork w (beginCommand (pllTouched s.cfg fout) s))) :
    exec (.pllStart xm src sync fin fout) s = .next { s with
      rsp0 := statusWord (.invalidParam why) 0, rsp1 := 0#32, busy := false, w := Work.idle,
      lateResets := s.lateResets.tail } := by
  obtain ⟨hwf, hb⟩ := he
  have hend : raiseError (.invalidParam why) (setWork w (beginCommand (pllTouched s.cfg fout) s)) =
      respond (statusWord (.invalidParam why) w.step) 0#32 (dropLate (setWork w (beginCommand (pllTouched s.cfg fout) s))) :=
    conclude_answered hl _ _
  rw [exec, execPllStart, command_wf hwf, withTransport, beginCommand_transportBound, if_pos hb, hbody, endCommand, hend]
  rfl

/-- Settles O34: each check raises its error before a transaction, the third after the search. -/
theorem pllStartRejections : Obligations.PllStartRejections := by
  intro s xm src sync fin fout he hl
  refine ⟨fun hout => ?_, fun hin h0 => ?_, fun hin h0 hnone => ?_⟩
  · refine execPllStart_rejected (why := .outFreq) (w := (beginCommand (pllTouched s.cfg fout) s).w) he hl ?_
    rw [withFrequencies, beginCommand_cfg, if_neg (Bool.eq_false_iff.mp hout)]
    rfl
  · refine execPllStart_rejected (why := .inFreqZero) (w := (beginCommand (pllTouched s.cfg fout) s).w) he hl ?_
    rw [withFrequencies, beginCommand_cfg, if_pos hin, if_pos h0]
    rfl
  · have hbest := solveWork_begin_best s.cfg fin.toNat fout.toNat (pllTouched s.cfg fout) s
    rw [hnone, Option.map_none] at hbest
    refine execPllStart_rejected (why := .noConfig)
      (w := solveWork s.cfg fin.toNat fout.toNat (beginCommand (pllTouched s.cfg fout) s).w) he hl ?_
    rw [withFrequencies, beginCommand_cfg, if_pos hin, if_neg h0, solveAndStart]
    simp only [beginCommand_cfg]
    rw [hbest]

/-! ## The sequence -/

/-- The list the record gives for the first entry of `fout`. -/
theorem bypassWrites_of_entry {c : Cfg} {fout : Word} {before after : List (Word × List (Descriptor × Word))}
    {writes : List (Descriptor × Word)} (h : c.mclkBypass = before ++ (fout, writes) :: after)
    (hne : ∀ e ∈ before, e.1 ≠ fout) : bypassWrites c fout = writes := by
  have hbefore : before.find? (fun e => e.1 == fout) = none := by simpa using hne
  simp [bypassWrites, h, List.find?_append, hbefore]

theorem bypassWrites_of_unlisted {c : Cfg} {fout : Word} (hne : ∀ e ∈ c.mclkBypass, e.1 ≠ fout) :
    bypassWrites c fout = [] := by
  have hnone : c.mclkBypass.find? (fun e => e.1 == fout) = none := by simpa using hne
  simp [bypassWrites, hnone]

theorem typeCode_eq_ite (c : Cfg) (t : PllType) : typeCode c t = if t = .int then c.typeCodeInt else c.typeCodeFrac := by
  cases t <;> rfl

namespace RanSteps

variable {s t : State} {w : Work} {L : List Txn}

/-- The sequence of a PLL_START runs to its end, and no reset comes before the response. -/
theorem done (h : RanSteps (pllBegun s w) L t) (hl : answered s) :
    Done (setPllState .updated s) L 0#32 (conclude 0#32 0#32 (setStep 0 (setPllState .updated t))) := by
  have heq := h.eq
  have hlate : nextLate (setStep 0 (setPllState .updated t)) = none := by
    rw [heq]
    exact hl
  constructor
  rw [conclude_answered hlate, heq]
  rfl

/-- The sequence of a PLL_START stops at a transaction that fails, and no reset comes before the response. -/
theorem stopped (h : RanSteps (pllBegun s w) L t) (hl : answered s) (hr : (Machine.drawAt s L.length).reset = none) (x : Txn) :
    endCommand (stopAt x t) =
      .next (respond (statusWord (.transportError (Machine.drawAt s L.length).code) t.w.step) (Machine.drawAt s L.length).code
        { s with
          draws := s.draws.drop (L.length + 1), trace := s.trace ++ L ++ [x.failed (Machine.drawAt s L.length).code],
          mem := replay L s.mem, pllState := .configuring, lateResets := s.lateResets.tail }) := by
  have heq := h.eq
  have hdraw : nextDraw t = Machine.drawAt s L.length := by
    rw [← drawAt_zero, h.drawAt]
    rfl
  have hlate : nextLate (logTxn (x.failed (Machine.drawAt s L.length).code) (dropDraw t)) = none := by
    rw [heq]
    exact hl
  rw [stopAt, hdraw, hr]
  simp only [endCommand, raiseError, conclude_answered hlate, logTxn_w, dropDraw_w, errorData]
  generalize t.w.step = n
  rw [heq]
  simp [respond, dropLate, logTxn, dropDraw, pllBegun, List.tail_drop]

end RanSteps

/-- All that a PLL_START with a found configuration does where the transport performs its transactions and nothing happens
between them. -/
theorem exec_pllStart_clean {s : State} {xm src sync : Byte} {fin fout : Word} {k : PllConfig}
    (hready : pllReady s fin fout k) (hx : instrExists s.cfg (.pllStart xm src sync fin fout)) (hst : pllStable s.cfg fout)
    (hc : cleanFor (stepsCount s.cfg (startupSteps s.cfg xm src sync fout k)) s) (hl : answered s) :
    ∃ t, exec (.pllStart xm src sync fin fout) s = .next t ∧ Done (setPllState .updated s)
      ((stepsTxns s.cfg s.mem (startupSteps s.cfg xm src sync fout k)).map Prod.snd) 0#32 t := by
  obtain ⟨w, _, hexec⟩ := exec_pllStart_ready (xm := xm) (src := src) (sync := sync) hready
  obtain ⟨u, hrun, hran⟩ := (startupSteps_script hready hx hst w).clean (by rw [stepsTxns_length]; exact hc)
  refine ⟨_, ?_, hran.done hl⟩
  rw [hexec, hrun]
  rfl

/-- Settles O48: the sequence runs to its end (`Done`); its steps are the record's list for `fout` and the thirteen field
writes. -/
theorem pllStartRunsSequence : Obligations.PllStartRunsSequence := by
  refine ⟨fun s xm src sync fin fout k hready hx hst hc hl => ?_, fun c xm src sync fout k bypass hbypass => ?_⟩
  · obtain ⟨t, ht, hdone⟩ := exec_pllStart_clean hready hx hst hc hl
    refine ⟨t, ht, hdone.rsp0, hdone.rsp1, hdone.busy, ?_, hdone.trace, hdone.mem⟩
    rw [hdone.eq]
    rfl
  · have hlist : bypassWrites c fout = bypass := by
      obtain ⟨before, after, hentry, hne⟩ | ⟨rfl, hne⟩ := hbypass
      · exact bypassWrites_of_entry hentry hne
      · exact bypassWrites_of_unlisted hne
    rw [startupSteps, bypassSteps, fieldSteps, hlist, typeCode_eq_ite]

/-- `KIND` 3, no `REASON`, and the step (30_encoding.md R90). -/
theorem statusWord_transportError (code : Word) (n : Fin 15) :
    statusWord (.transportError code) n = BitVec.ofNat 32 (256 * n.val + 3) := by
  revert n
  simp only [statusWord, stepCode, reasonCode, kindCode]
  decide

/-- Settles O49: the sequence stops at its `j`-th transaction, those before it in effect. -/
theorem pllStartFailsAtTransaction : Obligations.PllStartFailsAtTransaction := by
  rintro s xm src sync fin fout k j x hready hx hst hc hj hl ⟨hacts, hreset⟩ hcode
  obtain ⟨w, _, hexec⟩ := exec_pllStart_ready (xm := xm) (src := src) (sync := sync) hready
  obtain ⟨hlt, rfl⟩ := List.getElem?_eq_some_iff.mp hj
  obtain ⟨u, hran, hstep, hrun⟩ := (startupSteps_script hready hx hst w).stop j hlt hc hacts fun _ => hcode
  have htake : (((stepsTxns s.cfg s.mem (startupSteps s.cfg xm src sync fout k)).take j).map Prod.snd).length = j := by
    rw [List.length_map, List.length_take, Nat.min_eq_left hlt.le]
  have hstop := hran.stopped hl (by rwa [htake])
  rw [htake, hstep] at hstop
  exact ⟨_, by rw [hexec, hrun, stopAt_bind, hstop], statusWord_transportError _ _, rfl, rfl, rfl, rfl, rfl⟩

/-! ## What the sequence leaves in the fields -/

/-- The transactions of a field write are those whose reads return what the registers hold. -/
theorem writeTxnsOf_fieldStored (c : Cfg) (m : Memory) (a : Word) (bs bc : Nat) (v : Word) :
    writeTxnsOf c a bs bc v (fieldStored c m a) = writeTxns c m a bs bc v := by
  unfold writeTxnsOf writeTxns
  cases hr : regimeOf c a with
  | byte =>
    have hval : ∀ j, j < regCount bs bc → fieldStored c m a j = regGet m .byte (addrAt a j) :=
      fun j _ => fieldStored_byte hr j
    simp only
    rw [readsFrom_stable m a _ _ hval, leSum_range m a _ _ hval]
    simp only [writesFrom, newByte, ← List.range_eq_range']
  | word => simp only [fieldStored_word hr, fieldStored_span hr, readTxn]

theorem descriptorOk_iff {d : Descriptor} : descriptorOk d = true ↔ d.bs ≤ 31 ∧ 1 ≤ d.bc ∧ d.bc ≤ 32 := by
  simp [descriptorOk, and_assoc]

section fields

variable {c : Cfg} {d e : Descriptor} {v : Word} {m : Memory}

/-- A write of a field leaves its value there. -/
theorem fieldBit_write_same (hwf : m.wf) (hd : descriptorOk d = true) (v : Word) {j : Nat} (hj : j < d.bc) :
    fieldBit c (replay (writeTxns c m d.addr d.bs d.bc v) m) d.addr d.bs j = v.getLsbD j := by
  obtain ⟨hbs, -, hbc⟩ := descriptorOk_iff.mp hd
  rw [← writeTxnsOf_fieldStored]
  exact write_field_bit hwf hbs hbc hj

/-- A write of a field leaves the bits of a field that is disjoint from it. -/
theorem fieldBit_write_disjoint (hwf : m.wf) (he : descriptorOk e = true) (hdis : fieldsDisjoint c d e) (v : Word) {j : Nat}
    (hj : j < d.bc) :
    fieldBit c (replay (writeTxns c m e.addr e.bs e.bc v) m) d.addr d.bs j = fieldBit c m d.addr d.bs j := by
  obtain ⟨hbs, h1, hbc⟩ := descriptorOk_iff.mp he
  rw [← writeTxnsOf_fieldStored]
  refine write_other_bit hwf hbs h1 hbc (fun hr i _ => fieldStored_byte hr i)
    (fun hr => ⟨fieldStored_word hr, fun _ => fieldStored_span hr⟩) (fun hr i => ?_) fun i hi => (hdis j hj i hi).symm
  rw [fieldStored_byte hr, regGet, BitVec.toNat_setWidth]
  omega

/-- The transactions of a sequence leave what those of its first step and then those of the other steps leave. -/
theorem replay_stepsTxns_cons (c : Cfg) (m : Memory) (n : Fin 15) (d : Descriptor) (v : Word)
    (rest : List (Fin 15 × Descriptor × Word)) :
    replay ((stepsTxns c m ((n, d, v) :: rest)).map Prod.snd) m =
      replay ((stepsTxns c (replay (writeTxns c m d.addr d.bs d.bc v) m) rest).map Prod.snd)
        (replay (writeTxns c m d.addr d.bs d.bc v) m) := by
  simp [stepsTxns, replay_append, Function.comp_def]

/-- Steps whose fields are disjoint from a field leave its bits. -/
theorem fieldBit_steps_disjoint {steps : List (Fin 15 × Descriptor × Word)} (hwf : m.wf)
    (hok : ∀ x ∈ steps, descriptorOk x.2.1 = true) (hdis : ∀ x ∈ steps, fieldsDisjoint c d x.2.1) {j : Nat}
    (hj : j < d.bc) :
    fieldBit c (replay ((stepsTxns c m steps).map Prod.snd) m) d.addr d.bs j = fieldBit c m d.addr d.bs j := by
  induction steps generalizing m with
  | nil => rfl
  | cons x rest ih =>
    obtain ⟨n, e, v⟩ := x
    rw [replay_stepsTxns_cons,
      ih (replay_wf hwf _) (fun y hy => hok y (by simp [hy])) (fun y hy => hdis y (by simp [hy]))]
    exact fieldBit_write_disjoint hwf (hok (n, e, v) (by simp)) (hdis (n, e, v) (by simp)) v hj

/-- After a sequence, the field of a step that no later step's field meets holds that step's value. -/
theorem fieldBit_steps_last {before after : List (Fin 15 × Descriptor × Word)} {n : Fin 15} (hwf : m.wf)
    (hok : ∀ x ∈ before ++ (n, d, v) :: after, descriptorOk x.2.1 = true) (hdis : ∀ x ∈ after, fieldsDisjoint c d x.2.1)
    {j : Nat} (hj : j < d.bc) :
    fieldBit c (replay ((stepsTxns c m (before ++ (n, d, v) :: after)).map Prod.snd) m) d.addr d.bs j = v.getLsbD j := by
  induction before generalizing m with
  | nil =>
    rw [List.nil_append, replay_stepsTxns_cons,
      fieldBit_steps_disjoint (replay_wf hwf _) (fun x hx => hok x (by simp [hx])) hdis hj]
    exact fieldBit_write_same hwf (hok (n, d, v) (by simp)) v hj
  | cons x rest ih =>
    obtain ⟨n', e, v'⟩ := x
    rw [List.cons_append, replay_stepsTxns_cons]
    exact ih (replay_wf hwf _) fun y hy => hok y (List.mem_cons_of_mem _ hy)

/-- After a sequence, every field of a part of it holds its step's value, where the fields of that part are disjoint from
each other and from those of the steps after it. -/
theorem fieldBit_steps_of_pairwise {before part after : List (Fin 15 × Descriptor × Word)} (hwf : m.wf)
    (hok : ∀ x ∈ before ++ part ++ after, descriptorOk x.2.1 = true)
    (hpart : part.Pairwise fun x y => fieldsDisjoint c x.2.1 y.2.1)
    (hafter : ∀ x ∈ part, ∀ y ∈ after, fieldsDisjoint c x.2.1 y.2.1) {n : Fin 15} (hmem : (n, d, v) ∈ part) {j : Nat}
    (hj : j < d.bc) :
    fieldBit c (replay ((stepsTxns c m (before ++ part ++ after)).map Prod.snd) m) d.addr d.bs j = v.getLsbD j := by
  obtain ⟨first, last, rfl⟩ := List.append_of_mem hmem
  have hsteps : before ++ (first ++ (n, d, v) :: last) ++ after = (before ++ first) ++ (n, d, v) :: (last ++ after) := by
    simp
  rw [hsteps] at hok ⊢
  obtain ⟨-, hlater, -⟩ := List.pairwise_append.mp hpart
  refine fieldBit_steps_last hwf hok (fun x hx => ?_) hj
  rcases List.mem_append.mp hx with hx | hx
  · exact (List.pairwise_cons.mp hlater).1 x hx
  · exact hafter _ hmem x hx

end fields

/-- Steps 1 to 4, whose fields R217 says nothing of. -/
def preparingSteps (c : Cfg) (xm : Byte) (fout : Word) : List (Fin 15 × Descriptor × Word) :=
  bypassSteps c fout ++ [(2, c.pllPwr, c.pllPwrOff), (3, c.xtalPwr, c.xtalPwrOn), (4, c.xtalMode, xm.setWidth 32)]

/-- Steps 5 to 12, each the last write of its field. -/
def configuringSteps (c : Cfg) (src sync : Byte) (k : PllConfig) : List (Fin 15 × Descriptor × Word) :=
  [(5, c.pllSrc, src.setWidth 32), (6, c.pllType, typeCode c k.type), (7, c.syncSrc, sync.setWidth 32),
   (8, c.prescaler, BitVec.ofNat 32 k.p), (9, c.mult, BitVec.ofNat 32 k.mul), (10, c.num, BitVec.ofNat 32 k.num),
   (11, c.den, BitVec.ofNat 32 k.den), (12, c.pllPwr, c.pllPwrOn)]

/-- Steps 13 and 14, the update pulse (42_pll_start.md R211). -/
def updateSteps (c : Cfg) : List (Fin 15 × Descriptor × Word) := [(13, c.update, 1#32), (14, c.update, 0#32)]

theorem startupSteps_eq_append (c : Cfg) (xm src sync : Byte) (fout : Word) (k : PllConfig) :
    startupSteps c xm src sync fout k = preparingSteps c xm fout ++ configuringSteps c src sync k ++ updateSteps c := by
  simp [startupSteps, fieldSteps, preparingSteps, configuringSteps, updateSteps]

/-- After the sequence the PLL fields hold the values of the last steps that write them: no later step meets the field of a
step from 5 to 12, and step 14 is the last. -/
theorem fieldBit_startupSteps {c : Cfg} {xm src sync : Byte} {fout : Word} {k : PllConfig} {m : Memory} (hwf : m.wf)
    (hok : ∀ x ∈ startupSteps c xm src sync fout k, descriptorOk x.2.1 = true)
    (hdis : ((configuringSteps c src sync k).map (·.2.1) ++ [c.update]).Pairwise (fieldsDisjoint c)) {d : Descriptor}
    {v : Word} (hdv : (d, v) ∈ (configuringSteps c src sync k).map Prod.snd ++ [(c.update, 0#32)]) {j : Nat} (hj : j < d.bc) :
    fieldBit c (replay ((stepsTxns c m (startupSteps c xm src sync fout k)).map Prod.snd) m) d.addr d.bs j = v.getLsbD j := by
  obtain ⟨hpart, -, hupdate⟩ := List.pairwise_append.mp hdis
  rw [startupSteps_eq_append] at hok ⊢
  rcases List.mem_append.mp hdv with hdv | hdv
  · obtain ⟨⟨n, _⟩, hn, rfl⟩ := List.mem_map.mp hdv
    refine fieldBit_steps_of_pairwise hwf hok (List.pairwise_map.mp hpart) (fun x hx y hy => ?_) hn hj
    have hy' : y.2.1 = c.update := by
      rcases List.mem_pair.mp hy with rfl | rfl <;> rfl
    exact hupdate _ (List.mem_map_of_mem hx) _ (List.mem_singleton.mpr hy')
  · obtain ⟨rfl, rfl⟩ := Prod.mk.inj (List.mem_singleton.mp hdv)
    have hlast : updateSteps c = [(13, c.update, 1#32)] ++ (14, c.update, 0#32) :: [] := rfl
    rw [hlast, ← List.append_assoc] at hok ⊢
    exact fieldBit_steps_last hwf hok (fun _ hx => absurd hx List.not_mem_nil) hj

/-- Settles O50: what the sequence leaves in the fields, where it runs to its end (`Done`). -/
theorem pllFieldsHoldConfiguration : Obligations.PllFieldsHoldConfiguration := by
  intro s xm src sync fin fout k hready hwf hx hst hc hl hdis
  obtain ⟨t, ht, hdone⟩ := exec_pllStart_clean hready hx hst hc hl
  refine ⟨t, ht, hdone.rsp0, fun d v hdv j hj => ?_⟩
  rw [hdone.mem]
  exact fieldBit_startupSteps hwf (fun _ hm => descriptorOk_of_wf hready.1.1 (startupSteps_descriptor hm)) hdis hdv hj

/-! ## The frame -/

/-- A command that ends where one of some predicates holds ends for one of them. -/
theorem Ended.of_exists {α : Sort*} {P : α → State → Prop} {t : State} (h : Ended (fun u => ∃ x, P x u) t) :
    ∃ x, Ended (P x) t := by
  cases h with
  | value v u hu ht => exact hu.imp fun _ hx => .value v u hx ht
  | error e u he hu ht => exact hu.imp fun _ hx => .error e u he hx ht
  | abandoned req u hu hr ht => exact hu.imp fun _ hx => .abandoned req u hx hr ht

/-- What each of some predicates keeps, their disjunction keeps. -/
theorem closed_exists {α : Sort*} {B A : Regime → Word → Prop} {P : α → State → Prop} (h : ∀ x, Closed B A (P x)) :
    Closed B A fun u => ∃ x, P x u where
  before u hu := hu.imp fun x => (h x).before u
  read u r a v hB hr hu := hu.imp fun x => (h x).read u r a v hB hr
  readFailed u r a code hB hr hu := hu.imp fun x => (h x).readFailed u r a code hB hr
  write u r a v hA hr hu := hu.imp fun x => (h x).write u r a v hA hr
  writeFailed u r a v code hA hr hu := hu.imp fun x => (h x).writeFailed u r a v code hA hr
  work u w hu := hu.imp fun x => (h x).work u w

theorem Framed.setPllState {Q : Memory → Prop} {s u : State} (h : Framed Q s u) (x : PllState) :
    Framed Q (setPllState x s) (setPllState x u) :=
  ⟨h.undisturbed, h.mem, h.req, h.transportBound, h.cfg, rfl, h.host⟩

/-- What a PLL_START that no reset meets can make of `PLL_STATE` (42_pll_start.md R213). -/
def movedByStart (x y : PllState) : Prop := y = x ∨ y = .configuring ∨ y = .updated

/-- The register spaces that agree with `m` outside the registers of an instruction. -/
def AgreesOutsideOf (c : Cfg) (i : Instr) (m m' : Memory) : Prop :=
  ∀ r x, (r, x) ∉ instrTouches c i → regGet m' r x = regGet m r x

/-- Settles O51: the engine writes only registers of the sequence, and moves `PLL_STATE` as R213 says. -/
theorem pllStartFrame : Obligations.PllStartFrame := by
  intro s t xm src sync fin fout hs ht
  have hclosed : ∀ x : { x // movedByStart s.pllState x },
      Closed (fun r a => (r, a) ∈ instrTouches s.cfg (.pllStart xm src sync fin fout))
        (fun r a => (r, a) ∈ instrTouches s.cfg (.pllStart xm src sync fin fout))
        (Framed (AgreesOutsideOf s.cfg (.pllStart xm src sync fin fout) s.mem) (setPllState x s)) := fun x =>
    framed_closed fun m r a v hA hm q z hz =>
      (regGet_regSet_other m r q a z v fun he => hz (he ▸ hA)).trans (hm q z hz)
  have hend := exec_post (.pllStart xm src sync fin fout) (closed_exists hclosed) (fun u ⟨_, hu⟩ => hu.cfg)
    (fun u x hx ⟨_, hu⟩ => ⟨⟨x, .inr hx⟩, hu.setPllState x⟩)
    (fun l => ⟨⟨s.pllState, .inl rfl⟩, Framed.begin (s := s) hs (fun _ _ _ => rfl) l⟩) ht
  obtain ⟨⟨x, hx⟩, hend⟩ := hend.of_exists
  obtain ⟨hmem, hreq, htransport, hcfg, hpll, hhost⟩ := hend.framed
  exact ⟨hmem, hreq, htransport, hcfg, hhost, hpll ▸ hx⟩

/-! ## What can change `PLL_STATE` -/

/-- What the device on its own can make of `PLL_STATE` (42_pll_start.md R214). -/
def movedByDevice (x y : PllState) : Prop := y = x ∨ (x = .updated ∧ y = .locked)

theorem envAct_pllState (s : State) (e : EnvAct) : movedByDevice s.pllState (envAct s e).pllState := by
  rcases envAct_cases s e with h | ⟨_, _, _, _, h, _⟩ | ⟨hu, h⟩ <;> rw [h]
  · exact .inl rfl
  · exact .inl rfl
  · exact .inr ⟨hu, rfl⟩

theorem beforeTxn_pllState (s : State) : movedByDevice s.pllState (beforeTxn s).pllState := by
  refine foldl_envAct (P := fun u => movedByDevice s.pllState u.pllState) (fun u e hu => ?_) _ _ (.inl rfl)
  rcases hu with hu | ⟨hs, hu⟩ <;> rcases envAct_pllState u e with h | ⟨h', h⟩
  · exact .inl (h.trans hu)
  · exact .inr ⟨hu ▸ h', h⟩
  · exact .inr ⟨hs, h.trans hu⟩
  · exact .inr ⟨hs, h⟩

/-- `u` is a state inside a command that runs from `s`: `PLL_STATE` is one that `Q` allows, and a reset is coming only
where one was. -/
structure PllRun (Q : PllState → Prop) (s u : State) : Prop where
  pllState : Q u.pllState
  cfg : u.cfg = s.cfg
  noReset : noResetComing s → noResetComing u

section pllRun

variable {Q : PllState → Prop} {s t u : State}

theorem PllRun.begin (hQ : Q s.pllState) (l : List Word) : PllRun Q s (beginCommand l s) := ⟨hQ, rfl, id⟩

/-- The engine's transactions leave `PLL_STATE`, so `Q` has to allow the device's lock only. -/
theorem pllRun_closed (hQ : Q .updated → Q .locked) : Closed (fun _ _ => True) (fun _ _ => True) (PllRun Q s) where
  before u h := by
    refine ⟨?_, (beforeTxn_cfg u).trans h.cfg,
      fun hs => noResetComing_of_tail (h.noReset hs) (by simp) (by simp) (by simp)⟩
    rcases beforeTxn_pllState u with hu | ⟨hup, hu⟩ <;> rw [hu]
    · exact h.pllState
    · exact hQ (hup ▸ h.pllState)
  read _ _ _ _ _ _ h := ⟨h.pllState, h.cfg, h.noReset⟩
  readFailed _ _ _ _ _ _ h := ⟨h.pllState, h.cfg, h.noReset⟩
  write _ _ _ _ _ _ h := ⟨h.pllState, h.cfg, h.noReset⟩
  writeFailed _ _ _ _ _ _ _ h := ⟨h.pllState, h.cfg, h.noReset⟩
  work _ _ h := ⟨h.pllState, h.cfg, h.noReset⟩

/-- A command leaves `PLL_STATE` as its run does, or a reset has come. -/
theorem Ended.pllState (h : Ended (PllRun Q s) t) :
    Q t.pllState ∨ (t.pllState = .unconfigured ∧ ¬ noResetComing s) := by
  obtain ⟨u, hu, ⟨a, b, _, rfl⟩ | ⟨req, hr, rfl⟩⟩ := h.concluded_or_reset
  · rcases conclude_cases a b u with ⟨_, hc⟩ | ⟨req, hn, hc⟩ <;> rw [hc]
    · exact .inl hu.pllState
    · refine .inr ⟨rfl, fun hs => ?_⟩
      simp [nextLate_of_noResetComing (hu.noReset hs)] at hn
  · refine .inr ⟨rfl, fun hs => ?_⟩
    simp [nextDraw_reset_of_noResetComing (hu.noReset hs)] at hr

/-- A part that keeps `P`, then one that from `P` comes to `P'`. -/
theorem Res.post_bind_of_imp {α β : Type} {x : Res α} {f : α → State → Res β} {P P' : State → Prop} (hx : x.post P)
    (hP : ∀ s, P s → P' s) (hf : ∀ a s, P s → (f a s).post P') : (x.bind f).post P' := by
  cases x with
  | ok a s => exact hf a s hx
  | raise e s => exact ⟨hP s hx.1, hx.2⟩
  | abandoned s =>
    obtain ⟨req, s0, h0, hr, hs⟩ := hx
    exact ⟨req, s0, hP s0 h0, hr, hs⟩
  | fault g => trivial

/-- While the sequence runs `PLL_STATE` is `Configuring`, so the device takes no lock; `Updated` comes after the last
transaction. -/
theorem solveAndStart_pllRun (xm src sync : Byte) (fin fout : Word) (h : PllRun (· = s.pllState) s u) :
    (solveAndStart xm src sync fin fout u).post (PllRun (movedByStart s.pllState) s) := by
  unfold solveAndStart
  simp only
  split
  · exact ⟨⟨.inl h.pllState, h.cfg, h.noReset⟩, trivial⟩
  · refine Res.post_bind_of_imp (P := PllRun (· = .configuring) s)
      (runSteps_post (pllRun_closed nofun) (fun _ hv => hv.cfg) _ (fun _ _ _ _ => trivial) (fun _ _ _ _ => trivial)
        ⟨rfl, h.cfg, h.noReset⟩) (fun v hv => ?_) fun _ v hv => ?_
    · exact ⟨.inr (.inl hv.pllState), hv.cfg, hv.noReset⟩
    · exact ⟨.inr (.inr rfl), hv.cfg, hv.noReset⟩

end pllRun

/-- All that an instruction can make of `PLL_STATE`, but for a reset. -/
theorem exec_pllRun {i : Instr} {s t : State} (ht : exec i s = .next t) :
    Ended (PllRun (movedByDevice s.pllState) s) t ∨
    (∃ xm src sync fin fout, i = .pllStart xm src sync fin fout) ∧ Ended (PllRun (movedByStart s.pllState) s) t := by
  have hlock : movedByDevice s.pllState .updated → movedByDevice s.pllState .locked := fun h =>
    .inr ⟨h.elim Eq.symm fun hl => hl.1, rfl⟩
  have hclosed := pllRun_closed (s := s) hlock
  have hbegin := PllRun.begin (Q := movedByDevice s.pllState) (s := s) (.inl rfl)
  have read : ∀ a bs bc, readCommand a bs bc s = .next t → Ended (PllRun (movedByDevice s.pllState) s) t := fun a bs bc =>
    readCommand_post hclosed a bs bc (fun _ _ => trivial) (hbegin _)
  have write : ∀ a bs bc v, writeCommand a bs bc v s = .next t → Ended (PllRun (movedByDevice s.pllState) s) t :=
    fun a bs bc v => writeCommand_post hclosed a bs bc v (fun _ _ => trivial) (fun _ _ => trivial) (hbegin _)
  cases i with
  | bfRead a bs bc => exact .inl (read _ _ _ ht)
  | rd8 a => exact .inl (read _ _ _ ht)
  | rd32 a => exact .inl (read _ _ _ ht)
  | bfWrite a bs bc v => exact .inl (write _ _ _ _ ht)
  | wr8 a v => exact .inl (write _ _ _ _ ht)
  | wr32 a v => exact .inl (write _ _ _ _ ht)
  | bset a bs => exact .inl (write _ _ _ _ ht)
  | bclr a bs => exact .inl (write _ _ _ _ ht)
  | pllStart xm src sync fin fout =>
    have hstart := PllRun.begin (Q := movedByStart s.pllState) (s := s) (.inl rfl)
    refine .inr ⟨⟨_, _, _, _, _, rfl⟩, ?_⟩
    refine command_next (withTransport_post (hstart _) (withFrequencies_post fin fout (hstart _) ?_)) ht
    exact solveAndStart_pllRun xm src sync fin fout (PllRun.begin (Q := (· = s.pllState)) rfl _)

/-- The request of `s` is a PLL_START, and it is started. -/
def startsPll (s : State) : Prop :=
  s.busy = true ∧ ∃ xm src sync fin fout, decode s.req = .instr (.pllStart xm src sync fin fout)

/-- A reset may arrive in a step from `s`: drawn in a command, or the host's action. -/
def mayReset (s : State) : Prop :=
  (s.busy = true ∧ ¬ noResetComing s) ∨ (s.busy = false ∧ ∃ req rest, s.host = .reset req :: rest)

/-- What one step from `s` can make of `PLL_STATE`. -/
inductive PllMove (s : State) (x : PllState) : Prop where
  | kept (hx : x = s.pllState)
  | locked (hs : s.pllState = .updated) (hx : x = .locked)
  | started (hs : startsPll s) (hx : x = .configuring ∨ x = .updated)
  | reset (hs : mayReset s) (hx : x = .unconfigured)

theorem PllMove.of_device {s : State} {x : PllState} (h : movedByDevice s.pllState x) : PllMove s x := by
  rcases h with h | ⟨hs, h⟩
  · exact .kept h
  · exact .locked hs h

theorem PllMove.of_start {s : State} {x : PllState} (hs : startsPll s) (h : movedByStart s.pllState x) : PllMove s x := by
  rcases h with h | h
  · exact .kept h
  · exact .started hs h

/-- A command moves `PLL_STATE` as its run does, or by a reset. -/
theorem PllMove.of_ended {Q : PllState → Prop} {s t : State} (hbusy : s.busy = true)
    (hQ : ∀ x, Q x → PllMove s x) (h : Ended (PllRun Q s) t) : PllMove s t.pllState := by
  rcases h.pllState with h | ⟨hx, hs⟩
  · exact hQ _ h
  · exact .reset (.inl ⟨hbusy, hs⟩) hx

theorem idleStep_pllMove {s : State} (hidle : s.busy = false) : PllMove s (idleStep s).pllState := by
  cases hhost : s.host with
  | nil => exact .kept (by rw [idleStep_nil hhost])
  | cons act rest =>
    rw [idleStep_cons hhost]
    cases act with
    | setReq _ _ => exact .kept rfl
    | start => exact .kept rfl
    | bind _ => exact .kept rfl
    | env e => exact .of_device (envAct_pllState { s with host := rest } e)
    | reset req => exact .reset (.inr ⟨hidle, req, rest, hhost⟩) rfl

theorem runRequest_pllMove {s t : State} (hbusy : s.busy = true) (ht : runRequest s = .next t) : PllMove s t.pllState := by
  have rejected : ∀ why, rejectRequest why s = .next t → PllMove s t.pllState := fun why h =>
    .of_ended (Q := movedByDevice s.pllState) hbusy (fun _ => .of_device)
      (.error (.invalidParam why) _ trivial (PllRun.begin (.inl rfl) []) (rejectRequest_next h))
  unfold runRequest at ht
  split at ht
  · next i hi =>
    rcases exec_pllRun ht with hend | ⟨⟨xm, src, sync, fin, fout, rfl⟩, hend⟩
    · exact .of_ended hbusy (fun _ => .of_device) hend
    · exact .of_ended hbusy (fun _ => .of_start ⟨hbusy, xm, src, sync, fin, fout, hi⟩) hend
  · exact rejected _ ht
  · exact rejected _ ht

theorem step_pllMove {s t : State} (ht : step s = .next t) : PllMove s t.pllState := by
  cases hbusy : s.busy with
  | false =>
    rw [step_of_idle hbusy] at ht
    exact Host.Outcome.next.inj ht ▸ idleStep_pllMove hbusy
  | true => exact runRequest_pllMove hbusy (step_of_busy hbusy ▸ ht)

/-- Settles O52: the four ways a step can move `PLL_STATE`, clause by clause. -/
theorem pllStateTransitions : Obligations.PllStateTransitions := by
  intro s t ht
  cases step_pllMove ht with
  | kept hx => exact ⟨fun h => .inl (hx ▸ h), fun _ => .inl hx, fun h => .inl (hx ▸ h)⟩
  | locked hs hx => simp [hs, hx]
  | started hs hx => exact ⟨fun h => by simp [h] at hx, fun _ => .inr hs, fun h => by simp [h] at hx⟩
  | reset hs hx => exact ⟨fun h => by simp [h] at hx, fun h => by simp [hx] at h, fun _ => .inr hs⟩

end Sys2Proof.Machine
end

section
/-! SUPPORT. The family 60_exceptions.md: the check that a transport is attached, which every instruction makes first. -/

namespace Sys2Proof.Machine

/-- With no transport attached the check ends a command, whatever follows it (60_exceptions.md R236 (3), R237 (3)). -/
theorem withTransport_unbound {body : State → Res Word} {s : State} (hb : s.transportBound = false) :
    withTransport body s = .raise .nullParam s := if_neg (Bool.eq_false_iff.mp hb)

/-- Every instruction's meaning is one whole command whose first check is that a transport is attached. -/
theorem exec_eq_withTransport (i : Instr) (s : State) :
    ∃ touched body, exec i s = command touched (withTransport body) s := by
  cases i <;> exact ⟨_, _, rfl⟩

/-- Settles O32: the transport is every instruction's first check, so the command ends before it does anything. -/
theorem unboundTransportEndsNullParam : Obligations.UnboundTransportEndsNullParam := by
  intro i s hwf hb hl
  obtain ⟨touched, body, hexec⟩ := exec_eq_withTransport i s
  have hcheck : withTransport body (beginCommand touched s) = .raise .nullParam (beginCommand touched s) :=
    withTransport_unbound hb
  rw [hexec, command_raise_answered hwf hl hcheck]
  rfl

end Sys2Proof.Machine
end

section
/-! SUPPORT. The family 70_reset_and_hazards.md: a reset that arrives while a command runs. Every started request is one
command whose parts go the same way with and without the reset up to the point at which it comes (`ComparedAs`). -/

namespace Sys2Proof.Machine

/-! ## A reset at a transaction of a known list -/

/-- What a reset just before a transaction leaves of a command that has issued the transactions `L`. -/
def abandonedAfter (req : Request) (L : List Txn) (s : State) : State :=
  resetEngine req { s with draws := s.draws.drop (L.length + 1), trace := s.trace ++ L, mem := replay L s.mem }

/-- The engine after a reset is in its reset state, whatever the command had done (10_state.md R38, R40, R41). -/
theorem resetEngine_abandonedBy {s u : State} (req : Request) (hcfg : u.cfg = s.cfg)
    (hbound : u.transportBound = s.transportBound) : abandonedBy req s (resetEngine req u) :=
  ⟨rfl, rfl, rfl, rfl, rfl, rfl, hcfg, hbound⟩

theorem abandonedAfter_abandonedBy (req : Request) (L : List Txn) (s : State) :
    abandonedBy req s (abandonedAfter req L s) := resetEngine_abandonedBy req rfl rfl

section stops

variable {s t : State} {L : List Txn} {req : Request}

theorem stopped_of_reset (hr : (drawAt s L.length).reset = some req) (n : Fin 15) (x : Txn) :
    stopped s L n x = abandonedAfter req L s := by
  simp only [stopped, hr]
  rfl

/-- The sequence of a PLL_START stops at a transaction before which a reset arrives. -/
theorem RanSteps.abandoned {w : Work} (h : RanSteps (pllBegun s w) L t) (hr : (Machine.drawAt s L.length).reset = some req)
    (x : Txn) : endCommand (stopAt x t) = .next (abandonedAfter req L s) := by
  have heq := h.eq
  have hdraw : nextDraw t = Machine.drawAt s L.length := by
    rw [← drawAt_zero, h.drawAt]
    rfl
  rw [stopAt, hdraw, hr, endCommand, heq]
  simp [abandonedAfter, resetEngine, dropDraw, pllBegun, List.tail_drop]

end stops

/-- A reset before the `k`-th transaction of a reading instruction. -/
theorem exec_read_reset {i : Instr} {s : State} {a : Word} {bs bc k : Nat} {req : Request}
    (h : readOperands i = some (a, bs, bc)) (hready : readReady s a bs bc) (hk : k < readCount s.cfg a bs bc)
    (hc : cleanFor k s) (ha : (drawAt s k).acts = []) (hr : (drawAt s k).reset = some req) :
    exec i s = .next (abandonedAfter req ((readTxns s.cfg s.mem a bs bc).take k) s) := by
  obtain ⟨he, h1, h32, hx, hst⟩ := hready
  have hstop := exec_read_stop h he h1 h32 hx hk hc ha fun hnone => by simp [hr] at hnone
  simp only [readTxnsOf_stable hst] at hstop
  have htake : ((readTxns s.cfg s.mem a bs bc).take k).length = k := by
    rw [List.length_take, readTxns_length, Nat.min_eq_left hk.le]
  rw [hstop, stopped_of_reset (by rwa [htake])]

/-- A reset before the `k`-th transaction of a writing instruction. -/
theorem exec_write_reset {i : Instr} {s : State} {a : Word} {bs bc k : Nat} {v : Word} {req : Request}
    (h : writeOperands i = some (a, bs, bc, v)) (hready : accessReady s a bs bc) (hst : fieldStable s.cfg a bs bc)
    (hk : k < writeCount s.cfg a bs bc) (hc : cleanFor k s) (ha : (drawAt s k).acts = [])
    (hr : (drawAt s k).reset = some req) :
    exec i s = .next (abandonedAfter req ((writeTxns s.cfg s.mem a bs bc v).take k) s) := by
  have hstop := exec_write_stop h hready hk hc ha fun hnone => by simp [hr] at hnone
  simp only [writeTxnsOf_stable v hst] at hstop
  have htake : ((writeTxns s.cfg s.mem a bs bc v).take k).length = k := by
    rw [List.length_take, writeTxns_length, Nat.min_eq_left hk.le]
  rw [hstop, stopped_of_reset (by rwa [htake])]

/-- A reset before the `k`-th transaction of a PLL_START. -/
theorem exec_pllStart_reset {s : State} {xm src sync : Byte} {fin fout : Word} {c : PllConfig} {k : Nat} {req : Request}
    (hready : pllReady s fin fout c) (hx : instrExists s.cfg (.pllStart xm src sync fin fout)) (hst : pllStable s.cfg fout)
    (hk : k < stepsCount s.cfg (startupSteps s.cfg xm src sync fout c)) (hc : cleanFor k s) (ha : (drawAt s k).acts = [])
    (hr : (drawAt s k).reset = some req) :
    exec (.pllStart xm src sync fin fout) s = .next (abandonedAfter req
      (((stepsTxns s.cfg s.mem (startupSteps s.cfg xm src sync fout c)).take k).map Prod.snd) s) := by
  obtain ⟨w, _, hexec⟩ := exec_pllStart_ready (xm := xm) (src := src) (sync := sync) hready
  obtain ⟨u, hran, _, hrun⟩ := (startupSteps_script hready hx hst w).stop k (by rwa [stepsTxns_length]) hc ha
    fun hnone => absurd (hr.symm.trans hnone) (by simp)
  have htake : (((stepsTxns s.cfg s.mem (startupSteps s.cfg xm src sync fout c)).take k).map Prod.snd).length = k := by
    rw [List.length_map, List.length_take, stepsTxns_length, Nat.min_eq_left hk.le]
  rw [hexec, hrun, stopAt_bind, hran.abandoned (by rwa [htake])]

/-! ## Every started request can be compared with a run that no reset meets -/

/-- In the states with `p`, `f` is one command, whose body looks neither at the resets before the responses nor, up to the
transaction at which a reset comes, at the draws from there on. -/
structure ComparedAs (p : State → Prop) (f : State → Host.Outcome State Fault Refusal) (touched : List Word)
    (body : State → Res Word) : Prop where
  late : LateFree body
  meets : ∀ req o, Meets req o body
  command : ∀ s, p s → f s = command touched body s

theorem ComparedAs.congr {p q : State → Prop} {f g : State → Host.Outcome State Fault Refusal} {touched : List Word}
    {body : State → Res Word} (h : ComparedAs p f touched body) (hpq : ∀ s, q s → p s ∧ g s = f s) :
    ComparedAs q g touched body :=
  ⟨h.late, h.meets, fun s hs => (hpq s hs).2.trans (h.command s (hpq s hs).1)⟩

section commands

variable (c : Cfg)

theorem readCommand_comparedAs (a : Word) (bs bc : Nat) :
    ComparedAs (·.cfg = c) (readCommand a bs bc) (touchedBy c a bs bc)
      (withTransport (withBitCount bc (readField a bs bc))) where
  late := withTransport_lateFree (withBitCount_lateFree bc (readField_lateFree a bs bc))
  meets _ _ := withTransport_meets (withBitCount_meets bc (readField_meets a bs bc))
  command s hs := by rw [← hs]; rfl

theorem writeCommand_comparedAs (a : Word) (bs bc : Nat) (v : Word) :
    ComparedAs (·.cfg = c) (writeCommand a bs bc v) (touchedBy c a bs bc)
      (withTransport (withBitCount bc fun s => (writeField a bs bc v s).bind fun _ s => .ok 0#32 s)) where
  late := withTransport_lateFree (withBitCount_lateFree bc ((writeField_lateFree a bs bc v).bind fun _ _ _ => rfl))
  meets _ _ :=
    withTransport_meets (withBitCount_meets bc ((writeField_meets a bs bc v).bind fun _ _ _ ht => .ok ht))
  command s hs := by rw [← hs]; rfl

theorem execPllStart_comparedAs (xm src sync : Byte) (fin fout : Word) :
    ComparedAs (·.cfg = c) (execPllStart xm src sync fin fout) (pllTouched c fout)
      (withTransport (withFrequencies fin fout (solveAndStart xm src sync fin fout))) where
  late := withTransport_lateFree (withFrequencies_lateFree fin fout (solveAndStart_lateFree xm src sync fin fout))
  meets _ _ := withTransport_meets (withFrequencies_meets fin fout (solveAndStart_meets xm src sync fin fout))
  command s hs := by rw [← hs]; rfl

theorem rejectRequest_comparedAs (why : Reason) :
    ComparedAs (·.cfg = c) (rejectRequest why) [] fun s => .raise (.invalidParam why) s where
  late := lateFree_raise _
  meets _ _ _ _ ht := .raise ht
  command _ _ := rfl

theorem exec_comparedAs (i : Instr) : ∃ touched body, ComparedAs (·.cfg = c) (exec i) touched body := by
  cases i with
  | bfRead a bs bc => exact ⟨_, _, readCommand_comparedAs c a bs.toNat bc.toNat⟩
  | rd8 a => exact ⟨_, _, readCommand_comparedAs c a 0 8⟩
  | rd32 a => exact ⟨_, _, readCommand_comparedAs c a 0 32⟩
  | bfWrite a bs bc v => exact ⟨_, _, writeCommand_comparedAs c a bs.toNat bc.toNat v⟩
  | wr8 a v => exact ⟨_, _, writeCommand_comparedAs c a 0 8 v⟩
  | wr32 a v => exact ⟨_, _, writeCommand_comparedAs c a 0 32 v⟩
  | bset a bs => exact ⟨_, _, writeCommand_comparedAs c a bs.toNat 1 1#32⟩
  | bclr a bs => exact ⟨_, _, writeCommand_comparedAs c a bs.toNat 1 0#32⟩
  | pllStart xm src sync fin fout => exact ⟨_, _, execPllStart_comparedAs c xm src sync fin fout⟩

end commands

/-- `u` is started, with the request and the configuration of `s`. -/
structure SameCommand (s u : State) : Prop where
  busy : u.busy = true
  req : u.req = s.req
  cfg : u.cfg = s.cfg

/-- The step of every state started with one request is one and the same command. -/
theorem step_comparedAs (s : State) : ∃ touched body, ComparedAs (SameCommand s) step touched body := by
  cases hd : decode s.req with
  | instr i =>
    obtain ⟨touched, body, h⟩ := exec_comparedAs s.cfg i
    exact ⟨touched, body, h.congr fun u hu =>
      ⟨hu.cfg, (step_of_busy hu.busy).trans (runRequest_of_decode (hu.req ▸ hd))⟩⟩
  | illegalOp =>
    exact ⟨_, _, (rejectRequest_comparedAs s.cfg .illegalOp).congr fun u hu =>
      ⟨hu.cfg, (step_of_busy hu.busy).trans (runRequest_of_illegalOp (hu.req ▸ hd))⟩⟩
  | reservedBits =>
    exact ⟨_, _, (rejectRequest_comparedAs s.cfg .reservedBits).congr fun u hu =>
      ⟨hu.cfg, (step_of_busy hu.busy).trans (runRequest_of_reservedBits (hu.req ▸ hd))⟩⟩

section compared

variable {s t : State} {k : Nat} {req : Request}

/-- A reset before the `k`-th transaction, against the run in which the transport fails that transaction. -/
theorem step_reset_of_failed (hbusy : s.busy = true) (hr : (drawAt s k).reset = some req)
    (ht : step (failedAt s k) = .next t) (hdraws : t.draws = []) :
    ∃ u e, step s = .next u ∧ abandonedBy req s u ∧ e.isEngine = true ∧ t.trace = u.trace ++ [e] ∧ u.mem = t.mem := by
  obtain ⟨touched, body, hcmp⟩ := step_comparedAs s
  rw [hcmp.command (failedAt s k) ⟨hbusy, rfl, rfl⟩] at ht
  obtain ⟨u, e, hu, hcfg, hbound, he, htrace, hmem⟩ := (command_meets (hcmp.meets req) hr).1 t ht hdraws
  exact ⟨resetEngine req u, e, (hcmp.command s ⟨hbusy, rfl, rfl⟩).trans hu, resetEngine_abandonedBy req hcfg hbound, he,
    htrace, hmem.symm⟩

/-- A reset before the `k`-th transaction, against the run that faults at that access. -/
theorem step_reset_of_faulted {f : Fault} (hbusy : s.busy = true) (hr : (drawAt s k).reset = some req)
    (hf : step (failedAt s k) = .fault f) (hdraws : f.stopped.draws = []) :
    ∃ u, step s = .next u ∧ abandonedBy req s u ∧ u.trace = f.stopped.trace ∧ u.mem = f.stopped.mem := by
  obtain ⟨touched, body, hcmp⟩ := step_comparedAs s
  rw [hcmp.command (failedAt s k) ⟨hbusy, rfl, rfl⟩] at hf
  obtain ⟨u, hu, hcfg, hbound, hstopped⟩ := (command_meets (hcmp.meets req) hr).2 f hf hdraws
  rw [hstopped]
  exact ⟨resetEngine req u, (hcmp.command s ⟨hbusy, rfl, rfl⟩).trans hu, resetEngine_abandonedBy req hcfg hbound, rfl, rfl⟩

/-- A reset just before the response, against the run that gets its response. -/
theorem step_reset_of_answered {rest : List (Option Request)} (hbusy : s.busy = true) (hlate : s.lateResets = none :: rest)
    (ht : step s = .next t) (hrest : t.lateResets = rest) :
    step { s with lateResets := some req :: rest } = .next (resetEngine req t) := by
  obtain ⟨touched, body, hcmp⟩ := step_comparedAs s
  rw [hcmp.command s ⟨hbusy, rfl, rfl⟩] at ht
  exact (hcmp.command (withLate (some req :: rest) s) ⟨hbusy, rfl, rfl⟩).trans (command_late hcmp.late hlate ht hrest)

end compared

/-- Settles O31: a reset at a transaction of the command's list stops it there (`abandonedAfter`); any other reset is compared
with the run that does not meet it. -/
theorem resetAbandonsCommand : Obligations.ResetAbandonsCommand := by
  refine ⟨?read, ?write, ?pll, ?failed, ?faulted, ?answered⟩
  case read =>
    intro i s a bs bc k req hi hready hk hc hacts hr
    have ⟨_, _, _, _, hst⟩ := hready
    have hmem : replay ((readTxns s.cfg s.mem a bs bc).take k) s.mem = s.mem :=
      replay_reads fun e he => isRead_of_mem_readTxnsOf (readTxnsOf_stable hst ▸ List.mem_of_mem_take he)
    exact ⟨_, exec_read_reset hi hready hk hc hacts hr, abandonedAfter_abandonedBy _ _ _, rfl, hmem⟩
  case write =>
    intro i s a bs bc k v req hi hready hst hk hc hacts hr
    exact ⟨_, exec_write_reset hi hready hst hk hc hacts hr, abandonedAfter_abandonedBy _ _ _, rfl, rfl⟩
  case pll =>
    intro s xm src sync fin fout c k req hready hx hst hk hc hacts hr
    exact ⟨_, exec_pllStart_reset hready hx hst hk hc hacts hr, abandonedAfter_abandonedBy _ _ _, rfl, rfl⟩
  case failed => exact fun s t k req => step_reset_of_failed
  case faulted => exact fun s f k req => step_reset_of_faulted
  case answered =>
    intro s t req rest hbusy hlate ht hrest
    have hinputs := (step_engineRun hbusy ht).inputs
    exact ⟨_, step_reset_of_answered hbusy hlate ht hrest,
      resetEngine_abandonedBy req (configurationIsConstant s t ht) hinputs.1, rfl, rfl⟩

end Sys2Proof.Machine
end
